-- ==== Sys2Proof/Word.lean ====
section
/-! DEFINITION. The word types: bytes, 32-bit register words, 16-byte blocks, byte strings. -/

namespace Sys2Proof

/-- An 8-bit unsigned byte (00_scope.md R9). -/
abbrev Byte := BitVec 8

/-- A 32-bit register or command word (10_state.md R21, 30_encoding.md R70); also the 4-byte word of the key
expansion, its first byte most significant (40_aes_core.md R100). -/
abbrev Word := BitVec 32

/-- A 16-byte block as its big-endian 128-bit reading `int128` (00_scope.md R10): byte 0 is bits 127..120. -/
abbrev Block := BitVec 128

/-- A byte string, byte 0 first (00_scope.md R9). -/
abbrev Bytes := List Byte

end Sys2Proof
end

