-- ==== Sys2Proof/Machine/Bytes.lean ====
section
/-! DEFINITION. Byte strings, blocks and words as each other, and the integer fields inside blocks
(00_scope.md R9–R12). -/

namespace Sys2Proof.Machine

/-- Byte `i` of a block (00_scope.md R10): byte 0 is bits 127..120. -/
def blockByte (b : Block) (i : Nat) : Byte := b.extractLsb' (8 * (15 - i)) 8

/-- `int128` of a byte string (00_scope.md R10). -/
def blockOfBytes (s : Bytes) : Block := s.foldl (fun acc b => acc <<< 8 ||| b.setWidth 128) 0

/-- A block as its byte string, `blk` (00_scope.md R10). -/
def bytesOfBlock (b : Block) : Bytes := (List.range 16).map (blockByte b)

/-- The block whose byte `i` is `f i`. -/
def blockOfFn (f : Nat → Byte) : Block := blockOfBytes ((List.range 16).map f)

/-- Byte `i` of a 4-byte word, byte 0 first (40_aes_core.md R100). -/
def wordByte (w : Word) (i : Nat) : Byte := w.extractLsb' (8 * (3 - i)) 8

/-- The 4-byte word of a byte string (40_aes_core.md R100). -/
def wordOfBytes (s : Bytes) : Word := s.foldl (fun acc b => acc <<< 8 ||| b.setWidth 32) 0

/-- The first `n` pieces of `k` bytes of a byte string. -/
def pieces (k : Nat) : Nat → Bytes → List Bytes
  | 0, _ => []
  | n + 1, s => s.take k :: pieces k n (s.drop k)

/-- The whole 16-byte blocks of a byte string, in order. -/
def blocksOf (s : Bytes) : List Block := (pieces 16 (s.length / 16) s).map blockOfBytes

/-- The byte string of a list of blocks. -/
def bytesOfBlocks (bs : List Block) : Bytes := bs.flatMap bytesOfBlock

/-- `BE_n(v)`, the n-byte big-endian encoding (00_scope.md R12). -/
def beBytes (n v : Nat) : Bytes := (List.range n).map fun i => BitVec.ofNat 8 (v / 2 ^ (8 * (n - 1 - i)))

/-- `LE⁻¹(s)`, the little-endian reading (00_scope.md R12). -/
def leNat (s : Bytes) : Nat := s.foldr (fun b acc => b.toNat + 256 * acc) 0

/-- `n` zero bytes, `0^n` (00_scope.md R9). -/
def zeros (n : Nat) : Bytes := List.replicate n 0

/-- `pad16` (45_gcm.md R182): zero-padding to a multiple of 16 bytes. -/
def pad16 (s : Bytes) : Bytes := s ++ zeros ((16 - s.length % 16) % 16)

/-- Bytewise XOR (00_scope.md R9); the result is as long as the shorter string, so a longer key stream is cut. -/
def xorBytes (s t : Bytes) : Bytes := List.zipWith (· ^^^ ·) s t

/-- The number of 16-byte blocks that cover `n` bytes, `⌈n/16⌉`. -/
def blockCount (n : Nat) : Nat := (n + 15) / 16

end Sys2Proof.Machine
end

