-- ==== Sys2Proof/Machine/Aes.lean ====
section
/-! DEFINITION. The AES functions of 40_aes_core.md: the byte field, the S-boxes, the round transforms, the key schedules
and the two ciphers. -/

namespace Sys2Proof.Machine

/-- Multiplication by x in GF(2^8) (40_aes_core.md R91). -/
def xtime (a : Byte) : Byte := (a <<< 1) ^^^ (if a.msb then 0x1b else 0)

/-- The sum of the terms `xtime^i(a)` for the set bits i of `b` among its top `n` bits, `p` being the term of the lowest
of them. -/
def gf8Terms (b : Byte) : Nat → Byte → Byte
  | 0, _ => 0
  | n + 1, p => (if b.getLsbD (7 - n) then p else 0) ^^^ gf8Terms b n (xtime p)

/-- The product `a • b` in GF(2^8) (40_aes_core.md R91). -/
def gf8Mul (a b : Byte) : Byte := gf8Terms b 8 a

/-- The product of the `n` powers `a^2`, `a^4`, `a^8`, … in GF(2^8). -/
def gf8Squares : Nat → Byte → Byte
  | 0, _ => 1
  | n + 1, a => gf8Mul (gf8Mul a a) (gf8Squares n (gf8Mul a a))

/-- The inverse in GF(2^8), `inv(0) = 0` (40_aes_core.md R91): the power 254 = 2 + 4 + … + 128, as the group of units has
order 255. -/
def gf8Inv (a : Byte) : Byte := gf8Squares 7 a

/-- The affine map of the S-box (40_aes_core.md R92). -/
def sboxAffine (b : Byte) : Byte :=
  b ^^^ b.rotateLeft 1 ^^^ b.rotateLeft 2 ^^^ b.rotateLeft 3 ^^^ b.rotateLeft 4 ^^^ 0x63

/-- The S-box table (40_aes_core.md R92), one row for each high digit, its first byte for the low digit 0. -/
def sboxRows : List Block :=
  [0x637c777bf26b6fc53001672bfed7ab76, 0xca82c97dfa5947f0add4a2af9ca472c0,
   0xb7fd9326363ff7cc34a5e5f171d83115, 0x04c723c31896059a071280e2eb27b275,
   0x09832c1a1b6e5aa0523bd6b329e32f84, 0x53d100ed20fcb15b6acbbe394a4c58cf,
   0xd0efaafb434d338545f9027f503c9fa8, 0x51a3408f929d38f5bcb6da2110fff3d2,
   0xcd0c13ec5f974417c4a77e3d645d1973, 0x60814fdc222a908846eeb814de5e0bdb,
   0xe0323a0a4906245cc2d3ac629195e479, 0xe7c8376d8dd54ea96c56f4ea657aae08,
   0xba78252e1ca6b4c6e8dd741f4bbd8b8a, 0x703eb5664803f60e613557b986c11d9e,
   0xe1f8981169d98e949b1e87e9ce5528df, 0x8ca1890dbfe6426841992d0fb054bb16]

/-- The inverse S-box table (40_aes_core.md R93), laid out as `sboxRows`. -/
def invSboxRows : List Block :=
  [0x52096ad53036a538bf40a39e81f3d7fb, 0x7ce339829b2fff87348e4344c4dee9cb,
   0x547b9432a6c2233dee4c950b42fac34e, 0x082ea16628d924b2765ba2496d8bd125,
   0x72f8f66486689816d4a45ccc5d65b692, 0x6c704850fdedb9da5e154657a78d9d84,
   0x90d8ab008cbcd30af7e45805b8b34506, 0xd02c1e8fca3f0f02c1afbd0301138a6b,
   0x3a9111414f67dcea97f2cfcef0b4e673, 0x96ac7422e7ad3585e2f937e81c75df6e,
   0x47f11a711d29c5896fb7620eaa18be1b, 0xfc563e4bc6d279209adbc0fe78cd5af4,
   0x1fdda8338807c731b11210592780ec5f, 0x60517fa919b54a0d2de57a9f93c99cef,
   0xa0e03b4dae2af5b0c8ebbb3c83539961, 0x172b047eba77d626e169146355210c7d]

/-- The entry of a 256-byte table for a byte: row its high digit, column its low digit. -/
def tableByte (rows : List Block) (a : Byte) : Byte := blockByte (rows.getD (a.toNat / 16) 0) (a.toNat % 16)

/-- The S-box `S` (40_aes_core.md R92). -/
def sbox (a : Byte) : Byte := tableByte sboxRows a

/-- The inverse S-box `S⁻¹` (40_aes_core.md R93). -/
def invSbox (a : Byte) : Byte := tableByte invSboxRows a

/-- SubBytes (40_aes_core.md R95). -/
def subBytes (s : Block) : Block := blockOfFn fun i => sbox (blockByte s i)

/-- InvSubBytes (40_aes_core.md R95). -/
def invSubBytes (s : Block) : Block := blockOfFn fun i => invSbox (blockByte s i)

/-- ShiftRows (40_aes_core.md R96): byte `r + 4c` comes from column `(c + r) mod 4`. -/
def shiftRows (s : Block) : Block := blockOfFn fun i => blockByte s (i % 4 + 4 * ((i / 4 + i % 4) % 4))

/-- InvShiftRows (40_aes_core.md R96): byte `r + 4c` comes from column `(c − r) mod 4`. -/
def invShiftRows (s : Block) : Block := blockOfFn fun i => blockByte s (i % 4 + 4 * ((i / 4 + 4 - i % 4) % 4))

/-- Each column multiplied by the circulant matrix whose first row is `k0 k1 k2 k3` (40_aes_core.md R97). -/
def mulColumns (k0 k1 k2 k3 : Byte) (s : Block) : Block :=
  blockOfFn fun i =>
    let a := fun k => blockByte s (4 * (i / 4) + (i % 4 + k) % 4)
    gf8Mul k0 (a 0) ^^^ gf8Mul k1 (a 1) ^^^ gf8Mul k2 (a 2) ^^^ gf8Mul k3 (a 3)

/-- MixColumns (40_aes_core.md R97). -/
def mixColumns (s : Block) : Block := mulColumns 0x02 0x03 0x01 0x01 s

/-- InvMixColumns (40_aes_core.md R97). -/
def invMixColumns (s : Block) : Block := mulColumns 0x0e 0x0b 0x0d 0x09 s

/-- AddRoundKey (40_aes_core.md R98). -/
def addRoundKey (s k : Block) : Block := s ^^^ k

/-- `KeyLengthOk` (40_aes_core.md R99). -/
def keyLengthOk (n : Nat) : Bool := n == 16 || n == 24 || n == 32

/-- `Nk`, the number of key words of a key of `n` bytes (40_aes_core.md R99). -/
def keyWords (n : Nat) : Nat := n / 4

/-- `Nr`, the round count of a key of `n` bytes (40_aes_core.md R99). -/
def roundCount (n : Nat) : Nat := keyWords n + 6

/-- RotWord (40_aes_core.md R101). -/
def rotWord (w : Word) : Word := w.rotateLeft 8

/-- SubWord (40_aes_core.md R101). -/
def subWord (w : Word) : Word := wordOfBytes ((List.range 4).map fun i => sbox (wordByte w i))

/-- `Rcon[j] = x^(j−1)` (40_aes_core.md R102). -/
def rcon (j : Nat) : Byte := Nat.repeat xtime (j - 1) 1

/-- The word `Rcon[j] ‖ 00 ‖ 00 ‖ 00` (40_aes_core.md R100). -/
def rconWord (j : Nat) : Word := wordOfBytes [rcon j, 0, 0, 0]

/-- The word after the words `w` of the key expansion (40_aes_core.md R100). -/
def nextKeyWord (nk : Nat) (w : List Word) : Word :=
  let i := w.length
  let t := w.getD (i - 1) 0
  let t' :=
    if i % nk = 0 then subWord (rotWord t) ^^^ rconWord (i / nk)
    else if nk = 8 ∧ i % nk = 4 then subWord t
    else t
  w.getD (i - nk) 0 ^^^ t'

/-- `n` more words of the key expansion. -/
def extendKeyWords (nk : Nat) : Nat → List Word → List Word
  | 0, w => w
  | n + 1, w => extendKeyWords nk n (w ++ [nextKeyWord nk w])

/-- The key's own words `w[0..Nk−1]` (40_aes_core.md R100). -/
def initialKeyWords (key : Bytes) : List Word := (pieces 4 (keyWords key.length) key).map wordOfBytes

/-- The words `w[0..4Nr+3]` of the key expansion (40_aes_core.md R100). -/
def keyScheduleWords (key : Bytes) : List Word :=
  let nk := keyWords key.length
  extendKeyWords nk (4 * (roundCount key.length + 1) - nk) (initialKeyWords key)

/-- Round key `r`: `w[4r] ‖ w[4r+1] ‖ w[4r+2] ‖ w[4r+3]` (40_aes_core.md R100). -/
def roundKeyOf (w : List Word) (r : Nat) : Block :=
  w.getD (4 * r) 0 ++ w.getD (4 * r + 1) 0 ++ w.getD (4 * r + 2) 0 ++ w.getD (4 * r + 3) 0

/-- The encryption schedule `ek[0..Nr]` of a key (40_aes_core.md R100). -/
def keyExpansion (key : Bytes) : List Block :=
  (List.range (roundCount key.length + 1)).map (roundKeyOf (keyScheduleWords key))

/-- The decryption schedule `dk[0..Nr]` derived from `ek` (40_aes_core.md R108). -/
def decryptSchedule (nr : Nat) (ek : List Block) : List Block :=
  (List.range (nr + 1)).map fun r =>
    if r = 0 ∨ r = nr then ek.getD (nr - r) 0 else invMixColumns (ek.getD (nr - r) 0)

/-- One full forward round (40_aes_core.md R103). -/
def cipherRound (k s : Block) : Block := addRoundKey (mixColumns (shiftRows (subBytes s))) k

/-- One full round of the equivalent inverse cipher (40_aes_core.md R107). -/
def invCipherRound (k s : Block) : Block := addRoundKey (invMixColumns (invShiftRows (invSubBytes s))) k

/-- `n` full rounds `round`, the first with round key `r`. -/
def runRounds (round : Block → Block → Block) (rk : List Block) : (n r : Nat) → Block → Block
  | 0, _, s => s
  | n + 1, r, s => runRounds round rk n (r + 1) (round (rk.getD r 0) s)

/-- The forward cipher `Cipher(ek, Nr, in)` (40_aes_core.md R103). -/
def cipher (ek : List Block) (nr : Nat) (b : Block) : Block :=
  let s := runRounds cipherRound ek (nr - 1) 1 (addRoundKey b (ek.getD 0 0))
  addRoundKey (shiftRows (subBytes s)) (ek.getD nr 0)

/-- The equivalent inverse cipher `InvCipherEq(dk, Nr, in)` (40_aes_core.md R107). -/
def invCipher (dk : List Block) (nr : Nat) (b : Block) : Block :=
  let s := runRounds invCipherRound dk (nr - 1) 1 (addRoundKey b (dk.getD 0 0))
  addRoundKey (invShiftRows (invSubBytes s)) (dk.getD nr 0)

/-- `E_K` (40_aes_core.md R105). -/
def encryptBlock (key : Bytes) (b : Block) : Block := cipher (keyExpansion key) (roundCount key.length) b

/-- `D_K` (40_aes_core.md R110). -/
def decryptBlock (key : Bytes) (b : Block) : Block :=
  let nr := roundCount key.length
  invCipher (decryptSchedule nr (keyExpansion key)) nr b

end Sys2Proof.Machine
end

