-- ==== Sys2Proof/Config.lean ====
section
/-! DEFINITION. The implementation parameters of the block, and the free values: the bytes and the choice that the spec
leaves unspecified. The free values have no body, so a statement about one holds for every value. -/

namespace Sys2Proof

/-- The two implementation parameters (00_scope.md R8). -/
structure Config where
  /-- `NUM_CTX`, the number of context slots. -/
  numCtx : Nat
  /-- `BUF_SIZE`, the size of BUF in bytes. -/
  bufSize : Nat
  deriving DecidableEq, Repr

/-- The legal range of the parameters (00_scope.md R8). -/
abbrev Config.Legal (c : Config) : Prop :=
  1 ≤ c.numCtx ∧ c.numCtx ≤ 16 ∧ c.bufSize % 16 = 0 ∧ 256 ≤ c.bufSize ∧ c.bufSize ≤ 2 ^ 24

/-- The reference configuration (00_scope.md R8). DESIGN CHOICE (log entry 1): `State.reset` has it. -/
def Config.reference : Config := ⟨4, 65536⟩

/-- Free value: what BUF byte `a` holds after hardware reset number `epoch`, until it is written
(20_memory.md R52, decision D42). Log entry 2. -/
opaque Config.powerOnByte : (epoch a : Nat) → Byte

/-- Free value: the byte that draw number `n` gives (20_memory.md R52, R63; 60_exceptions.md R217). Log entry 4. -/
opaque Config.freeByte : (n : Nat) → Byte

/-- Free value: whether draw number `n` lets a raced verification succeed (20_memory.md R63). Log entry 8. -/
opaque Config.freeChoice : (n : Nat) → Bool

end Sys2Proof
end

