-- ==== Sys2Proof/Machine/State.lean ====
section
/-! DEFINITION. The state of AESGCM-CORE as plain data, what a step can stop with, and the state after hardware reset. -/

namespace Sys2Proof.Machine

/-- Result codes (60_exceptions.md R205). Codes 9–15 are never produced, and no value of this type stands for one
(log entry 14). -/
inductive ResultCode where
  | ok
  | invalidKeyLength
  | allocationFailure
  | parameterOutOfRange
  | authMismatch
  | tagMismatch
  | illegalCommand
  | addressError
  | contextError
  deriving DecidableEq, Repr

/-- The RESULT register's two fields (10_state.md R26); its reserved bits read 0. -/
structure Result where
  code : ResultCode
  ctx : BitVec 4
  deriving DecidableEq, Repr

/-- The reset value of RESULT (10_state.md R26, R39). -/
def Result.zero : Result := ⟨.ok, 0⟩

/-- The thirteen parameter registers (10_state.md R28), and the snapshot of them that a command reads. -/
structure Params where
  keyAddr : Word
  keyLen : Word
  ivAddr : Word
  ivLen : Word
  srcAddr : Word
  dstAddr : Word
  dataLen : Word
  aadAddr : Word
  aadLen : Word
  tagAddr : Word
  tagLen : Word
  segAddr : Word
  segCount : Word
  deriving DecidableEq, Repr

/-- All parameter registers zero (10_state.md R28, R39). -/
def Params.zero : Params := ⟨0, 0, 0, 0, 0, 0, 0, 0, 0, 0, 0, 0, 0⟩

/-- The names of the parameter registers (10_state.md R28). -/
inductive ParamReg where
  | keyAddr
  | keyLen
  | ivAddr
  | ivLen
  | srcAddr
  | dstAddr
  | dataLen
  | aadAddr
  | aadLen
  | tagAddr
  | tagLen
  | segAddr
  | segCount
  deriving DecidableEq, Repr

/-- A slot's direction (10_state.md R30): ENC is 0, DEC is 1. -/
inductive Dir where
  | enc
  | dec
  deriving DecidableEq, Repr

/-- A context slot (10_state.md R30): VALID, DIR, NR and the fifteen round keys RK[0..14]. -/
structure Slot where
  valid : Bool
  dir : Dir
  nr : Nat
  rk : List Block
  deriving DecidableEq, Repr

/-- A free slot: every field zero (10_state.md R30, R32). -/
def Slot.free : Slot := ⟨false, .enc, 0, List.replicate 15 0⟩

/-- The engine phase (10_state.md R33), read by the host as STATUS.BUSY. -/
inductive Phase where
  | idle
  | busy
  deriving DecidableEq, Repr

/-- BUF's contents: (address, byte) pairs, one for each byte written since the last hardware reset, addresses strictly
rising. An address not listed holds the power-on draw of that reset (20_memory.md R52; log entries 2, 3). -/
abbrev Memory := List Host.Cell

/-- The latch (10_state.md R33): the accepted command word, the parameter snapshot, the BUF snapshot of
20_memory.md R62 (log entry 9), and whether the host has written inside the command's regions since (R63; log entry 8). -/
structure Latch where
  lcmd : Word
  x : Params
  buf : Memory
  raced : Bool
  deriving DecidableEq, Repr

/-- The empty latch (10_state.md R33, R39). -/
def Latch.empty : Latch := ⟨0, Params.zero, [], false⟩

/-- The engine's transient state (10_state.md R35). It is zero whenever the engine is between commands, and a command is
one step, so no step shows it otherwise (log entry 12). -/
structure Transient where
  nr : Nat
  rk : List Block
  cbcChain : Block
  macAcc : Block
  subkeyL : Block
  subkeyK1 : Block
  subkeyK2 : Block
  hashKey : Block
  hashAcc : Block
  counter : Block
  j0 : Block
  roundState : Block
  deriving DecidableEq, Repr

/-- Transient state all zero (10_state.md R35, R39). -/
def Transient.zero : Transient := ⟨0, List.replicate 15 0, 0, 0, 0, 0, 0, 0, 0, 0, 0, 0⟩

/-- One access of the host at a byte offset of the host port (20_memory.md R51), `width` bytes wide; a write carries the
32 data lines. -/
inductive HostAccess where
  | read (width : Nat) (off : Word)
  | write (width : Nat) (off : Word) (v : Word)
  deriving DecidableEq, Repr

/-- What can happen next (00_scope.md R16, 70_reset_and_hazards.md R230, R244): a host access, an engine turn, or a
hardware reset. -/
inductive Event where
  | host (a : HostAccess)
  | engine
  | hardReset
  deriving DecidableEq, Repr

/-- The host port's response to an access: a bus error, or success with the value on the data lines (20_memory.md R55,
R56; 60_exceptions.md R219). A write's response carries zero. -/
structure BusResponse where
  error : Bool
  data : Word
  deriving DecidableEq, Repr

/-- A region of BUF (20_memory.md R58): a start address and a length in bytes. -/
structure Region where
  addr : Nat
  len : Nat
  deriving DecidableEq, Repr

/-- The state of the block (10_state.md R20), and the model's own fields `epoch`, `draws`, `bus` and `agenda`. -/
structure State where
  /-- The implementation parameters, hardwired (00_scope.md R8; log entry 1). -/
  cfg : Config
  /-- CTRL.IRQ_EN (10_state.md R24). -/
  irqEn : Bool
  /-- PHASE, read as STATUS.BUSY (10_state.md R25, R33). -/
  phase : Phase
  /-- STATUS.DONE (10_state.md R25). -/
  done : Bool
  /-- STATUS.OVERRUN (10_state.md R25). -/
  overrun : Bool
  /-- RESULT (10_state.md R26). -/
  result : Result
  /-- The parameter registers (10_state.md R28). -/
  params : Params
  /-- The context slots (10_state.md R30). -/
  slots : List Slot
  /-- The latch (10_state.md R33). -/
  latch : Latch
  /-- The transient state (10_state.md R35). -/
  transient : Transient
  /-- BUF (20_memory.md R50). -/
  buf : Memory
  /-- The model's own: the number of the hardware reset that BUF's power-on draws belong to (log entry 2). -/
  epoch : Nat
  /-- The model's own: the number of the next free draw (log entry 4). -/
  draws : Nat
  /-- The model's own: the port's response to the latest host access (log entry 6). -/
  bus : Option BusResponse
  /-- The model's own: the events still to come, the next one first (log entry 5). -/
  agenda : List Event
  deriving DecidableEq, Repr

/-- Faults. There is none: the block has no trap and execution never fails (60_exceptions.md R214, R220). -/
inductive Fault where
  deriving DecidableEq, Repr

/-- Refusals. -/
inductive Refusal where
  /-- A command with no meaning in the model; no arm of `exec` answers it. Safe. -/
  | notModelled (mnemonic : String)
  deriving DecidableEq, Repr

/-- What an operation or a step of this machine answers. -/
abbrev Outcome := Host.Outcome State Fault Refusal

/-- The state right after hardware reset in configuration `cfg` (10_state.md R39, 70_reset_and_hazards.md R230). -/
def State.resetOf (cfg : Config) : State where
  cfg := cfg
  irqEn := false
  phase := .idle
  done := false
  overrun := false
  result := Result.zero
  params := Params.zero
  slots := List.replicate cfg.numCtx Slot.free
  latch := Latch.empty
  transient := Transient.zero
  buf := []
  epoch := 0
  draws := 0
  bus := none
  agenda := []

/-- The state right after hardware reset, in the reference configuration (log entry 1). -/
def State.reset : State := State.resetOf Config.reference

end Sys2Proof.Machine
end

