-- ==== Sys2Proof/Machine/Ops.lean ====
section
/-! DEFINITION. The named operations over memory, registers and slots that every meaning uses: BUF reads and writes, free
values, acceptance, completion (the block's one way to end a command), and hardware reset. -/

namespace Sys2Proof.Machine

/-- The byte a memory lists at an address; `none` where nothing has been written since hardware reset. -/
def Memory.byte? : Memory → Nat → Option Byte
  | [], _ => none
  | (k, v) :: m, a => if k = a then some v else Memory.byte? m a

/-- Store one byte, keeping addresses strictly rising. -/
def Memory.put : Memory → Nat → Byte → Memory
  | [], a, v => [(a, v)]
  | (k, u) :: m, a, v =>
    if a < k then (a, v) :: (k, u) :: m
    else if a = k then (a, v) :: m
    else (k, u) :: Memory.put m a v

/-- Store a byte string at increasing addresses (20_memory.md R54). -/
def Memory.putBytes : Memory → Nat → Bytes → Memory
  | m, _, [] => m
  | m, a, b :: bs => Memory.putBytes (Memory.put m a b) (a + 1) bs

/-- The canonical form of a memory: addresses strictly rising (log entry 3). -/
abbrev Memory.wf (m : Memory) : Prop := m.Pairwise fun x y => x.1 < y.1

/-- What an address reads as in a memory: the byte listed, else the power-on draw (20_memory.md R52; log entry 2). The
one definition of what an unlisted address reads as. -/
def Memory.read (epoch : Nat) (m : Memory) (a : Nat) : Byte := (Memory.byte? m a).getD (Config.powerOnByte epoch a)

/-- The byte BUF holds at an address now (20_memory.md R50). -/
def State.bufByte (s : State) (a : Nat) : Byte := Memory.read s.epoch s.buf a

/-- The byte BUF held at an address when the running command was accepted (20_memory.md R62). -/
def State.snapByte (s : State) (a : Nat) : Byte := Memory.read s.epoch s.latch.buf a

/-- `MemRead` (00_scope.md R13): the bytes of a region as they stood at acceptance (20_memory.md R62). -/
def State.memRead (s : State) (r : Region) : Bytes := (List.range r.len).map fun i => s.snapByte (r.addr + i)

/-- `MemWrite` (00_scope.md R13): write a byte string at a BUF address. -/
def State.memWrite (s : State) (a : Nat) (bs : Bytes) : State := { s with buf := Memory.putBytes s.buf a bs }

/-- `n` fresh free bytes (93_implementation_defined.md U2–U5; log entry 4). -/
def State.freeBytes (s : State) (n : Nat) : Bytes := (List.range n).map fun i => Config.freeByte (s.draws + i)

/-- `BUF[r] <- unspecified`: every byte of a region that BUF has becomes a fresh free byte (60_exceptions.md R217,
70_reset_and_hazards.md R231). Bytes of an out-of-bounds region past the end of BUF do not exist (log entry 10). -/
def State.freeRegion (s : State) (r : Region) : State :=
  let n := min r.len (s.cfg.bufSize - r.addr)
  { s with buf := Memory.putBytes s.buf r.addr (s.freeBytes n), draws := s.draws + n }

/-- `freeRegion` for each region of a list. -/
def State.freeRegions (s : State) (rs : List Region) : State := rs.foldl State.freeRegion s

/-- `slot[c]` (10_state.md R30). -/
def State.slot (s : State) (c : Nat) : Slot := s.slots.getD c Slot.free

/-- Write `slot[c]`. -/
def State.setSlot (s : State) (c : Nat) (sl : Slot) : State := { s with slots := s.slots.set c sl }

/-- The lowest free slot, `min { c < NUM_CTX : slot[c].VALID = 0 }` (41_block.md R125). -/
def State.lowestFree? (s : State) : Option Nat := (List.range s.cfg.numCtx).find? fun c => !(s.slot c).valid

/-- A valid slot holding the schedule `rk` of `nr + 1` round keys, the entries above it zero (10_state.md R30, R31). -/
def Slot.ofSchedule (dir : Dir) (nr : Nat) (rk : List Block) : Slot :=
  ⟨true, dir, nr, rk ++ List.replicate (15 - rk.length) 0⟩

/-- Read a parameter register (10_state.md R28). -/
def Params.get (p : Params) : ParamReg → Word
  | .keyAddr => p.keyAddr
  | .keyLen => p.keyLen
  | .ivAddr => p.ivAddr
  | .ivLen => p.ivLen
  | .srcAddr => p.srcAddr
  | .dstAddr => p.dstAddr
  | .dataLen => p.dataLen
  | .aadAddr => p.aadAddr
  | .aadLen => p.aadLen
  | .tagAddr => p.tagAddr
  | .tagLen => p.tagLen
  | .segAddr => p.segAddr
  | .segCount => p.segCount

/-- Write a parameter register; all 32 bits are writable (10_state.md R28). -/
def Params.set (p : Params) (v : Word) : ParamReg → Params
  | .keyAddr => { p with keyAddr := v }
  | .keyLen => { p with keyLen := v }
  | .ivAddr => { p with ivAddr := v }
  | .ivLen => { p with ivLen := v }
  | .srcAddr => { p with srcAddr := v }
  | .dstAddr => { p with dstAddr := v }
  | .dataLen => { p with dataLen := v }
  | .aadAddr => { p with aadAddr := v }
  | .aadLen => { p with aadLen := v }
  | .tagAddr => { p with tagAddr := v }
  | .tagLen => { p with tagLen := v }
  | .segAddr => { p with segAddr := v }
  | .segCount => { p with segCount := v }

/-- `accept(w)` (10_state.md R33): latch the word, the parameter registers and BUF; DONE ← 0, BUSY ← 1. -/
def State.accept (s : State) (w : Word) : State :=
  { s with latch := ⟨w, s.params, s.buf, false⟩, done := false, phase := .busy }

/-- `complete(k, c)` (60_exceptions.md R215): the completion record; the transient state and the latch are zeroed, the
phase returns to IDLE and DONE is set. -/
def State.complete (s : State) (k : ResultCode) (c : Nat) : State :=
  { s with
    result := ⟨k, BitVec.ofNat 4 c⟩
    transient := Transient.zero
    latch := Latch.empty
    phase := .idle
    done := true }

/-- What both resets set (70_reset_and_hazards.md R230, R231): everything but BUF and the model's own fields. -/
def State.clearAll (s : State) : State :=
  { s with
    irqEn := false
    phase := .idle
    done := false
    overrun := false
    result := Result.zero
    params := Params.zero
    slots := List.replicate s.cfg.numCtx Slot.free
    latch := Latch.empty
    transient := Transient.zero }

/-- Hardware reset (70_reset_and_hazards.md R230): every register and slot at its reset value, a running command aborted,
and BUF holding the fresh draws of the next reset. -/
def State.hardReset (s : State) : State :=
  { s.clearAll with buf := [], epoch := s.epoch + 1, bus := none }

end Sys2Proof.Machine
end

