-- ==== Sys2Proof/Syntax.lean ====
section
/-! DEFINITION. The fourteen commands of the block, one constructor per row of spec/opcode_table.json, and the two
command formats. -/

namespace Sys2Proof

/-- A command (30_encoding.md R72). The argument `ctx` of a format C command is its context slot index, the CTX field
read as a natural (R75). Every other operand comes from the parameter registers. -/
inductive Instr where
  | blkInitEnc
  | blkInitDec
  | blkEnc (ctx : Nat)
  | blkDec (ctx : Nat)
  | blkDeinit (ctx : Nat)
  | cbcEnc
  | cbcDec
  | cmac
  | cmacVec
  | ccmEnc
  | ccmDec
  | gcmEnc
  | gcmDec
  | gmac
  deriving DecidableEq, Repr

/-- The two command formats (30_encoding.md R71): `c` names a context slot, `n` does not. -/
inductive Format where
  | c
  | n
  deriving DecidableEq, Repr

/-- The format of each command (30_encoding.md R72). -/
def Instr.format : Instr → Format
  | .blkEnc _ | .blkDec _ | .blkDeinit _ => .c
  | .blkInitEnc | .blkInitDec | .cbcEnc | .cbcDec | .cmac | .cmacVec => .n
  | .ccmEnc | .ccmDec | .gcmEnc | .gcmDec | .gmac => .n

end Sys2Proof
end

