-- ==== Sys2Proof/Machine/Operands.lean ====
section
/-! DEFINITION. The operands of the commands: the regions of 30_encoding.md R76, their bounds and overlap
(20_memory.md R58, R59; 60_exceptions.md R210), and the segment descriptors (43_cmac.md R152). -/

namespace Sys2Proof.Machine

/-- A region is in bounds (20_memory.md R58), on unbounded naturals. -/
def Region.inBounds (r : Region) (bufSize : Nat) : Bool := r.len == 0 || decide (r.addr + r.len ≤ bufSize)

/-- Two regions overlap (20_memory.md R59). -/
def Region.overlaps (r q : Region) : Bool :=
  decide (0 < r.len ∧ 0 < q.len ∧ r.addr < q.addr + q.len ∧ q.addr < r.addr + r.len)

/-- Two regions are identical (20_memory.md R59). -/
def Region.identical (r q : Region) : Bool := r.addr == q.addr && r.len == q.len

/-- An address lies in a region (20_memory.md R58). -/
def Region.has (r : Region) (a : Nat) : Bool := decide (r.addr ≤ a ∧ a < r.addr + r.len)

/-- The region that an address register and a length register name (30_encoding.md R75, R76). -/
def regionOf (addr len : Word) : Region := ⟨addr.toNat, len.toNat⟩

/-- The key region `K` (30_encoding.md R76). -/
def Params.keyRegion (x : Params) : Region := regionOf x.keyAddr x.keyLen

/-- The IV region of GCM and GMAC, IV_LEN bytes (30_encoding.md R76). -/
def Params.ivRegion (x : Params) : Region := regionOf x.ivAddr x.ivLen

/-- The IV region of CBC, always 16 bytes (30_encoding.md R76). -/
def Params.cbcIvRegion (x : Params) : Region := ⟨x.ivAddr.toNat, 16⟩

/-- The nonce region of CCM, always 13 bytes (30_encoding.md R76). -/
def Params.nonceRegion (x : Params) : Region := ⟨x.ivAddr.toNat, 13⟩

/-- The input data region, DATA_LEN bytes (30_encoding.md R76). -/
def Params.srcRegion (x : Params) : Region := regionOf x.srcAddr x.dataLen

/-- The output data region, DATA_LEN bytes (30_encoding.md R76). -/
def Params.dstRegion (x : Params) : Region := regionOf x.dstAddr x.dataLen

/-- The input block of the block commands (30_encoding.md R76). -/
def Params.srcBlockRegion (x : Params) : Region := ⟨x.srcAddr.toNat, 16⟩

/-- The output block of the block commands (30_encoding.md R76). -/
def Params.dstBlockRegion (x : Params) : Region := ⟨x.dstAddr.toNat, 16⟩

/-- The AAD region (30_encoding.md R76). -/
def Params.aadRegion (x : Params) : Region := regionOf x.aadAddr x.aadLen

/-- The tag region of CCM, GCM and GMAC, TAG_LEN bytes (30_encoding.md R76). -/
def Params.tagRegion (x : Params) : Region := regionOf x.tagAddr x.tagLen

/-- The tag region of CMAC, always 16 bytes (30_encoding.md R76). -/
def Params.macRegion (x : Params) : Region := ⟨x.tagAddr.toNat, 16⟩

/-- The descriptor table region of CMAC_VEC (43_cmac.md R152), its length computed without wrap-around. -/
def Params.tableRegion (x : Params) : Region := ⟨x.segAddr.toNat, 8 * x.segCount.toNat⟩

/-- Segment `i` as its descriptor gives it: LE32 address, then LE32 length (43_cmac.md R152). -/
def State.descriptor (s : State) (i : Nat) : Region :=
  let d := s.memRead ⟨s.latch.x.segAddr.toNat + 8 * i, 8⟩
  ⟨leNat (d.take 4), leNat (d.drop 4)⟩

/-- The segments of CMAC_VEC, in order (43_cmac.md R152). -/
def State.segments (s : State) : List Region := (List.range s.latch.x.segCount.toNat).map s.descriptor

/-- The descriptor table of CMAC_VEC can be read: its own region is in bounds (30_encoding.md R77). -/
def State.tableReadable (s : State) : Bool := s.latch.x.tableRegion.inBounds s.cfg.bufSize

/-- The segments among the regions of CMAC_VEC (30_encoding.md R76, 70_reset_and_hazards.md R236): every one where the table
can be read, whatever the other checks give. DEDUCED (log entry 8): none where it cannot, since no descriptor is then
read. -/
def State.readSegments (s : State) : List Region := if s.tableReadable then s.segments else []

/-- The primary input of a command, the one input an output may be identical to (30_encoding.md R76). -/
def Params.primary (x : Params) : Instr → Option Region
  | .blkEnc _ | .blkDec _ => some x.srcBlockRegion
  | .cbcEnc | .cbcDec | .ccmEnc | .ccmDec | .gcmEnc | .gcmDec => some x.srcRegion
  | .blkInitEnc | .blkInitDec | .blkDeinit _ | .cmac | .cmacVec | .gmac => none

/-- The input regions of a command other than its primary input (30_encoding.md R76). -/
def State.otherInputs (s : State) : Instr → List Region
  | .blkInitEnc | .blkInitDec => [s.latch.x.keyRegion]
  | .blkEnc _ | .blkDec _ | .blkDeinit _ => []
  | .cbcEnc | .cbcDec => [s.latch.x.keyRegion, s.latch.x.cbcIvRegion]
  | .cmac => [s.latch.x.keyRegion, s.latch.x.srcRegion]
  | .cmacVec => [s.latch.x.keyRegion, s.latch.x.tableRegion] ++ s.readSegments
  | .ccmEnc => [s.latch.x.keyRegion, s.latch.x.nonceRegion, s.latch.x.aadRegion]
  | .ccmDec => [s.latch.x.keyRegion, s.latch.x.nonceRegion, s.latch.x.aadRegion, s.latch.x.tagRegion]
  | .gcmEnc => [s.latch.x.keyRegion, s.latch.x.ivRegion, s.latch.x.aadRegion]
  | .gcmDec => [s.latch.x.keyRegion, s.latch.x.ivRegion, s.latch.x.aadRegion, s.latch.x.tagRegion]
  | .gmac => [s.latch.x.keyRegion, s.latch.x.ivRegion, s.latch.x.aadRegion]

/-- The output regions of a command (30_encoding.md R76). -/
def Params.outputs (x : Params) : Instr → List Region
  | .blkInitEnc | .blkInitDec | .blkDeinit _ => []
  | .blkEnc _ | .blkDec _ => [x.dstBlockRegion]
  | .cbcEnc | .cbcDec => [x.srcRegion]
  | .cmac | .cmacVec => [x.macRegion]
  | .ccmEnc | .gcmEnc => [x.dstRegion, x.tagRegion]
  | .ccmDec | .gcmDec => [x.dstRegion]
  | .gmac => [x.tagRegion]

/-- All input regions of a command (30_encoding.md R76). -/
def State.inputs (s : State) (i : Instr) : List Region := s.otherInputs i ++ (s.latch.x.primary i).toList

/-- All regions of a command (30_encoding.md R76). -/
def State.regions (s : State) (i : Instr) : List Region := s.inputs i ++ s.latch.x.outputs i

/-- The parameter registers that a command reads (30_encoding.md R76, 10_state.md R28); it ignores the others. -/
def paramsRead : Instr → List ParamReg
  | .blkInitEnc | .blkInitDec => [.keyAddr, .keyLen]
  | .blkEnc _ | .blkDec _ => [.srcAddr, .dstAddr]
  | .blkDeinit _ => []
  | .cbcEnc | .cbcDec => [.keyAddr, .keyLen, .ivAddr, .srcAddr, .dataLen]
  | .cmac => [.keyAddr, .keyLen, .srcAddr, .dataLen, .tagAddr]
  | .cmacVec => [.keyAddr, .keyLen, .segAddr, .segCount, .tagAddr]
  | .ccmEnc | .ccmDec =>
    [.keyAddr, .keyLen, .ivAddr, .aadAddr, .aadLen, .srcAddr, .dstAddr, .dataLen, .tagAddr, .tagLen]
  | .gcmEnc | .gcmDec =>
    [.keyAddr, .keyLen, .ivAddr, .ivLen, .aadAddr, .aadLen, .srcAddr, .dstAddr, .dataLen, .tagAddr, .tagLen]
  | .gmac => [.keyAddr, .keyLen, .ivAddr, .ivLen, .aadAddr, .aadLen, .tagAddr, .tagLen]

/-- No two regions of a list overlap. -/
def pairwiseDisjoint : List Region → Bool
  | [] => true
  | o :: os => (os.all fun q => !o.overlaps q) && pairwiseDisjoint os

/-- `RegionsOk` (60_exceptions.md R210). -/
def regionsOk (others : List Region) (primary : Option Region) (outputs : List Region) : Bool :=
  (outputs.all fun o =>
    (primary.toList.all fun p => o.identical p || !o.overlaps p) && others.all fun i => !o.overlaps i)
  && pairwiseDisjoint outputs

end Sys2Proof.Machine
end

