-- ==== Sys2Proof/Machine/Checks.lean ====
section
/-! DEFINITION. The checks that run before a command has any effect, and their order (60_exceptions.md R207–R213). -/

namespace Sys2Proof.Machine

/-- The context check (60_exceptions.md R207). -/
def State.contextOk (s : State) : Instr → Bool
  | .blkEnc c => decide (c < s.cfg.numCtx) && (s.slot c).valid && (s.slot c).dir == .enc
  | .blkDec c => decide (c < s.cfg.numCtx) && (s.slot c).valid && (s.slot c).dir == .dec
  | .blkDeinit c => decide (c < s.cfg.numCtx) && (s.slot c).valid
  | .blkInitEnc | .blkInitDec | .cbcEnc | .cbcDec | .cmac | .cmacVec => true
  | .ccmEnc | .ccmDec | .gcmEnc | .gcmDec | .gmac => true

/-- The key-length check (60_exceptions.md R208). -/
def Params.keyOk (x : Params) : Instr → Bool
  | .blkEnc _ | .blkDec _ | .blkDeinit _ => true
  | .blkInitEnc | .blkInitDec | .cbcEnc | .cbcDec | .cmac | .cmacVec => keyLengthOk x.keyLen.toNat
  | .ccmEnc | .ccmDec | .gcmEnc | .gcmDec | .gmac => keyLengthOk x.keyLen.toNat

/-- `CcmParamsOk` (44_ccm.md R161). -/
def Params.ccmOk (x : Params) : Bool :=
  [4, 6, 8, 10, 12, 14, 16].contains x.tagLen.toNat && decide (x.aadLen.toNat ≤ 30)
    && decide (x.dataLen.toNat ≤ 65535)

/-- The tag length check of GCM and GMAC (45_gcm.md R193). -/
def Params.gcmTagOk (x : Params) : Bool := decide (4 ≤ x.tagLen.toNat ∧ x.tagLen.toNat ≤ 16)

/-- The scalar-parameter check (60_exceptions.md R212). -/
def Params.scalarsOk (x : Params) : Instr → Bool
  | .cbcEnc | .cbcDec => x.dataLen.toNat % 16 == 0
  | .ccmEnc | .ccmDec => x.ccmOk
  | .gcmEnc | .gcmDec | .gmac => x.gcmTagOk
  | .blkInitEnc | .blkInitDec | .blkEnc _ | .blkDec _ | .blkDeinit _ | .cmac | .cmacVec => true

/-- The bounds check (60_exceptions.md R209). For CMAC_VEC the segments are among the regions wherever the table can be
read; the two steps of the rule give the same answer (`State.boundsOk_cmacVec`). -/
def State.boundsOk (s : State) (i : Instr) : Bool := (s.regions i).all fun r => r.inBounds s.cfg.bufSize

/-- The overlap check (60_exceptions.md R210). -/
def State.overlapOk (s : State) (i : Instr) : Bool :=
  regionsOk (s.otherInputs i) (s.latch.x.primary i) (s.latch.x.outputs i)

/-- The allocation check (60_exceptions.md R211). -/
def State.allocOk (s : State) : Instr → Bool
  | .blkInitEnc | .blkInitDec => s.lowestFree?.isSome
  | .blkEnc _ | .blkDec _ | .blkDeinit _ | .cbcEnc | .cbcDec | .cmac | .cmacVec => true
  | .ccmEnc | .ccmDec | .gcmEnc | .gcmDec | .gmac => true

/-- The checks of a decoded command, in order, each with the code its failure reports (60_exceptions.md R213). -/
def State.checks (s : State) (i : Instr) : List (Bool × ResultCode) :=
  [(s.contextOk i, .contextError),
   (s.latch.x.keyOk i, .invalidKeyLength),
   (s.latch.x.scalarsOk i, .parameterOutOfRange),
   (s.boundsOk i, .addressError),
   (s.overlapOk i, .parameterOutOfRange),
   (s.allocOk i, .allocationFailure)]

/-- The code of the first check that fails. -/
def firstFailure : List (Bool × ResultCode) → Option ResultCode
  | [] => none
  | (ok, k) :: cs => if ok then firstFailure cs else some k

/-- Run a command's checks, then its execution (60_exceptions.md R213, R214, R216): a failed check completes with its
code and does nothing else; `body` is the state after the command's own execution and completion. -/
def State.checked (s : State) (i : Instr) (body : State) : Outcome :=
  match firstFailure (s.checks i) with
  | some k => .next (s.complete k 0)
  | none => .next body

end Sys2Proof.Machine
end

