-- ==== Sys2Proof/Machine/Block.lean ====
section
/-! DEFINITION. The block commands (41_block.md). -/

namespace Sys2Proof.Machine

/-- The key bytes of the running command (30_encoding.md R76). -/
def State.key (s : State) : Bytes := s.memRead s.latch.x.keyRegion

/-- Store a schedule in the lowest free slot and complete with its index in RESULT.CTX (41_block.md R120, R121, R125). -/
def State.allocate (s : State) (dir : Dir) (nr : Nat) (rk : List Block) : State :=
  match s.lowestFree? with
  | some c => (s.setSlot c (Slot.ofSchedule dir nr rk)).complete .ok c
  | none => s.complete .allocationFailure 0

/-- BLK_INIT_ENC (41_block.md R120). -/
def execBlkInitEnc (s : State) : Outcome :=
  s.checked .blkInitEnc (s.allocate .enc (roundCount s.key.length) (keyExpansion s.key))

/-- BLK_INIT_DEC (41_block.md R121). -/
def execBlkInitDec (s : State) : Outcome :=
  s.checked .blkInitDec
    (s.allocate .dec (roundCount s.key.length) (decryptSchedule (roundCount s.key.length) (keyExpansion s.key)))

/-- BLK_ENC (41_block.md R122). -/
def execBlkEnc (c : Nat) (s : State) : Outcome :=
  s.checked (.blkEnc c) <|
    let p := blockOfBytes (s.memRead s.latch.x.srcBlockRegion)
    let out := cipher (s.slot c).rk (s.slot c).nr p
    (s.memWrite s.latch.x.dstBlockRegion.addr (bytesOfBlock out)).complete .ok 0

/-- BLK_DEC (41_block.md R123). -/
def execBlkDec (c : Nat) (s : State) : Outcome :=
  s.checked (.blkDec c) <|
    let b := blockOfBytes (s.memRead s.latch.x.srcBlockRegion)
    let out := invCipher (s.slot c).rk (s.slot c).nr b
    (s.memWrite s.latch.x.dstBlockRegion.addr (bytesOfBlock out)).complete .ok 0

/-- BLK_DEINIT (41_block.md R124): zero the slot, then release it. -/
def execBlkDeinit (c : Nat) (s : State) : Outcome :=
  s.checked (.blkDeinit c) ((s.setSlot c Slot.free).complete .ok 0)

end Sys2Proof.Machine
end

