-- ==== Sys2Proof/Machine/Cbc.lean ====
section
/-! DEFINITION. The CBC mode controller (42_cbc.md). -/

namespace Sys2Proof.Machine

/-- CBC encryption of the blocks after chain value `c` (42_cbc.md R135). -/
def cbcEncrypt (E : Block → Block) : (c : Block) → List Block → List Block
  | _, [] => []
  | c, p :: ps => E (c ^^^ p) :: cbcEncrypt E (E (c ^^^ p)) ps

/-- CBC decryption of the blocks after chain value `c` (42_cbc.md R136). -/
def cbcDecrypt (D : Block → Block) : (c : Block) → List Block → List Block
  | _, [] => []
  | c, x :: xs => (D x ^^^ c) :: cbcDecrypt D x xs

/-- CBC_ENC (42_cbc.md R135). -/
def execCbcEnc (s : State) : Outcome :=
  s.checked .cbcEnc <|
    let iv := blockOfBytes (s.memRead s.latch.x.cbcIvRegion)
    let p := blocksOf (s.memRead s.latch.x.srcRegion)
    (s.memWrite s.latch.x.srcRegion.addr (bytesOfBlocks (cbcEncrypt (encryptBlock s.key) iv p))).complete .ok 0

/-- CBC_DEC (42_cbc.md R136). -/
def execCbcDec (s : State) : Outcome :=
  s.checked .cbcDec <|
    let iv := blockOfBytes (s.memRead s.latch.x.cbcIvRegion)
    let c := blocksOf (s.memRead s.latch.x.srcRegion)
    (s.memWrite s.latch.x.srcRegion.addr (bytesOfBlocks (cbcDecrypt (decryptBlock s.key) iv c))).complete .ok 0

end Sys2Proof.Machine
end

