-- ==== Sys2Proof/Machine/Cmac.lean ====
section
/-! DEFINITION. The CBC-MAC engine (43_cmac.md). -/

namespace Sys2Proof.Machine

/-- Doubling in GF(2^128) (43_cmac.md R145). -/
def dbl (v : Block) : Block := (v <<< 1) ^^^ (if v.msb then 0x87 else 0)

/-- `L = E_K(0^16)` (43_cmac.md R146). -/
def cmacL (E : Block → Block) : Block := E 0

/-- `K1 = dbl(L)` (43_cmac.md R146). -/
def cmacK1 (E : Block → Block) : Block := dbl (cmacL E)

/-- `K2 = dbl(K1)` (43_cmac.md R146). -/
def cmacK2 (E : Block → Block) : Block := dbl (cmacK1 E)

/-- The CBC-MAC chain over blocks, from the zero block (43_cmac.md R147). -/
def cbcMac (E : Block → Block) (bs : List Block) : Block := bs.foldl (fun x b => E (x ^^^ b)) 0

/-- The blocks of a CMAC message (43_cmac.md R148): the whole blocks before the last, and the last one, complete with K1
or padded with K2. -/
def cmacBlocks (k1 k2 : Block) (m : Bytes) : List Block :=
  let n := m.length
  if 0 < n ∧ n % 16 = 0 then
    blocksOf (m.take (n - 16)) ++ [blockOfBytes (m.drop (n - 16)) ^^^ k1]
  else
    let full := n / 16 * 16
    blocksOf (m.take full) ++ [blockOfBytes (m.drop full ++ [0x80] ++ zeros (15 - n % 16)) ^^^ k2]

/-- `CMAC_K(m)` (43_cmac.md R149). -/
def cmacTag (E : Block → Block) (m : Bytes) : Block := cbcMac E (cmacBlocks (cmacK1 E) (cmacK2 E) m)

/-- CMAC (43_cmac.md R150). -/
def execCmac (s : State) : Outcome :=
  s.checked .cmac <|
    let m := s.memRead s.latch.x.srcRegion
    (s.memWrite s.latch.x.macRegion.addr (bytesOfBlock (cmacTag (encryptBlock s.key) m))).complete .ok 0

/-- CMAC_VEC (43_cmac.md R153): CMAC of the concatenated segments. -/
def execCmacVec (s : State) : Outcome :=
  s.checked .cmacVec <|
    let m := s.segments.flatMap s.memRead
    (s.memWrite s.latch.x.macRegion.addr (bytesOfBlock (cmacTag (encryptBlock s.key) m))).complete .ok 0

end Sys2Proof.Machine
end

