-- ==== Sys2Proof/Machine/Ccm.lean ====
section
/-! DEFINITION. The CCM combiner, fixed profile L = 2, 13-byte nonce (44_ccm.md). -/

namespace Sys2Proof.Machine

/-- The flags byte of B0 (44_ccm.md R162). -/
def ccmFlags (tagLen aadLen : Nat) : Byte :=
  BitVec.ofNat 8 ((if 0 < aadLen then 0x40 else 0) + 8 * ((tagLen - 2) / 2) + 1)

/-- Block B0 (44_ccm.md R162). -/
def ccmB0 (nonce : Bytes) (tagLen aadLen dataLen : Nat) : Block :=
  blockOfBytes ([ccmFlags tagLen aadLen] ++ nonce ++ beBytes 2 dataLen)

/-- The AAD blocks (44_ccm.md R163). -/
def ccmAadBlocks (a : Bytes) : List Block :=
  if a.length = 0 then [] else blocksOf (pad16 (beBytes 2 a.length ++ a))

/-- The authentication value X over the plaintext `p` (44_ccm.md R164). -/
def ccmAuth (E : Block → Block) (nonce a p : Bytes) (tagLen : Nat) : Block :=
  cbcMac E ([ccmB0 nonce tagLen a.length p.length] ++ ccmAadBlocks a ++ blocksOf (pad16 p))

/-- Counter block A_i (44_ccm.md R165). -/
def ccmCounter (nonce : Bytes) (i : Nat) : Block := blockOfBytes ([0x01] ++ nonce ++ beBytes 2 i)

/-- The counter-mode transform (44_ccm.md R166). -/
def ccmCtr (E : Block → Block) (nonce d : Bytes) : Bytes :=
  xorBytes d ((List.range (blockCount d.length)).flatMap fun i => bytesOfBlock (E (ccmCounter nonce (i + 1))))

/-- The tag: the first `tagLen` bytes of X ⊕ E_K(A_0) (44_ccm.md R166). -/
def ccmTag (E : Block → Block) (nonce : Bytes) (x : Block) (tagLen : Nat) : Bytes :=
  (bytesOfBlock (x ^^^ E (ccmCounter nonce 0))).take tagLen

/-- CCM_ENC (44_ccm.md R167). -/
def execCcmEnc (s : State) : Outcome :=
  s.checked .ccmEnc <|
    let x := s.latch.x
    let E := encryptBlock s.key
    let nonce := s.memRead x.nonceRegion
    let p := s.memRead x.srcRegion
    let auth := ccmAuth E nonce (s.memRead x.aadRegion) p x.tagLen.toNat
    ((s.memWrite x.dstRegion.addr (ccmCtr E nonce p)).memWrite x.tagRegion.addr
      (ccmTag E nonce auth x.tagLen.toNat)).complete .ok 0

/-- CCM_DEC (44_ccm.md R168); on a mismatch the output region is unspecified (R169). -/
def execCcmDec (s : State) : Outcome :=
  s.checked .ccmDec <|
    let x := s.latch.x
    let E := encryptBlock s.key
    let nonce := s.memRead x.nonceRegion
    let p := ccmCtr E nonce (s.memRead x.srcRegion)
    let auth := ccmAuth E nonce (s.memRead x.aadRegion) p x.tagLen.toNat
    if ccmTag E nonce auth x.tagLen.toNat = s.memRead x.tagRegion then
      (s.memWrite x.dstRegion.addr p).complete .ok 0
    else (s.freeRegion x.dstRegion).complete .authMismatch 0

end Sys2Proof.Machine
end

