-- ==== Sys2Proof/Machine/Gcm.lean ====
section
/-! DEFINITION. The GCM counter-mode encryptor and the GHASH multiplier (45_gcm.md). -/

namespace Sys2Proof.Machine

/-- The reduction block `0xe1 · 2^120` (45_gcm.md R181). -/
def ghashPoly : Block := 0xe1000000000000000000000000000000

/-- Multiplication by α, the "double" step: a right shift with reduction (45_gcm.md R181). -/
def ghashDouble (v : Block) : Block := if v.getLsbD 0 then (v >>> 1) ^^^ ghashPoly else v >>> 1

/-- The last `n` rounds of the double-and-add loop, from accumulator `z` and multiple `v` (45_gcm.md R181): the round
with `n` rounds left looks at bit `n − 1` of `x`. -/
def gfmulLoop (x : Block) : (n : Nat) → (z v : Block) → Block
  | 0, z, _ => z
  | n + 1, z, v => gfmulLoop x n (if x.getLsbD n then z ^^^ v else z) (ghashDouble v)

/-- `gfmul(X, Y)`, the product in GF(2^128) (45_gcm.md R181). -/
def gfmul (x y : Block) : Block := gfmulLoop x 128 0 y

/-- GHASH over blocks (45_gcm.md R183). -/
def ghash (h : Block) (bs : List Block) : Block := bs.foldl (fun y b => gfmul (y ^^^ b) h) 0

/-- The hash subkey H (45_gcm.md R184). -/
def hashSubkey (E : Block → Block) : Block := E 0

/-- The length block of two byte lengths, as bit lengths (45_gcm.md R185). -/
def lenBlock (aadLen dataLen : Nat) : Bytes := beBytes 8 (8 * aadLen) ++ beBytes 8 (8 * dataLen)

/-- `inc32` (45_gcm.md R186): the low 32 bits plus one, modulo 2^32; the upper 96 bits stay. -/
def inc32 (cb : Block) : Block := cb.extractLsb' 32 96 ++ (cb.extractLsb' 0 32 + 1)

/-- `n` blocks of key stream from counter block `cb` (45_gcm.md R187). -/
def gctrStream (E : Block → Block) : (n : Nat) → (cb : Block) → Bytes
  | 0, _ => []
  | n + 1, cb => bytesOfBlock (E cb) ++ gctrStream E n (inc32 cb)

/-- GCTR (45_gcm.md R187). -/
def gctr (E : Block → Block) (icb : Block) (x : Bytes) : Bytes :=
  xorBytes x (gctrStream E (blockCount x.length) icb)

/-- The pre-counter block J0 (45_gcm.md R188). -/
def gcmJ0 (E : Block → Block) (iv : Bytes) : Block :=
  if iv.length = 12 then blockOfBytes (iv ++ [0, 0, 0, 1])
  else ghash (hashSubkey E) (blocksOf (pad16 iv ++ zeros 8 ++ beBytes 8 (8 * iv.length)))

/-- `S`, the GHASH of AAD and ciphertext with their lengths (45_gcm.md R189). -/
def gcmS (E : Block → Block) (a c : Bytes) : Block :=
  ghash (hashSubkey E) (blocksOf (pad16 a ++ pad16 c ++ lenBlock a.length c.length))

/-- The GCM tag, `t` bytes (45_gcm.md R189). -/
def gcmTag (E : Block → Block) (iv a c : Bytes) (t : Nat) : Bytes :=
  (gctr E (gcmJ0 E iv) (bytesOfBlock (gcmS E a c))).take t

/-- The data transform of GCM in both directions (45_gcm.md R190, R191). -/
def gcmCtr (E : Block → Block) (iv d : Bytes) : Bytes := gctr E (inc32 (gcmJ0 E iv)) d

/-- GCM_ENC (45_gcm.md R190). -/
def execGcmEnc (s : State) : Outcome :=
  s.checked .gcmEnc <|
    let x := s.latch.x
    let E := encryptBlock s.key
    let iv := s.memRead x.ivRegion
    let c := gcmCtr E iv (s.memRead x.srcRegion)
    ((s.memWrite x.dstRegion.addr c).memWrite x.tagRegion.addr
      (gcmTag E iv (s.memRead x.aadRegion) c x.tagLen.toNat)).complete .ok 0

/-- GCM_DEC (45_gcm.md R191); on a mismatch the output region is unspecified (R194). -/
def execGcmDec (s : State) : Outcome :=
  s.checked .gcmDec <|
    let x := s.latch.x
    let E := encryptBlock s.key
    let iv := s.memRead x.ivRegion
    let c := s.memRead x.srcRegion
    if gcmTag E iv (s.memRead x.aadRegion) c x.tagLen.toNat = s.memRead x.tagRegion then
      (s.memWrite x.dstRegion.addr (gcmCtr E iv c)).complete .ok 0
    else (s.freeRegion x.dstRegion).complete .tagMismatch 0

/-- GMAC (45_gcm.md R192): the tag over the AAD alone. -/
def execGmac (s : State) : Outcome :=
  s.checked .gmac <|
    let x := s.latch.x
    (s.memWrite x.tagRegion.addr
      (gcmTag (encryptBlock s.key) (s.memRead x.ivRegion) (s.memRead x.aadRegion) [] x.tagLen.toNat)).complete .ok 0

end Sys2Proof.Machine
end

