-- ==== Sys2Proof/Machine/Dispatch.lean ====
section
/-! DEFINITION. What the engine does with each decoded command: its checks, its execution and its completion
(60_exceptions.md R213–R215). -/

namespace Sys2Proof.Machine

/-- The engine's step for a decoded command (30_encoding.md R72). -/
def exec (i : Instr) (s : State) : Host.Outcome State Fault Refusal :=
  match i with
  | .blkInitEnc => Sys2Proof.Machine.execBlkInitEnc s
  | .blkInitDec => Sys2Proof.Machine.execBlkInitDec s
  | .blkEnc c => Sys2Proof.Machine.execBlkEnc c s
  | .blkDec c => Sys2Proof.Machine.execBlkDec c s
  | .blkDeinit c => Sys2Proof.Machine.execBlkDeinit c s
  | .cbcEnc => Sys2Proof.Machine.execCbcEnc s
  | .cbcDec => Sys2Proof.Machine.execCbcDec s
  | .cmac => Sys2Proof.Machine.execCmac s
  | .cmacVec => Sys2Proof.Machine.execCmacVec s
  | .ccmEnc => Sys2Proof.Machine.execCcmEnc s
  | .ccmDec => Sys2Proof.Machine.execCcmDec s
  | .gcmEnc => Sys2Proof.Machine.execGcmEnc s
  | .gcmDec => Sys2Proof.Machine.execGcmDec s
  | .gmac => Sys2Proof.Machine.execGmac s

end Sys2Proof.Machine
end

