-- ==== Sys2Proof/WellFormed.lean ====
section
/-! DEFINITION. Which commands a command word can hold. -/

namespace Sys2Proof

/-- A command is well formed when its slot index fits the 4-bit CTX field (30_encoding.md R70). Whether the slot exists
is the context check at execution, not a matter of form (R73). -/
def Instr.wf : Instr → Bool
  | .blkEnc ctx | .blkDec ctx | .blkDeinit ctx => decide (ctx < 16)
  | .blkInitEnc | .blkInitDec | .cbcEnc | .cbcDec | .cmac | .cmacVec => true
  | .ccmEnc | .ccmDec | .gcmEnc | .gcmDec | .gmac => true

end Sys2Proof
end

