-- ==== Sys2Proof/Decode.lean ====
section
/-! DEFINITION. Decoding a command word, total on all 32-bit words and rejecting by name, and encoding a command. -/

namespace Sys2Proof

/-- Why a command word is illegal (30_encoding.md R73, R74). -/
inductive DecodeError where
  /-- A nonzero RSV field, bits 31..12. -/
  | reservedBits
  /-- An OPC value that is not in the opcode map. -/
  | unknownOpcode
  /-- A nonzero CTX field in a format N command. -/
  | ctxInFormatN
  deriving DecidableEq, Repr

/-- The OPC field, bits 7..0 (30_encoding.md R70). -/
def opcOf (w : Word) : BitVec 8 := w.extractLsb' 0 8

/-- The CTX field, bits 11..8 (30_encoding.md R70). -/
def ctxOf (w : Word) : BitVec 4 := w.extractLsb' 8 4

/-- The RSV field, bits 31..12 (30_encoding.md R70). -/
def rsvOf (w : Word) : BitVec 20 := w.extractLsb' 12 20

/-- The opcode map (30_encoding.md R72): the command with this OPC, given its slot index; `none` where OPC is reserved. -/
def commandOf (opc : BitVec 8) (ctx : Nat) : Option Instr :=
  match opc.toNat with
  | 0x01 => some .blkInitEnc
  | 0x02 => some .blkInitDec
  | 0x03 => some (.blkEnc ctx)
  | 0x04 => some (.blkDec ctx)
  | 0x05 => some (.blkDeinit ctx)
  | 0x10 => some .cbcEnc
  | 0x11 => some .cbcDec
  | 0x20 => some .cmac
  | 0x21 => some .cmacVec
  | 0x30 => some .ccmEnc
  | 0x31 => some .ccmDec
  | 0x40 => some .gcmEnc
  | 0x41 => some .gcmDec
  | 0x42 => some .gmac
  | _ => none

/-- Decoding (30_encoding.md R73), its three tests in the rule's order. -/
def decode (w : Word) : Except DecodeError Instr :=
  if rsvOf w ≠ 0 then .error .reservedBits
  else match commandOf (opcOf w) (ctxOf w).toNat with
    | none => .error .unknownOpcode
    | some i => if i.format = .n ∧ ctxOf w ≠ 0 then .error .ctxInFormatN else .ok i

/-- The OPC value of each command (30_encoding.md R72). -/
def Instr.opc : Instr → BitVec 8
  | .blkInitEnc => 0x01
  | .blkInitDec => 0x02
  | .blkEnc _ => 0x03
  | .blkDec _ => 0x04
  | .blkDeinit _ => 0x05
  | .cbcEnc => 0x10
  | .cbcDec => 0x11
  | .cmac => 0x20
  | .cmacVec => 0x21
  | .ccmEnc => 0x30
  | .ccmDec => 0x31
  | .gcmEnc => 0x40
  | .gcmDec => 0x41
  | .gmac => 0x42

/-- The CTX field of each command: its slot index in format C, zero in format N (30_encoding.md R71). -/
def Instr.ctxField : Instr → BitVec 4
  | .blkEnc ctx | .blkDec ctx | .blkDeinit ctx => BitVec.ofNat 4 ctx
  | .blkInitEnc | .blkInitDec | .cbcEnc | .cbcDec | .cmac | .cmacVec => 0
  | .ccmEnc | .ccmDec | .gcmEnc | .gcmDec | .gmac => 0

/-- The command word of a well-formed command: RSV = 0, CTX, OPC (30_encoding.md R70, R71). -/
def encode (i : Instr) : Word := (0 : BitVec 20) ++ i.ctxField ++ i.opc

/-- The command read from the `nbits` low bits of `w`, the bits above them zero; every command word is one 32-bit
word (30_encoding.md R78). -/
def decodeTableWord (nbits w : Nat) : Option Instr :=
  match decode (BitVec.ofNat 32 (w % 2 ^ nbits)) with
  | .ok i => some i
  | .error _ => none

end Sys2Proof
end

