-- ==== Sys2Proof/Machine/Flags.lean ====
section
/-! DEFINITION. The status flags and the fixed and status registers as the words the host reads, the host's writes to
CTRL and STATUS, and the interrupt output. -/

namespace Sys2Proof.Machine

/-- A bit as a word. -/
def bitWord (b : Bool) : Word := if b then 1 else 0

/-- The value of each result code (60_exceptions.md R205). -/
def ResultCode.value : ResultCode → Word
  | .ok => 0
  | .invalidKeyLength => 1
  | .allocationFailure => 2
  | .parameterOutOfRange => 3
  | .authMismatch => 4
  | .tagMismatch => 5
  | .illegalCommand => 6
  | .addressError => 7
  | .contextError => 8

/-- The ID register (10_state.md R22). -/
def idWord : Word := 0x41455347

/-- The CONFIG register (10_state.md R23): NUM_CTX + (BUF_SIZE/16)·2^8. -/
def State.configWord (s : State) : Word := BitVec.ofNat 32 (s.cfg.numCtx + s.cfg.bufSize / 16 * 2 ^ 8)

/-- The CTRL register (10_state.md R24); SRST reads 0. -/
def State.ctrlWord (s : State) : Word := bitWord s.irqEn

/-- STATUS.BUSY (10_state.md R25, R33). -/
def State.isBusy (s : State) : Bool := s.phase == .busy

/-- The STATUS register (10_state.md R25): BUSY, DONE, OVERRUN. -/
def State.statusWord (s : State) : Word := bitWord s.isBusy ||| bitWord s.done <<< 1 ||| bitWord s.overrun <<< 2

/-- The RESULT register (10_state.md R26, 60_exceptions.md R215): zext(code) + zext(ctx)·2^8. -/
def State.resultWord (s : State) : Word := s.result.code.value ||| s.result.ctx.setWidth 32 <<< 8

/-- The interrupt output (10_state.md R38, 60_exceptions.md R218). -/
def State.irq (s : State) : Bool := s.done && s.irqEn

/-- A host write to STATUS (10_state.md R25): a 1 in bit 1 clears DONE, a 1 in bit 2 clears OVERRUN; nothing else. -/
def State.writeStatus (s : State) (v : Word) : State :=
  { s with done := s.done && !v.getLsbD 1, overrun := s.overrun && !v.getLsbD 2 }

/-- A host write to CTRL without SRST (10_state.md R24): IRQ_EN ← bit 0. -/
def State.writeIrqEn (s : State) (v : Word) : State := { s with irqEn := v.getLsbD 0 }

end Sys2Proof.Machine
end

