-- ==== Sys2Proof/Machine/HostPort.lean ====
section
/-! DEFINITION. The host port: the register map, the BUF window, command writes, soft reset, and the races of BUF accesses
with a running command (10_state.md R21–R29; 20_memory.md R51–R63; 70_reset_and_hazards.md R231). -/

namespace Sys2Proof.Machine

/-- The parameter register at a CSR offset (10_state.md R21). -/
def paramAt : Nat → Option ParamReg
  | 0x020 => some .keyAddr
  | 0x024 => some .keyLen
  | 0x028 => some .ivAddr
  | 0x02C => some .ivLen
  | 0x030 => some .srcAddr
  | 0x034 => some .dstAddr
  | 0x038 => some .dataLen
  | 0x03C => some .aadAddr
  | 0x040 => some .aadLen
  | 0x044 => some .tagAddr
  | 0x048 => some .tagLen
  | 0x04C => some .segAddr
  | 0x050 => some .segCount
  | _ => none

/-- The value of the CSR at an offset (10_state.md R21); CMD and the reserved offsets read 0 (R27, R29). -/
def State.readCsr (s : State) (off : Nat) : Word :=
  match off with
  | 0x000 => idWord
  | 0x004 => s.configWord
  | 0x008 => s.ctrlWord
  | 0x00C => s.statusWord
  | 0x010 => s.resultWord
  | _ =>
    match paramAt off with
    | some r => s.params.get r
    | none => 0

/-- The regions of the running command, none if no command runs or its word is illegal (30_encoding.md R76,
60_exceptions.md R206). -/
def State.runningRegions (s : State) : List Region :=
  match s.phase, decode s.latch.lcmd with
  | .busy, .ok i => s.regions i
  | _, _ => []

/-- The output regions of the running command (70_reset_and_hazards.md R231). -/
def State.runningOutputs (s : State) : List Region :=
  match s.phase, decode s.latch.lcmd with
  | .busy, .ok i => s.latch.x.outputs i
  | _, _ => []

/-- Soft reset (70_reset_and_hazards.md R231): an aborted command's outputs become unspecified, everything but BUF goes to
its reset value. -/
def State.softReset (s : State) : State := (s.freeRegions s.runningOutputs).clearAll

/-- A host write to CMD (10_state.md R27): accepted when IDLE, discarded with OVERRUN ← 1 when BUSY. -/
def State.writeCmd (s : State) (w : Word) : State :=
  match s.phase with
  | .idle => s.accept w
  | .busy => { s with overrun := true }

/-- A host write to the CSR at an offset (10_state.md R21–R29); read-only and reserved offsets ignore it. -/
def State.writeCsr (s : State) (off : Nat) (v : Word) : State :=
  match off with
  | 0x008 => if v.getLsbD 1 then s.softReset else s.writeIrqEn v
  | 0x00C => s.writeStatus v
  | 0x014 => s.writeCmd v
  | _ =>
    match paramAt off with
    | some r => { s with params := s.params.set v r }
    | none => s

/-- An address is raced: it lies in a region of the running command (20_memory.md R63). -/
def State.isRaced (s : State) (a : Nat) : Bool := s.runningRegions.any fun r => r.has a

/-- Some byte of an access of `w` bytes at BUF address `a` is raced (20_memory.md R63). -/
def State.anyRaced (s : State) (w a : Nat) : Bool := (List.range w).any fun i => s.isRaced (a + i)

/-- The bytes a host access of `w` bytes at BUF address `a` moves, `own i` being byte `i` of it: a raced byte is a fresh
free byte instead (20_memory.md R63; log entry 8). -/
def State.racedBytes (s : State) (w a : Nat) (own : Nat → Byte) : Bytes :=
  (List.range w).map fun i => if s.isRaced (a + i) then Config.freeByte (s.draws + i) else own i

/-- The draws an access uses: `w` of them if any of its bytes is raced. -/
def State.useDraws (s : State) (w a : Nat) : State := if s.anyRaced w a then { s with draws := s.draws + w } else s

/-- Put a response on the host port (20_memory.md R55, R56; 60_exceptions.md R219; log entry 6). -/
def State.respond (s : State) (error : Bool) (data : Word) : State := { s with bus := some ⟨error, data⟩ }

/-- A host read of `w` bytes of BUF at `a`: little-endian, without effect on BUF (20_memory.md R56, R60, R63). -/
def State.readBuf (s : State) (w a : Nat) : State :=
  let data := leNat (s.racedBytes w a fun i => s.bufByte (a + i))
  (s.useDraws w a).respond false (BitVec.ofNat 32 data)

/-- A host write of `w` bytes of BUF at `a`: little-endian (20_memory.md R56); a raced byte becomes free and taints the
running command (R63). -/
def State.writeBuf (s : State) (w a : Nat) (v : Word) : State :=
  let bs := s.racedBytes w a fun i => v.extractLsb' (8 * i) 8
  let raced := s.latch.raced || s.anyRaced w a
  let s' := (s.useDraws w a).memWrite a bs
  { s' with latch := { s'.latch with raced := raced } }.respond false 0

/-- Where a host port offset leads (20_memory.md R51). -/
inductive PortTarget where
  | csr (off : Nat)
  | buf (a : Nat)
  | unmapped
  deriving DecidableEq, Repr

/-- The map of the host port (20_memory.md R51), by the offset an access starts at (log entry 11). -/
def State.portTarget (s : State) (off : Nat) : PortTarget :=
  if off < 0x100 then .csr off
  else if 0x10000 ≤ off ∧ off < 0x10000 + s.cfg.bufSize then .buf (off - 0x10000)
  else .unmapped

/-- A CSR access has the one legal form: 32 bits wide, 4-aligned (20_memory.md R55). -/
def csrAccessOk (w off : Nat) : Bool := w == 4 && off % 4 == 0

/-- A BUF access is 1, 2 or 4 bytes wide and naturally aligned (20_memory.md R56, decision D6). -/
def bufAccessOk (w a : Nat) : Bool := (w == 1 || w == 2 || w == 4) && a % w == 0

/-- One host read (20_memory.md R51, R55, R56). -/
def State.hostRead (s : State) (w : Nat) (off : Word) : State :=
  match s.portTarget off.toNat with
  | .csr o => if csrAccessOk w o then s.respond false (s.readCsr o) else s.respond true 0
  | .buf a => if bufAccessOk w a then s.readBuf w a else s.respond true 0
  | .unmapped => s.respond false 0

/-- One host write (20_memory.md R51, R55, R56). -/
def State.hostWrite (s : State) (w : Nat) (off v : Word) : State :=
  match s.portTarget off.toNat with
  | .csr o => if csrAccessOk w o then (s.writeCsr o v).respond false 0 else s.respond true 0
  | .buf a => if bufAccessOk w a then s.writeBuf w a v else s.respond true 0
  | .unmapped => s.respond false 0

/-- One host access (20_memory.md R61). -/
def State.hostAccess (s : State) : HostAccess → State
  | .read w off => s.hostRead w off
  | .write w off v => s.hostWrite w off v

end Sys2Proof.Machine
end

