-- ==== Sys2Proof/Machine/Engine.lean ====
section
/-! DEFINITION. The engine's turn: run and complete the latched command (00_scope.md R16, 60_exceptions.md R206–R215), and
what a race with the host leaves behind (20_memory.md R63). -/

namespace Sys2Proof.Machine

/-- The result code of a raced command that completed with `k` (20_memory.md R63): where verification decided it, the free
choice decides instead; a code that does not depend on data stays. -/
def racedCode (k : ResultCode) (free : Bool) : Instr → ResultCode
  | .ccmDec => if k = .ok ∨ k = .authMismatch then (if free then .ok else .authMismatch) else k
  | .gcmDec => if k = .ok ∨ k = .tagMismatch then (if free then .ok else .tagMismatch) else k
  | .blkInitEnc | .blkInitDec | .blkEnc _ | .blkDec _ | .blkDeinit _ => k
  | .cbcEnc | .cbcDec | .cmac | .cmacVec | .ccmEnc | .gcmEnc | .gmac => k

/-- The round keys RK[0..NR] of slot `c` become free; RK[NR+1..14] stay zero. -/
def State.freeSlotKeys (s : State) (c : Nat) : State :=
  let n := (s.slot c).nr + 1
  let key := fun j => blockOfFn fun i => Config.freeByte (s.draws + 16 * j + i)
  { s.setSlot c { s.slot c with rk := (List.range n).map key ++ List.replicate (15 - n) 0 } with
    draws := s.draws + 16 * n }

/-- What a race leaves of the slot a command wrote (20_memory.md R63): a slot that BLK_INIT_ENC or BLK_INIT_DEC allocated
holds free round keys. -/
def State.raceSlot (t : State) : Instr → State
  | .blkInitEnc | .blkInitDec => if t.result.code = .ok then t.freeSlotKeys t.result.ctx.toNat else t
  | .blkEnc _ | .blkDec _ | .blkDeinit _ | .cbcEnc | .cbcDec | .cmac | .cmacVec => t
  | .ccmEnc | .ccmDec | .gcmEnc | .gcmDec | .gmac => t

/-- What a race leaves of a completed command `i` with snapshot `x` (20_memory.md R63; log entry 8): every byte of its
output regions is free, the round keys of a slot it allocated are free, and so is its result code where that depends on
data. -/
def State.afterRace (t : State) (i : Instr) (x : Params) : State :=
  let t' := (t.freeRegions (x.outputs i)).raceSlot i
  { t' with
    result := { t'.result with code := racedCode t'.result.code (Config.freeChoice t'.draws) i }
    draws := t'.draws + 1 }

/-- The engine's step for a decoded command: `exec`, and the race's trace where the host raced it. -/
def State.runCommand (s : State) (i : Instr) : Outcome :=
  match exec i s with
  | .next t => .next (if s.latch.raced then t.afterRace i s.latch.x else t)
  | .fault r => .fault r
  | .refused r => .refused r

/-- The engine's turn: nothing when IDLE (60_exceptions.md R229); when BUSY, the latched command, an illegal word
completing with ILLEGAL_COMMAND and no other effect (R206). -/
def State.engineTurn (s : State) : Outcome :=
  match s.phase with
  | .idle => .next s
  | .busy =>
    match decode s.latch.lcmd with
    | .ok i => s.runCommand i
    | .error _ => .next (s.complete .illegalCommand 0)

/-- One event (00_scope.md R16, 70_reset_and_hazards.md R230). -/
def State.happen (s : State) : Event → Outcome
  | .host a => .next (s.hostAccess a)
  | .engine => s.engineTurn
  | .hardReset => .next s.hardReset

/-- One step: the next event of the agenda; with none listed, the engine's turn (70_reset_and_hazards.md R244, R245; log
entry 5). -/
def State.advance (s : State) : Outcome :=
  match s.agenda with
  | [] => s.engineTurn
  | e :: es => { s with agenda := es }.happen e

/-- The command word `w` accepted, with the engine's turn next (10_state.md R33; log entry 7). -/
def State.withCommand (s : State) (w : Word) : State := { s with agenda := .engine :: s.agenda }.accept w

end Sys2Proof.Machine
end

