-- ==== Sys2Proof/Machine/Step.lean ====
section
/-! DEFINITION. One step of the block, and placing a command so that the next step runs it. -/

namespace Sys2Proof.Machine

/-- One step of the block (`State.advance`). -/
def step (s : State) : Host.Outcome State Fault Refusal := s.advance

/-- The block accepts its program one command at a time, through CMD (10_state.md R34): the command word made of the
`nbits` low bits of `w` is accepted, and the engine moves next (log entry 7). -/
def State.withFetchWord (s : State) (nbits w : Nat) : State := s.withCommand (BitVec.ofNat 32 (w % 2 ^ nbits))

end Sys2Proof.Machine
end

