-- ==== Sys2Proof/Machine/HostNotation.lean ====
section
/-! DEFINITION. The host notation: each statement of a host program as the host accesses it stands for
(30_encoding.md R80, R81). -/

namespace Sys2Proof.Machine

/-- The register names of a statement (10_state.md R21). -/
inductive CsrName where
  | id
  | config
  | ctrl
  | status
  | result
  | cmd
  | param (r : ParamReg)
  deriving DecidableEq, Repr

/-- The offset of a parameter register (10_state.md R21). -/
def ParamReg.offset : ParamReg → Word
  | .keyAddr => 0x020
  | .keyLen => 0x024
  | .ivAddr => 0x028
  | .ivLen => 0x02C
  | .srcAddr => 0x030
  | .dstAddr => 0x034
  | .dataLen => 0x038
  | .aadAddr => 0x03C
  | .aadLen => 0x040
  | .tagAddr => 0x044
  | .tagLen => 0x048
  | .segAddr => 0x04C
  | .segCount => 0x050

/-- The offset of a register name, `off(NAME)` (10_state.md R21). -/
def CsrName.offset : CsrName → Word
  | .id => 0x000
  | .config => 0x004
  | .ctrl => 0x008
  | .status => 0x00C
  | .result => 0x010
  | .cmd => 0x014
  | .param r => r.offset

/-- The statements and pseudo-statements (30_encoding.md R80, R81). -/
inductive HostStmt where
  | csrw (name : CsrName) (v : Word)
  | csrr (name : CsrName)
  | bufw (a : Nat) (bs : Bytes)
  | bufr (a n : Nat)
  | cmd (i : Instr)
  | wait
  | ack
  | key (a n : Word)
  | src (a : Word)
  | dst (a : Word)
  | tag (a n : Word)
  | iv (a n : Word)
  | aad (a n : Word)
  | len (n : Word)
  | seg (a k : Word)
  deriving DecidableEq, Repr

/-- A `csrw` of a parameter register. -/
def paramWrite (r : ParamReg) (v : Word) : HostAccess := .write 4 r.offset v

/-- The host offset of BUF address `a` (20_memory.md R51). -/
def bufOffset (a : Nat) : Word := BitVec.ofNat 32 (0x10000 + a)

/-- The host accesses a statement stands for (30_encoding.md R80, R81). `wait` is one round of its loop, repeated as
`waitAgain` says. -/
def HostStmt.accesses : HostStmt → List HostAccess
  | .csrw r v => [.write 4 r.offset v]
  | .csrr r => [.read 4 r.offset]
  | .bufw a bs => bs.mapIdx fun i b => .write 1 (bufOffset (a + i)) (b.setWidth 32)
  | .bufr a n => (List.range n).map fun i => .read 1 (bufOffset (a + i))
  | .cmd i => [.write 4 (CsrName.offset .cmd) (encode i)]
  | .wait => [.read 4 (CsrName.offset .status)]
  | .ack => [.write 4 (CsrName.offset .status) 0x2]
  | .key a n => [paramWrite .keyAddr a, paramWrite .keyLen n]
  | .src a => [paramWrite .srcAddr a]
  | .dst a => [paramWrite .dstAddr a]
  | .tag a n => [paramWrite .tagAddr a, paramWrite .tagLen n]
  | .iv a n => [paramWrite .ivAddr a, paramWrite .ivLen n]
  | .aad a n => [paramWrite .aadAddr a, paramWrite .aadLen n]
  | .len n => [paramWrite .dataLen n]
  | .seg a k => [paramWrite .segAddr a, paramWrite .segCount k]

/-- The loop of `wait` goes on: the STATUS read has bit 1, DONE, at 0 (30_encoding.md R81). -/
def waitAgain (r : BusResponse) : Bool := !r.data.getLsbD 1

/-- The encoding of a program: its list of host accesses, each `wait` one read (30_encoding.md R80). -/
def programAccesses (p : List HostStmt) : List HostAccess := p.flatMap HostStmt.accesses

end Sys2Proof.Machine
end

