-- ==== Sys2Proof/Safety.lean ====
section
/-! DEFINITION. The vocabulary of the claims: what a legal state is, what a completion leaves, what a command needs to
execute, and what a safe run is. Written as propositions from the rules, apart from the machine's own checks. -/

namespace Sys2Proof.Machine

/-- `KeyLengthOk` (40_aes_core.md R99). -/
abbrev KeyLengthLegal (n : Nat) : Prop := n = 16 ∨ n = 24 ∨ n = 32

/-- A region is in bounds (20_memory.md R58). -/
abbrev Region.Fits (r : Region) (s : State) : Prop := r.len = 0 ∨ r.addr + r.len ≤ s.cfg.bufSize

/-- Two regions overlap (20_memory.md R59). -/
abbrev Region.Meets (r q : Region) : Prop := 0 < r.len ∧ 0 < q.len ∧ r.addr < q.addr + q.len ∧ q.addr < r.addr + r.len

/-- An address lies in a region (20_memory.md R58). -/
abbrev Region.Holds (r : Region) (a : Nat) : Prop := r.addr ≤ a ∧ a < r.addr + r.len

/-- `RegionsOk(inputs, outputs, primary)` (60_exceptions.md R210), `others` being the inputs other than the primary. -/
abbrev RegionsLegal (others : List Region) (primary : Option Region) (outputs : List Region) : Prop :=
  (∀ o ∈ outputs, (∀ p ∈ primary.toList, o = p ∨ ¬ o.Meets p) ∧ ∀ i ∈ others, ¬ o.Meets i)
    ∧ outputs.Pairwise fun o q => ¬ o.Meets q

/-- The context check passes (60_exceptions.md R207). -/
abbrev State.ContextLegal (s : State) : Instr → Prop
  | .blkEnc c => c < s.cfg.numCtx ∧ (s.slot c).valid = true ∧ (s.slot c).dir = .enc
  | .blkDec c => c < s.cfg.numCtx ∧ (s.slot c).valid = true ∧ (s.slot c).dir = .dec
  | .blkDeinit c => c < s.cfg.numCtx ∧ (s.slot c).valid = true
  | .blkInitEnc | .blkInitDec | .cbcEnc | .cbcDec | .cmac | .cmacVec => True
  | .ccmEnc | .ccmDec | .gcmEnc | .gcmDec | .gmac => True

/-- The key-length check passes (60_exceptions.md R208). -/
abbrev Params.KeyLegal (x : Params) : Instr → Prop
  | .blkEnc _ | .blkDec _ | .blkDeinit _ => True
  | .blkInitEnc | .blkInitDec | .cbcEnc | .cbcDec | .cmac | .cmacVec => KeyLengthLegal x.keyLen.toNat
  | .ccmEnc | .ccmDec | .gcmEnc | .gcmDec | .gmac => KeyLengthLegal x.keyLen.toNat

/-- The scalar-parameter check passes (60_exceptions.md R212). -/
abbrev Params.ScalarsLegal (x : Params) : Instr → Prop
  | .cbcEnc | .cbcDec => x.dataLen.toNat % 16 = 0
  | .ccmEnc | .ccmDec =>
    (4 ≤ x.tagLen.toNat ∧ x.tagLen.toNat ≤ 16 ∧ x.tagLen.toNat % 2 = 0)
      ∧ x.aadLen.toNat ≤ 30 ∧ x.dataLen.toNat ≤ 65535
  | .gcmEnc | .gcmDec | .gmac => 4 ≤ x.tagLen.toNat ∧ x.tagLen.toNat ≤ 16
  | .blkInitEnc | .blkInitDec | .blkEnc _ | .blkDec _ | .blkDeinit _ | .cmac | .cmacVec => True

/-- The bounds check passes (60_exceptions.md R209): every region of the command is in bounds. -/
abbrev State.BoundsLegal (s : State) (i : Instr) : Prop := ∀ r ∈ s.regions i, r.Fits s

/-- The overlap check passes (60_exceptions.md R210). -/
abbrev State.OverlapLegal (s : State) (i : Instr) : Prop :=
  RegionsLegal (s.otherInputs i) (s.latch.x.primary i) (s.latch.x.outputs i)

/-- The allocation check passes (60_exceptions.md R211). -/
abbrev State.AllocLegal (s : State) : Instr → Prop
  | .blkInitEnc | .blkInitDec => ∃ c < s.cfg.numCtx, (s.slot c).valid = false
  | .blkEnc _ | .blkDec _ | .blkDeinit _ | .cbcEnc | .cbcDec | .cmac | .cmacVec => True
  | .ccmEnc | .ccmDec | .gcmEnc | .gcmDec | .gmac => True

/-- A decoded command passes every check, so that it executes (60_exceptions.md R213, R214). -/
abbrev State.Ready (s : State) (i : Instr) : Prop :=
  s.ContextLegal i ∧ s.latch.x.KeyLegal i ∧ s.latch.x.ScalarsLegal i ∧ s.BoundsLegal i ∧ s.OverlapLegal i ∧ s.AllocLegal i

/-- A slot is legal (10_state.md R30, R31, R32): fifteen round keys; free means all zero; valid means 10, 12 or 14 rounds,
with the round keys past NR zero. -/
abbrev Slot.Legal (sl : Slot) : Prop :=
  sl.rk.length = 15 ∧
    if sl.valid then (sl.nr = 10 ∨ sl.nr = 12 ∨ sl.nr = 14) ∧ ∀ b ∈ sl.rk.drop (sl.nr + 1), b = 0
    else sl = Slot.free

/-- A memory is legal: canonical, and within BUF (20_memory.md R50). -/
abbrev Memory.Legal (m : Memory) (bufSize : Nat) : Prop := Memory.wf m ∧ ∀ c ∈ m, c.1 < bufSize

/-- The invariant of the block: a legal configuration (00_scope.md R8); NUM_CTX legal slots (10_state.md R30); BUF and its
snapshot canonical and in range (20_memory.md R50); BUSY and DONE never both 1 (10_state.md R25); when IDLE the latch and
the transient state are zero (10_state.md R35, 60_exceptions.md R215); RESULT.CTX an existing slot, and 0 unless the code
is OK (10_state.md R26, 60_exceptions.md R205). -/
structure State.Inv (s : State) : Prop where
  cfg : s.cfg.Legal
  slotCount : s.slots.length = s.cfg.numCtx
  slots : ∀ sl ∈ s.slots, sl.Legal
  buf : Memory.Legal s.buf s.cfg.bufSize
  snapBuf : Memory.Legal s.latch.buf s.cfg.bufSize
  busyNotDone : s.phase = .busy → s.done = false
  idleLatch : s.phase = .idle → s.latch = Latch.empty
  idleTransient : s.phase = .idle → s.transient = Transient.zero
  resultCtx : s.result.ctx.toNat < s.cfg.numCtx
  failureCtx : s.result.code ≠ .ok → s.result.ctx = 0

/-- `t` is `s` after a completion with code `k` and slot index `c` (60_exceptions.md R215): the completion record, and
everything but BUF, the slots and the free draws as before. -/
structure Completed (s t : State) (k : ResultCode) (c : Nat) : Prop where
  result : t.result = ⟨k, BitVec.ofNat 4 c⟩
  phase : t.phase = .idle
  done : t.done = true
  latch : t.latch = Latch.empty
  transient : t.transient = Transient.zero
  cfg : t.cfg = s.cfg
  irqEn : t.irqEn = s.irqEn
  overrun : t.overrun = s.overrun
  params : t.params = s.params
  epoch : t.epoch = s.epoch
  bus : t.bus = s.bus
  agenda : t.agenda = s.agenda

/-- The bytes of a region of BUF. -/
def State.bufBytes (t : State) (r : Region) : Bytes := (List.range r.len).map fun i => t.bufByte (r.addr + i)

/-- The block BUF holds at an address. -/
def State.bufBlock (t : State) (a : Nat) : Block := blockOfFn fun j => t.bufByte (a + j)

/-- The block BUF held at an address when the running command was accepted (20_memory.md R62). -/
def State.snapBlock (s : State) (a : Nat) : Block := blockOfFn fun j => s.snapByte (a + j)

/-- BUF holds the byte string `bs` at address `a`. -/
abbrev State.BufHas (t : State) (a : Nat) (bs : Bytes) : Prop := ∀ j, (h : j < bs.length) → t.bufByte (a + j) = bs[j]

/-- Every byte of BUF outside the regions `rs` is in `t` what it was in `s`. -/
abbrev BufKeptOutside (s t : State) (rs : List Region) : Prop :=
  ∀ a, (∀ r ∈ rs, ¬ r.Holds a) → t.bufByte a = s.bufByte a

/-- Every byte of region `r` that BUF has is in `t` some free byte, which one not being said. -/
abbrev State.BufFree (t : State) (r : Region) : Prop :=
  ∀ a, r.Holds a → a < t.cfg.bufSize → ∃ n, t.bufByte a = Config.freeByte n

/-- The state right after a hardware reset (10_state.md R39, 70_reset_and_hazards.md R230), in a legal configuration; the
number of the reset, the number of the next draw and the events to come are the model's own and open. -/
abbrev State.AfterHardwareReset (s : State) : Prop :=
  s.cfg.Legal ∧ s = { State.resetOf s.cfg with epoch := s.epoch, draws := s.draws, agenda := s.agenda }

/-- A host access that prepares a command (70_reset_and_hazards.md R233, steps 1 to 3): a read, or a write of a parameter
register or in the BUF window. Parameter registers that the command does not read may hold anything (R233, step 3).
DESIGN CHOICE (log entry 15): so may BUF bytes that it does not read, and the host may have made reads; R248 names only
what the command reads. -/
abbrev HostAccess.Prepares : HostAccess → Prop
  | .read _ _ => True
  | .write w off _ => (w = 4 ∧ ∃ r : ParamReg, off = r.offset) ∨ 0x10000 ≤ off.toNat

/-- What the first command of a run, word `w`, reads has been written by the accesses `as`: every parameter register it
reads, and every BUF byte of its input regions (70_reset_and_hazards.md R233, R248). An illegal word reads nothing.
DESIGN CHOICE (log entry 15): a legal word counts as reading all that its row of 30_encoding.md R76 names even where it
will fail a check, although its bytes are read only after the checks have passed (R77). -/
abbrev State.PreparedFor (s : State) (as : List HostAccess) (w : Word) : Prop :=
  ∀ i, decode w = .ok i →
    (∀ r ∈ paramsRead i, ∃ v, HostAccess.write 4 r.offset v ∈ as)
      ∧ ∀ r ∈ (s.accept w).inputs i, ∀ a, r.Holds a → a < s.cfg.bufSize → ∃ v, Memory.byte? s.buf a = some v

/-- The clean launch state of a run whose first command word is `w` (70_reset_and_hazards.md R248): the state right after
hardware reset, with the host having written what that command reads; IDLE, STATUS 0, no slot valid, IRQ_EN 0, no command
in flight. The last five follow from the first (`State.CleanLaunch.of_reset`). -/
structure State.CleanLaunch (s : State) (w : Word) : Prop where
  afterReset : ∃ (b : State) (as : List HostAccess), b.AfterHardwareReset ∧ (∀ a ∈ as, a.Prepares)
    ∧ s = as.foldl State.hostAccess b ∧ s.PreparedFor as w
  phase : s.phase = .idle
  status : s.statusWord = 0
  slots : ∀ c, (s.slot c).valid = false
  irqEn : s.irqEn = false
  latch : s.latch = Latch.empty

/-- A run has ended (70_reset_and_hazards.md R246): the host has performed its last access and the engine is IDLE. -/
abbrev State.RunEnded (s : State) : Prop := s.phase = .idle ∧ ∀ e ∈ s.agenda, ∀ a, e ≠ .host a

/-- The round keys of a slot are free: every byte of RK[0..NR] is some free byte, which one not being said, and
RK[NR+1..14] are zero. -/
abbrev Slot.KeysFree (sl : Slot) : Prop :=
  sl.rk.length = 15
    ∧ (∀ r ≤ sl.nr, ∀ j < 16, ∃ n, blockByte (sl.rk.getD r 0) j = Config.freeByte n)
    ∧ ∀ r, sl.nr < r → sl.rk.getD r 0 = 0

/-- A step is safe when it answers a next state: the block has no trap (60_exceptions.md R220). -/
abbrev SafeStep (s : State) : Prop := ∃ t, step s = .next t

end Sys2Proof.Machine
end

