-- ==== Sys2Proof/Certificates/Slice0/Obligations.lean ====
section
/-! DEFINITION. The statements for the provers, each from a numbered rule of spec/. -/

open Sys2Proof Sys2Proof.Machine

/-! ### Encoding and decoding -/

/-- 30_encoding.md R70–R73: decoding reads exactly the words that encoding a well-formed command gives. -/
def Obligations.DecodeAndEncodeAgree : Prop :=
  ∀ (w : Word) (i : Instr), decode w = .ok i ↔ i.wf = true ∧ encode i = w

/-- 30_encoding.md R73: which words are legal. -/
def Obligations.LegalWordsAreThoseOfTheRule : Prop :=
  ∀ w : Word, (∃ i, decode w = .ok i) ↔
    w.toNat / 2 ^ 12 = 0
      ∧ w.toNat % 256 ∈ [0x01, 0x02, 0x03, 0x04, 0x05, 0x10, 0x11, 0x20, 0x21, 0x30, 0x31, 0x40, 0x41, 0x42]
      ∧ (w.toNat / 2 ^ 8 % 16 = 0 ∨ w.toNat % 256 ∈ [0x03, 0x04, 0x05])

/-- 30_encoding.md R72: some command words, written out. -/
def Obligations.CommandWordsDecode : Prop :=
  decode 0x00000001 = .ok .blkInitEnc ∧ decode 0x00000104 = .ok (.blkDec 1) ∧ decode 0x00000F05 = .ok (.blkDeinit 15)
    ∧ decode 0x00000010 = .ok .cbcEnc ∧ decode 0x00000021 = .ok .cmacVec ∧ decode 0x00000031 = .ok .ccmDec
    ∧ decode 0x00000042 = .ok .gmac

/-! ### The engine's step -/

/-- 00_scope.md R16, 60_exceptions.md R214, R229: on the engine's turn a busy engine runs the command its latch decodes to
(a race, if the host made one, leaving its trace, log entry 8), and an idle engine does nothing; at a host event step is
that one access (20_memory.md R61). That an empty agenda is an engine turn is the model's choice (log entry 5). -/
def Obligations.StepRunsTheDecodedCommand : Prop :=
  (∀ (s : State) (rest : List Event),
    (s.agenda = .engine :: rest ∨ (s.agenda = [] ∧ rest = [])) →
      (∀ i, s.phase = .busy → decode s.latch.lcmd = .ok i →
        (s.latch.raced = false → step s = exec i { s with agenda := rest })
          ∧ (s.latch.raced = true → ∀ t, exec i { s with agenda := rest } = .next t →
              step s = .next (t.afterRace i s.latch.x)))
        ∧ (s.phase = .idle → step s = .next { s with agenda := rest }))
    ∧ (∀ (s : State) (rest : List Event) (a : HostAccess), s.agenda = .host a :: rest →
        step s = .next ({ s with agenda := rest }.hostAccess a))
    ∧ ∀ (s : State) (w : Nat) (off v : Word),
        s.hostAccess (.read w off) = s.hostRead w off ∧ s.hostAccess (.write w off v) = s.hostWrite w off v

/-- 60_exceptions.md R206: on the engine's turn an illegal word completes with ILLEGAL_COMMAND and changes nothing else. That
an empty agenda is an engine turn is the model's choice (log entry 5). -/
def Obligations.IllegalWordCompletesWithIllegalCommand : Prop :=
  ∀ (s : State) (rest : List Event), (s.agenda = .engine :: rest ∨ (s.agenda = [] ∧ rest = [])) → s.phase = .busy →
    (∀ i, decode s.latch.lcmd ≠ .ok i) →
      ∃ t, step s = .next t ∧ Completed { s with agenda := rest } t .illegalCommand 0
        ∧ t.slots = s.slots ∧ t.buf = s.buf ∧ t.draws = s.draws

/-- 60_exceptions.md R220, 10_state.md R23: every step answers a next state, in the same configuration. -/
def Obligations.EveryStepAnswersInTheSameConfiguration : Prop :=
  ∀ s : State, ∃ t, step s = .next t ∧ t.cfg = s.cfg

/-- 60_exceptions.md R215: every command, in every state, ends in one completion; RESULT.CTX is 0 unless it is a successful
BLK_INIT_ENC or BLK_INIT_DEC; the flags, registers and the latch are left as the completion record says. -/
def Obligations.EveryCommandEndsInACompletion : Prop :=
  ∀ (i : Instr) (s : State), ∃ t k c, exec i s = .next t ∧ Completed s t k c
    ∧ (c ≠ 0 → k = .ok ∧ (i = .blkInitEnc ∨ i = .blkInitDec))

/-- 60_exceptions.md R216: a command that fails a check changes nothing but the completion record. -/
def Obligations.FailedCheckChangesNothing : Prop :=
  ∀ (i : Instr) (s : State), ¬ s.Ready i →
    ∃ t k, exec i s = .next t ∧ k ≠ .ok ∧ Completed s t k 0 ∧ t.slots = s.slots ∧ t.buf = s.buf ∧ t.draws = s.draws

/-- 60_exceptions.md R213: the first failing check, in the rule's order, gives the code. -/
def Obligations.FirstFailingCheckGivesTheCode : Prop :=
  ∀ (i : Instr) (s : State), ∃ t, exec i s = .next t
    ∧ (¬ s.ContextLegal i → t.result = ⟨.contextError, 0⟩)
    ∧ (s.ContextLegal i → ¬ s.latch.x.KeyLegal i → t.result = ⟨.invalidKeyLength, 0⟩)
    ∧ (s.ContextLegal i → s.latch.x.KeyLegal i → ¬ s.latch.x.ScalarsLegal i → t.result = ⟨.parameterOutOfRange, 0⟩)
    ∧ (s.ContextLegal i → s.latch.x.KeyLegal i → s.latch.x.ScalarsLegal i → ¬ s.BoundsLegal i →
        t.result = ⟨.addressError, 0⟩)
    ∧ (s.ContextLegal i → s.latch.x.KeyLegal i → s.latch.x.ScalarsLegal i → s.BoundsLegal i → ¬ s.OverlapLegal i →
        t.result = ⟨.parameterOutOfRange, 0⟩)
    ∧ (s.ContextLegal i → s.latch.x.KeyLegal i → s.latch.x.ScalarsLegal i → s.BoundsLegal i → s.OverlapLegal i →
        ¬ s.AllocLegal i → t.result = ⟨.allocationFailure, 0⟩)
    ∧ (s.Ready i → t.result.code = .ok ∨ (i = .ccmDec ∧ t.result = ⟨.authMismatch, 0⟩)
        ∨ (i = .gcmDec ∧ t.result = ⟨.tagMismatch, 0⟩))

/-- 70_reset_and_hazards.md R247, 60_exceptions.md R217: no command writes a BUF byte outside its output regions. -/
def Obligations.OnlyOutputRegionsAreWritten : Prop :=
  ∀ (i : Instr) (s t : State), exec i s = .next t → BufKeptOutside s t (s.latch.x.outputs i)

/-- 41_block.md R126: a command changes no slot but the one it names or allocates; every command but BLK_INIT_ENC,
BLK_INIT_DEC and BLK_DEINIT changes none. -/
def Obligations.CommandsLeaveOtherSlotsAlone : Prop :=
  ∀ (i : Instr) (s t : State), s.cfg.Legal → exec i s = .next t →
    ((∀ c, i ≠ .blkDeinit c) → i ≠ .blkInitEnc → i ≠ .blkInitDec → t.slots = s.slots)
      ∧ (∀ c d, i = .blkDeinit c → d ≠ c → t.slot d = s.slot d)
      ∧ (∀ d, i = .blkInitEnc ∨ i = .blkInitDec → d ≠ t.result.ctx.toNat → t.slot d = s.slot d)

/-- 10_state.md R32: no host access reads a slot or, soft reset apart, changes one; no command but BLK_INIT_ENC,
BLK_INIT_DEC and BLK_DEINIT changes one, neither in `exec` nor in the engine's whole turn, raced or not; and whatever step
frees a valid slot zeroes it. -/
def Obligations.SlotsAreOpaqueAndZeroedOnRelease : Prop :=
  (∀ (s : State) (sl : List Slot) (a : HostAccess), ({ s with slots := sl }.hostAccess a).bus = (s.hostAccess a).bus)
    ∧ (∀ (s : State) (a : HostAccess), (∀ v, a = .write 4 0x008 v → v.getLsbD 1 = false) →
        (s.hostAccess a).slots = s.slots)
    ∧ (∀ (i : Instr) (s t : State), (∀ c, i ≠ .blkDeinit c) → i ≠ .blkInitEnc → i ≠ .blkInitDec →
        exec i s = .next t → t.slots = s.slots)
    ∧ (∀ (s t : State) (rest : List Event), (s.agenda = .engine :: rest ∨ (s.agenda = [] ∧ rest = [])) →
        (∀ i, s.phase = .busy → decode s.latch.lcmd = .ok i →
          (∀ c, i ≠ .blkDeinit c) ∧ i ≠ .blkInitEnc ∧ i ≠ .blkInitDec) →
        step s = .next t → t.slots = s.slots)
    ∧ (∀ (s t : State) (c : Nat), step s = .next t → (s.slot c).valid = true → (t.slot c).valid = false →
        t.slot c = Slot.free)

/-- 00_scope.md R14: a mode command's result, and the output bytes it writes on success, depend only on the latch (the
parameter snapshot and BUF at acceptance), and it writes no slot. -/
def Obligations.ModeCommandsAreFunctionsOfTheirInputs : Prop :=
  ∀ (i : Instr) (s u s' u' : State),
    i ∈ [Instr.cbcEnc, .cbcDec, .cmac, .cmacVec, .ccmEnc, .ccmDec, .gcmEnc, .gcmDec, .gmac] →
    s.cfg = u.cfg → s.epoch = u.epoch → s.latch = u.latch → exec i s = .next s' → exec i u = .next u' →
      s'.slots = s.slots ∧ s'.result = u'.result
        ∧ (s'.result.code = .ok → ∀ r ∈ s.latch.x.outputs i, ∀ a, r.Holds a → s'.bufByte a = u'.bufByte a)

/-! ### The register interface -/

/-- 10_state.md R27, R33, 20_memory.md R62: a CMD write is accepted when IDLE; when BUSY it sets OVERRUN and changes nothing
else; CMD reads 0. That BUF's snapshot is a copy in the latch (log entry 9), and the flag `raced` (log entry 8), are the
model's choice. -/
def Obligations.CommandWriteIsAcceptedOrOverruns : Prop :=
  ∀ (s : State) (w : Word),
    (s.phase = .idle → ∃ t, s.hostWrite 4 0x014 w = t
      ∧ t.latch.lcmd = w ∧ t.latch.x = s.params ∧ (∀ a, t.snapByte a = s.bufByte a) ∧ t.latch.raced = false
      ∧ t = { s with latch := t.latch, phase := .busy, done := false, bus := some ⟨false, 0⟩ })
      ∧ (s.phase = .busy → s.hostWrite 4 0x014 w = { s with overrun := true, bus := some ⟨false, 0⟩ })
      ∧ s.hostRead 4 0x014 = { s with bus := some ⟨false, 0⟩ }

/-- 10_state.md R21, R28: each parameter register at its offset takes all 32 bits and reads them back; the write changes
nothing else, not even the snapshot of a running command. -/
def Obligations.ParameterRegistersHoldWhatIsWritten : Prop :=
  ∀ (s : State) (v : Word) (p : Nat × ParamReg),
    p ∈ [(0x020, ParamReg.keyAddr), (0x024, .keyLen), (0x028, .ivAddr), (0x02C, .ivLen), (0x030, .srcAddr),
      (0x034, .dstAddr), (0x038, .dataLen), (0x03C, .aadAddr), (0x040, .aadLen), (0x044, .tagAddr), (0x048, .tagLen),
      (0x04C, .segAddr), (0x050, .segCount)] →
    ∃ t, s.hostWrite 4 (BitVec.ofNat 32 p.1) v = t
      ∧ t.params.get p.2 = v ∧ (∀ q, q ≠ p.2 → t.params.get q = s.params.get q)
      ∧ t = { s with params := t.params, bus := some ⟨false, 0⟩ }
      ∧ t.hostRead 4 (BitVec.ofNat 32 p.1) = { t with bus := some ⟨false, v⟩ }

/-- 10_state.md R21–R26, R29: what each offset of the CSR window reads, each result code by its number (60_exceptions.md
R205). -/
def Obligations.RegisterReadsFollowTheMap : Prop :=
  ∀ (s : State) (off : Nat), off < 0x100 → off % 4 = 0 →
    ∃ v : Word, s.hostRead 4 (BitVec.ofNat 32 off) = { s with bus := some ⟨false, v⟩ } ∧
      if off = 0x000 then v = 0x41455347
      else if off = 0x004 then v = BitVec.ofNat 32 (s.cfg.numCtx + s.cfg.bufSize / 16 * 256)
      else if off = 0x008 then v.toNat = s.irqEn.toNat
      else if off = 0x00C then
        v.toNat = (if s.phase = .busy then 1 else 0) + 2 * s.done.toNat + 4 * s.overrun.toNat
      else if off = 0x010 then
        ∃ n, (s.result.code, n) ∈ [(ResultCode.ok, 0), (.invalidKeyLength, 1), (.allocationFailure, 2),
            (.parameterOutOfRange, 3), (.authMismatch, 4), (.tagMismatch, 5), (.illegalCommand, 6), (.addressError, 7),
            (.contextError, 8)]
          ∧ v.toNat = n + 256 * s.result.ctx.toNat
      else if 0x020 ≤ off ∧ off ≤ 0x050 then ∃ r, paramAt off = some r ∧ v = s.params.get r
      else v = 0

/-- 10_state.md R29: a write to a read-only register or a reserved offset is ignored. -/
def Obligations.ReadOnlyAndReservedOffsetsIgnoreWrites : Prop :=
  ∀ (s : State) (off : Nat) (v : Word), off < 0x100 → off % 4 = 0 →
    off ≠ 0x008 → off ≠ 0x00C → off ≠ 0x014 → (off < 0x020 ∨ 0x050 < off) →
      s.hostWrite 4 (BitVec.ofNat 32 off) v = { s with bus := some ⟨false, 0⟩ }

/-- 20_memory.md R60, 10_state.md R29: a host read changes nothing but the port's response, free draws (log entry 4)
apart where it races the running command. -/
def Obligations.HostReadsHaveNoSideEffect : Prop :=
  ∀ (s : State) (w : Nat) (off : Word), ∃ b d, s.hostRead w off = { s with bus := some b, draws := d }
    ∧ (s.phase = .idle → d = s.draws)

/-- 10_state.md R24: a CTRL write without SRST sets IRQ_EN to bit 0 and nothing else; one with SRST is the soft reset
(SoftResetAbortsAndClears) whatever its other bits are, and leaves IRQ_EN 0; CTRL reads IRQ_EN alone. -/
def Obligations.ControlWriteSetsInterruptEnable : Prop :=
  ∀ (s : State) (v : Word),
    (v.getLsbD 1 = false →
      s.hostWrite 4 0x008 v = { s with irqEn := v.getLsbD 0, bus := some ⟨false, 0⟩ })
      ∧ (v.getLsbD 1 = true → (s.hostWrite 4 0x008 v).irqEn = false ∧ s.hostWrite 4 0x008 v = s.hostWrite 4 0x008 2)
      ∧ (s.hostRead 4 0x008).bus = some ⟨false, if s.irqEn then 1 else 0⟩

/-- 10_state.md R25: a STATUS write clears DONE and OVERRUN where it writes a 1, and changes nothing else. -/
def Obligations.StatusWriteClearsWhereOne : Prop :=
  ∀ (s : State) (v : Word), ∃ t, s.hostWrite 4 0x00C v = t
    ∧ t = { s with done := t.done, overrun := t.overrun, bus := some ⟨false, 0⟩ }
    ∧ t.done = (if v.toNat / 2 % 2 = 1 then false else s.done)
    ∧ t.overrun = (if v.toNat / 4 % 2 = 1 then false else s.overrun)

/-- 10_state.md R38, 60_exceptions.md R218, R221: the interrupt is DONE and IRQ_EN; a completion raises it where enabled;
enabling it while DONE raises it; acknowledging, acceptance and both resets lower it. -/
def Obligations.InterruptIsDoneAndEnabled : Prop :=
  (∀ s : State, s.irq = true ↔ s.done = true ∧ s.irqEn = true)
    ∧ (∀ (i : Instr) (s t : State), exec i s = .next t → t.irq = s.irqEn)
    ∧ (∀ s : State, s.done = true → (s.hostWrite 4 0x008 1).irq = true)
    ∧ (∀ s : State, (s.hostWrite 4 0x00C 2).irq = false)
    ∧ (∀ (s : State) (w : Word), s.phase = .idle → (s.hostWrite 4 0x014 w).irq = false)
    ∧ (∀ s : State, (s.hostWrite 4 0x008 3).irq = false ∧ s.hardReset.irq = false)

/-- 60_exceptions.md R219, 92_eei_decisions.md D6: a CSR access that is not 32 bits wide and 4-aligned, a misaligned BUF
access, and a BUF access that is not 1, 2 or 4 bytes wide get a bus error; they change nothing and read 0. Which window an
access belongs to is where its first byte lies, the model's choice (log entry 11). -/
def Obligations.BadAccessIsABusErrorWithoutEffect : Prop :=
  ∀ (s : State) (w : Nat) (off v : Word),
    (off.toNat < 0x100 ∧ (w ≠ 4 ∨ off.toNat % 4 ≠ 0)
      ∨ (0x10000 ≤ off.toNat ∧ off.toNat < 0x10000 + s.cfg.bufSize
          ∧ ((off.toNat - 0x10000) % w ≠ 0 ∨ w ∉ [1, 2, 4]))) →
      s.hostWrite w off v = { s with bus := some ⟨true, 0⟩ } ∧ s.hostRead w off = { s with bus := some ⟨true, 0⟩ }

/-- 20_memory.md R51: an unmapped offset reads 0 and ignores writes, without error. That an access which starts unmapped is
unmapped as a whole, even one that reaches into the BUF window (offset 0xFFFF, 2 bytes), is not the rule's but the model's
choice (log entry 11). -/
def Obligations.UnmappedOffsetsReadZeroAndIgnoreWrites : Prop :=
  ∀ (s : State) (w : Nat) (off v : Word),
    (0x100 ≤ off.toNat ∧ off.toNat < 0x10000) ∨ 0x10000 + s.cfg.bufSize ≤ off.toNat →
      s.hostWrite w off v = { s with bus := some ⟨false, 0⟩ } ∧ s.hostRead w off = { s with bus := some ⟨false, 0⟩ }

/-- 20_memory.md R56: an aligned 1-, 2- or 4-byte access of BUF outside the running command's regions: a write puts byte
`i` of the value at address `a + i` and changes nothing else; a read gives the value whose byte `i` is the byte at
address `a + i`, zero above. -/
def Obligations.BufAccessesAreLittleEndian : Prop :=
  ∀ (s : State) (w a : Nat) (v : Word), s.cfg.Legal → w ∈ [1, 2, 4] → a % w = 0 → a < s.cfg.bufSize →
    (∀ r ∈ s.runningRegions, ∀ i < w, ¬ r.Holds (a + i)) →
    (∃ t, s.hostWrite w (BitVec.ofNat 32 (0x10000 + a)) v = t
      ∧ t = { s with buf := t.buf, bus := some ⟨false, 0⟩ }
      ∧ (∀ i < w, (t.bufByte (a + i)).toNat = v.toNat / 2 ^ (8 * i) % 256)
      ∧ BufKeptOutside s t [⟨a, w⟩])
      ∧ ∃ d : Word, s.hostRead w (BitVec.ofNat 32 (0x10000 + a)) = { s with bus := some ⟨false, d⟩ }
        ∧ (∀ i < w, d.toNat / 2 ^ (8 * i) % 256 = (s.bufByte (a + i)).toNat) ∧ d.toNat < 2 ^ (8 * w)

/-- 20_memory.md R63: an aligned 1-, 2- or 4-byte access with some byte inside the running command's regions. Each such byte
of a read is a free byte and each such byte of a write becomes one; every other byte of the access is read or written as
usual. A write marks the command raced and changes nothing else. A free byte is the model's form of `unspecified`, and that
the bytes of one access are raced each for itself is the model's choice (log entries 4, 8). -/
def Obligations.RacedAccessesGiveFreeBytes : Prop :=
  ∀ (s : State) (k : Instr) (w a : Nat) (v : Word), s.cfg.Legal → s.phase = .busy → decode s.latch.lcmd = .ok k →
    w ∈ [1, 2, 4] → a % w = 0 → a < s.cfg.bufSize → (∃ i < w, ∃ r ∈ s.regions k, r.Holds (a + i)) →
      (∃ (d : Word) (n : Nat), s.hostRead w (BitVec.ofNat 32 (0x10000 + a)) = { s with bus := some ⟨false, d⟩, draws := n }
        ∧ d.toNat < 2 ^ (8 * w)
        ∧ ∀ i < w,
          ((∃ r ∈ s.regions k, r.Holds (a + i)) →
            ∃ n, d.toNat / 2 ^ (8 * i) % 256 = (Config.freeByte n).toNat)
            ∧ ((∀ r ∈ s.regions k, ¬ r.Holds (a + i)) → d.toNat / 2 ^ (8 * i) % 256 = (s.bufByte (a + i)).toNat))
        ∧ ∃ t, s.hostWrite w (BitVec.ofNat 32 (0x10000 + a)) v = t
          ∧ t = { s with
            buf := t.buf
            draws := t.draws
            latch := { s.latch with raced := true }
            bus := some ⟨false, 0⟩ }
          ∧ (∀ i < w,
            ((∃ r ∈ s.regions k, r.Holds (a + i)) → ∃ n, t.bufByte (a + i) = Config.freeByte n)
              ∧ ((∀ r ∈ s.regions k, ¬ r.Holds (a + i)) → (t.bufByte (a + i)).toNat = v.toNat / 2 ^ (8 * i) % 256))
          ∧ BufKeptOutside s t [⟨a, w⟩]

/-- 20_memory.md R63, 60_exceptions.md R215: when a raced command completes, every byte of its output regions is free and no
other byte changes; the completion record is that of any completion; its code is the one the command gives unraced, except
that a verification may have gone either way; the slots are those the command leaves unraced, except that a slot it
allocated has free round keys. How the race is carried to the completion, and the free round keys, are the model's choice
(log entries 4, 8), and so is that an empty agenda is an engine turn (log entry 5). -/
def Obligations.RacedCommandLeavesFreeOutputs : Prop :=
  ∀ (s t u : State) (i : Instr) (rest : List Event),
    (s.agenda = .engine :: rest ∨ (s.agenda = [] ∧ rest = [])) → s.phase = .busy →
    decode s.latch.lcmd = .ok i → s.latch.raced = true → exec i { s with agenda := rest } = .next u →
    step s = .next t →
      (∀ o ∈ s.latch.x.outputs i, t.BufFree o)
        ∧ BufKeptOutside s t (s.latch.x.outputs i)
        ∧ Completed { s with agenda := rest } t t.result.code t.result.ctx.toNat
        ∧ t.result.ctx = u.result.ctx
        ∧ (t.result = u.result
          ∨ (i = .ccmDec ∧ u.result.code ∈ [.ok, .authMismatch] ∧ t.result.code ∈ [.ok, .authMismatch])
          ∨ (i = .gcmDec ∧ u.result.code ∈ [.ok, .tagMismatch] ∧ t.result.code ∈ [.ok, .tagMismatch]))
        ∧ (i ≠ .blkInitEnc ∧ i ≠ .blkInitDec ∨ u.result.code ≠ .ok → t.slots = u.slots)
        ∧ (i = .blkInitEnc ∨ i = .blkInitDec → u.result.code = .ok → s.cfg.Legal → s.slots.length = s.cfg.numCtx →
            let c := u.result.ctx.toNat
            (∀ d, d ≠ c → t.slot d = s.slot d)
              ∧ (t.slot c).valid = true ∧ (t.slot c).dir = (u.slot c).dir ∧ (t.slot c).nr = (u.slot c).nr
              ∧ (t.slot c).KeysFree)

/-! ### Resets and the invariant -/

/-- 70_reset_and_hazards.md R231: soft reset; `unspecified` is a free byte (log entries 4, 10). -/
def Obligations.SoftResetAbortsAndClears : Prop :=
  ∀ (s : State) (v : Word), v.getLsbD 1 = true → ∃ t, s.hostWrite 4 0x008 v = t
    ∧ t.irqEn = false ∧ t.phase = .idle ∧ t.done = false ∧ t.overrun = false ∧ t.result = ⟨.ok, 0⟩
    ∧ (∀ r, t.params.get r = 0) ∧ (∀ c, t.slot c = Slot.free) ∧ t.slots.length = s.cfg.numCtx
    ∧ t.latch = Latch.empty ∧ t.transient = Transient.zero ∧ t.irq = false
    ∧ (s.phase = .idle → ∀ a, t.bufByte a = s.bufByte a)
    ∧ (s.phase = .busy → (∀ i, decode s.latch.lcmd ≠ .ok i) → ∀ a, t.bufByte a = s.bufByte a)
    ∧ (∀ i, s.phase = .busy → decode s.latch.lcmd = .ok i →
        (∀ o ∈ s.latch.x.outputs i, t.BufFree o) ∧ BufKeptOutside s t (s.latch.x.outputs i))

/-- 70_reset_and_hazards.md R230: hardware reset, in any state. That BUF then holds the power-on draws of a reset other than
the current one is the model's form of `unspecified`, its choice (log entry 2). -/
def Obligations.HardwareResetClearsEverything : Prop :=
  ∀ (s : State) (rest : List Event), s.agenda = .hardReset :: rest → ∃ t, step s = .next t
    ∧ t.cfg = s.cfg ∧ t.irqEn = false ∧ t.phase = .idle ∧ t.done = false ∧ t.overrun = false ∧ t.result = ⟨.ok, 0⟩
    ∧ (∀ r, t.params.get r = 0) ∧ (∀ c, t.slot c = Slot.free) ∧ t.slots.length = s.cfg.numCtx
    ∧ t.latch = Latch.empty ∧ t.transient = Transient.zero ∧ t.irq = false
    ∧ ∃ e, e ≠ s.epoch ∧ ∀ a, t.bufByte a = Config.powerOnByte e a

/-- 10_state.md R39: the values after reset, in every configuration. -/
def Obligations.ResetValues : Prop :=
  ∀ cfg : Config, ∃ t, State.resetOf cfg = t
    ∧ t.irqEn = false ∧ t.phase = .idle ∧ t.done = false ∧ t.overrun = false ∧ t.result = ⟨.ok, 0⟩
    ∧ t.latch.lcmd = 0 ∧ (∀ r, t.latch.x.get r = 0) ∧ (∀ r, t.params.get r = 0)
    ∧ (∀ c, (t.slot c).valid = false ∧ (t.slot c).dir = .enc ∧ (t.slot c).nr = 0 ∧ (t.slot c).rk = List.replicate 15 0)
    ∧ t.transient = Transient.zero ∧ t.irq = false ∧ (t.hostRead 4 0x000).bus = some ⟨false, 0x41455347⟩

/-- The invariant holds after reset in every legal configuration, and in the reference one that `State.reset` has (the
model's choice, log entry 1). -/
def Obligations.InvariantHoldsAtReset : Prop :=
  State.reset.Inv ∧ ∀ cfg : Config, cfg.Legal → (State.resetOf cfg).Inv

/-- The invariant is kept by every step, from every state that meets it. -/
def Obligations.InvariantIsKeptByEveryStep : Prop := ∀ s t : State, s.Inv → step s = .next t → t.Inv

/-! ### AES -/

/-- 40_aes_core.md R91–R93: the S-box table is the affine map of the inverse, and the inverse S-box undoes it both ways. -/
def Obligations.SboxTablesAgreeWithTheirDefinition : Prop :=
  ∀ a : Byte, sbox a = sboxAffine (gf8Inv a) ∧ invSbox (sbox a) = a ∧ sbox (invSbox a) = a
    ∧ gf8Mul a (gf8Inv a) = (if a = 0 then 0 else 1)

/-- 40_aes_core.md R110: for every valid key the two ciphers are inverse to each other. -/
def Obligations.CiphersAreInverse : Prop :=
  ∀ (key : Bytes) (b : Block), KeyLengthLegal key.length →
    decryptBlock key (encryptBlock key b) = b ∧ encryptBlock key (decryptBlock key b) = b

/-! ### Block commands -/

/-- 41_block.md R120, R125: BLK_INIT_ENC puts the encryption schedule of the key in the lowest free slot. -/
def Obligations.BlkInitEncStoresTheSchedule : Prop :=
  ∀ (s : State) (c : Nat), s.slots.length = s.cfg.numCtx → s.Ready .blkInitEnc →
    c < s.cfg.numCtx → (s.slot c).valid = false → (∀ d < c, (s.slot d).valid = true) →
    ∃ t, exec .blkInitEnc s = .next t ∧ Completed s t .ok c ∧ t.buf = s.buf ∧ t.draws = s.draws
      ∧ (t.slot c).valid = true ∧ (t.slot c).dir = .enc ∧ (t.slot c).nr = s.latch.x.keyLen.toNat / 4 + 6
      ∧ (t.slot c).rk.length = 15
      ∧ (∀ r ≤ (t.slot c).nr, (t.slot c).rk.getD r 0 = (keyExpansion s.key).getD r 0)
      ∧ (∀ r, (t.slot c).nr < r → (t.slot c).rk.getD r 0 = 0)
      ∧ ∀ d, d ≠ c → t.slot d = s.slot d

/-- 41_block.md R121, R125; 40_aes_core.md R108: BLK_INIT_DEC puts the decryption schedule of the key in the lowest free
slot. -/
def Obligations.BlkInitDecStoresTheSchedule : Prop :=
  ∀ (s : State) (c : Nat), s.slots.length = s.cfg.numCtx → s.Ready .blkInitDec →
    c < s.cfg.numCtx → (s.slot c).valid = false → (∀ d < c, (s.slot d).valid = true) →
    ∃ t, exec .blkInitDec s = .next t ∧ Completed s t .ok c ∧ t.buf = s.buf ∧ t.draws = s.draws
      ∧ (t.slot c).valid = true ∧ (t.slot c).dir = .dec ∧ (t.slot c).nr = s.latch.x.keyLen.toNat / 4 + 6
      ∧ (t.slot c).rk.length = 15
      ∧ (t.slot c).rk.getD 0 0 = (keyExpansion s.key).getD (t.slot c).nr 0
      ∧ (∀ r, 0 < r → r < (t.slot c).nr →
          (t.slot c).rk.getD r 0 = invMixColumns ((keyExpansion s.key).getD ((t.slot c).nr - r) 0))
      ∧ (t.slot c).rk.getD (t.slot c).nr 0 = (keyExpansion s.key).getD 0 0
      ∧ (∀ r, (t.slot c).nr < r → (t.slot c).rk.getD r 0 = 0)
      ∧ ∀ d, d ≠ c → t.slot d = s.slot d

/-- 41_block.md R122: BLK_ENC writes the cipher of the source block. -/
def Obligations.BlkEncWritesTheCipherBlock : Prop :=
  ∀ (s : State) (c : Nat), s.Ready (.blkEnc c) →
    ∃ t, exec (.blkEnc c) s = .next t ∧ Completed s t .ok 0 ∧ t.slots = s.slots ∧ t.draws = s.draws
      ∧ t.bufBlock s.latch.x.dstAddr.toNat
          = cipher (s.slot c).rk (s.slot c).nr (s.snapBlock s.latch.x.srcAddr.toNat)
      ∧ BufKeptOutside s t [⟨s.latch.x.dstAddr.toNat, 16⟩]

/-- 41_block.md R123: BLK_DEC writes the inverse cipher of the source block. -/
def Obligations.BlkDecWritesThePlainBlock : Prop :=
  ∀ (s : State) (c : Nat), s.Ready (.blkDec c) →
    ∃ t, exec (.blkDec c) s = .next t ∧ Completed s t .ok 0 ∧ t.slots = s.slots ∧ t.draws = s.draws
      ∧ t.bufBlock s.latch.x.dstAddr.toNat
          = invCipher (s.slot c).rk (s.slot c).nr (s.snapBlock s.latch.x.srcAddr.toNat)
      ∧ BufKeptOutside s t [⟨s.latch.x.dstAddr.toNat, 16⟩]

/-- 41_block.md R124: BLK_DEINIT zeroes and frees the slot, of either direction, and a second one fails. -/
def Obligations.BlkDeinitFreesTheSlot : Prop :=
  ∀ (s : State) (c : Nat), s.Ready (.blkDeinit c) →
    ∃ t, exec (.blkDeinit c) s = .next t ∧ Completed s t .ok 0 ∧ t.buf = s.buf ∧ t.draws = s.draws
      ∧ t.slot c = ⟨false, .enc, 0, List.replicate 15 0⟩ ∧ (∀ d, d ≠ c → t.slot d = s.slot d)
      ∧ ∀ w, ∃ u, exec (.blkDeinit c) (t.accept w) = .next u ∧ u.result = ⟨.contextError, 0⟩ ∧ u.slots = t.slots

/-- 41_block.md R127: a slot that BLK_INIT_ENC filled and one that BLK_INIT_DEC filled from the same key, neither changed
since; BLK_ENC under the first, then BLK_DEC of its output under the second, gives the block back. The two allocations
start in states that meet the invariant (InvariantIsKeptByEveryStep). -/
def Obligations.BlockRoundTrip : Prop :=
  ∀ a a' b b' s s' u u' : State, a.Inv → b.Inv →
    exec .blkInitEnc a = .next a' → a'.result.code = .ok →
    exec .blkInitDec b = .next b' → b'.result.code = .ok → b.key = a.key →
    s.slot a'.result.ctx.toNat = a'.slot a'.result.ctx.toNat →
    u.slot b'.result.ctx.toNat = b'.slot b'.result.ctx.toNat →
    exec (.blkEnc a'.result.ctx.toNat) s = .next s' → s'.result.code = .ok →
    u.snapBlock u.latch.x.srcAddr.toNat = s'.bufBlock s.latch.x.dstAddr.toNat →
    exec (.blkDec b'.result.ctx.toNat) u = .next u' → u'.result.code = .ok →
      u'.bufBlock u.latch.x.dstAddr.toNat = s.snapBlock s.latch.x.srcAddr.toNat

/-! ### CBC -/

/-- 42_cbc.md R135: CBC_ENC, block by block, in place. -/
def Obligations.CbcEncChainsTheBlocks : Prop :=
  ∀ s : State, s.Ready .cbcEnc →
    ∃ t, exec .cbcEnc s = .next t ∧ Completed s t .ok 0 ∧ t.slots = s.slots ∧ t.draws = s.draws
      ∧ (∀ n < s.latch.x.dataLen.toNat / 16,
          t.bufBlock (s.latch.x.srcAddr.toNat + 16 * n) = encryptBlock s.key
            ((if n = 0 then s.snapBlock s.latch.x.ivAddr.toNat
              else t.bufBlock (s.latch.x.srcAddr.toNat + 16 * (n - 1)))
              ^^^ s.snapBlock (s.latch.x.srcAddr.toNat + 16 * n)))
      ∧ BufKeptOutside s t [s.latch.x.srcRegion]

/-- 42_cbc.md R136: CBC_DEC, block by block, in place, reading the ciphertext as it stood at acceptance. -/
def Obligations.CbcDecChainsTheBlocks : Prop :=
  ∀ s : State, s.Ready .cbcDec →
    ∃ t, exec .cbcDec s = .next t ∧ Completed s t .ok 0 ∧ t.slots = s.slots ∧ t.draws = s.draws
      ∧ (∀ n < s.latch.x.dataLen.toNat / 16,
          t.bufBlock (s.latch.x.srcAddr.toNat + 16 * n) =
            decryptBlock s.key (s.snapBlock (s.latch.x.srcAddr.toNat + 16 * n))
              ^^^ (if n = 0 then s.snapBlock s.latch.x.ivAddr.toNat
                else s.snapBlock (s.latch.x.srcAddr.toNat + 16 * (n - 1))))
      ∧ BufKeptOutside s t [s.latch.x.srcRegion]

/-- 42_cbc.md R137: CBC_ENC, then CBC_DEC with the same key, IV and data region, restores the data. -/
def Obligations.CbcRoundTrip : Prop :=
  ∀ s s' u u' : State, exec .cbcEnc s = .next s' → s'.result.code = .ok →
    u.key = s.key → u.memRead u.latch.x.cbcIvRegion = s.memRead s.latch.x.cbcIvRegion →
    u.latch.x.srcRegion = s.latch.x.srcRegion → u.memRead u.latch.x.srcRegion = s'.bufBytes s.latch.x.srcRegion →
    exec .cbcDec u = .next u' → u'.result.code = .ok →
      u'.bufBytes u.latch.x.srcRegion = s.memRead s.latch.x.srcRegion

/-! ### CMAC -/

/-- 43_cmac.md R145: doubling, byte by byte. -/
def Obligations.DoublingShiftsByBytes : Prop :=
  ∀ b : Block,
    (∀ i < 15, blockByte (dbl b) i = blockByte b i <<< 1 ||| blockByte b (i + 1) >>> 7)
      ∧ blockByte (dbl b) 15 = blockByte b 15 <<< 1 ^^^ (if (blockByte b 0).getLsbD 7 then 0x87 else 0)

/-- 43_cmac.md R150: CMAC writes the 16-byte tag of the message. -/
def Obligations.CmacWritesTheTag : Prop :=
  ∀ s : State, s.Ready .cmac →
    ∃ t, exec .cmac s = .next t ∧ Completed s t .ok 0 ∧ t.slots = s.slots ∧ t.draws = s.draws
      ∧ t.bufBlock s.latch.x.tagAddr.toNat = cmacTag (encryptBlock s.key) (s.memRead s.latch.x.srcRegion)
      ∧ BufKeptOutside s t [⟨s.latch.x.tagAddr.toNat, 16⟩]

/-- 43_cmac.md R153: CMAC_VEC writes the tag of the concatenated segments. -/
def Obligations.CmacVecWritesTheTag : Prop :=
  ∀ s : State, s.Ready .cmacVec →
    ∃ t, exec .cmacVec s = .next t ∧ Completed s t .ok 0 ∧ t.slots = s.slots ∧ t.draws = s.draws
      ∧ t.bufBlock s.latch.x.tagAddr.toNat = cmacTag (encryptBlock s.key) (s.segments.flatMap s.memRead)
      ∧ BufKeptOutside s t [⟨s.latch.x.tagAddr.toNat, 16⟩]

/-- 43_cmac.md R151: CMAC_VEC over any segments writes what CMAC writes over their concatenation in one buffer. -/
def Obligations.CmacVecEqualsCmacOfTheConcatenation : Prop :=
  ∀ s s' u u' : State, exec .cmacVec s = .next s' → s'.result.code = .ok →
    u.key = s.key → u.memRead u.latch.x.srcRegion = s.segments.flatMap s.memRead →
    exec .cmac u = .next u' → u'.result.code = .ok →
      s'.bufBlock s.latch.x.tagAddr.toNat = u'.bufBlock u.latch.x.tagAddr.toNat

/-! ### CCM -/

/-- 44_ccm.md R162: block B0, byte by byte. -/
def Obligations.CcmFirstBlockHasItsFields : Prop :=
  ∀ (nonce : Bytes) (m a l : Nat), nonce.length = 13 → m ∈ [4, 6, 8, 10, 12, 14, 16] → l ≤ 65535 →
    (blockByte (ccmB0 nonce m a l) 0).toNat = (if 0 < a then 0x40 else 0) + 8 * ((m - 2) / 2) + 1
      ∧ (∀ j, (h : j < nonce.length) → blockByte (ccmB0 nonce m a l) (1 + j) = nonce[j])
      ∧ (blockByte (ccmB0 nonce m a l) 14).toNat * 256 + (blockByte (ccmB0 nonce m a l) 15).toNat = l

/-- 44_ccm.md R167: CCM_ENC writes the ciphertext and the tag. -/
def Obligations.CcmEncWritesCiphertextAndTag : Prop :=
  ∀ s : State, s.Ready .ccmEnc →
    let x := s.latch.x
    let E := encryptBlock s.key
    let nonce := s.memRead x.nonceRegion
    let p := s.memRead x.srcRegion
    let auth := ccmAuth E nonce (s.memRead x.aadRegion) p x.tagLen.toNat
    ∃ t, exec .ccmEnc s = .next t ∧ Completed s t .ok 0 ∧ t.slots = s.slots ∧ t.draws = s.draws
      ∧ t.bufBytes x.dstRegion = ccmCtr E nonce p
      ∧ t.bufBytes x.tagRegion = ccmTag E nonce auth x.tagLen.toNat
      ∧ BufKeptOutside s t [x.dstRegion, x.tagRegion]

/-- 44_ccm.md R168: CCM_DEC with the right tag writes the plaintext. -/
def Obligations.CcmDecWritesThePlaintextWhenVerified : Prop :=
  ∀ s : State, s.Ready .ccmDec →
    let x := s.latch.x
    let E := encryptBlock s.key
    let nonce := s.memRead x.nonceRegion
    let p := ccmCtr E nonce (s.memRead x.srcRegion)
    let auth := ccmAuth E nonce (s.memRead x.aadRegion) p x.tagLen.toNat
    ccmTag E nonce auth x.tagLen.toNat = s.memRead x.tagRegion →
    ∃ t, exec .ccmDec s = .next t ∧ Completed s t .ok 0 ∧ t.slots = s.slots ∧ t.draws = s.draws
      ∧ t.bufBytes x.dstRegion = p ∧ BufKeptOutside s t [x.dstRegion]

/-- 44_ccm.md R168, R169: CCM_DEC with a wrong tag reports AUTH_MISMATCH and leaves its output region free,
which is the model's form of `unspecified` (log entry 4). -/
def Obligations.CcmDecMismatchLeavesFreeOutput : Prop :=
  ∀ s : State, s.Ready .ccmDec →
    let x := s.latch.x
    let E := encryptBlock s.key
    let nonce := s.memRead x.nonceRegion
    let p := ccmCtr E nonce (s.memRead x.srcRegion)
    let auth := ccmAuth E nonce (s.memRead x.aadRegion) p x.tagLen.toNat
    ccmTag E nonce auth x.tagLen.toNat ≠ s.memRead x.tagRegion →
    ∃ t, exec .ccmDec s = .next t ∧ Completed s t .authMismatch 0 ∧ t.slots = s.slots
      ∧ t.BufFree x.dstRegion ∧ BufKeptOutside s t [x.dstRegion]

/-- 44_ccm.md R171: CCM_DEC of what CCM_ENC wrote, with the same key, nonce, AAD and M, completes OK and writes the
plaintext. -/
def Obligations.CcmRoundTrip : Prop :=
  ∀ s s' u : State, exec .ccmEnc s = .next s' → s'.result.code = .ok → u.Ready .ccmDec →
    u.key = s.key → u.memRead u.latch.x.nonceRegion = s.memRead s.latch.x.nonceRegion →
    u.memRead u.latch.x.aadRegion = s.memRead s.latch.x.aadRegion → u.latch.x.tagLen = s.latch.x.tagLen →
    u.memRead u.latch.x.srcRegion = s'.bufBytes s.latch.x.dstRegion →
    u.memRead u.latch.x.tagRegion = s'.bufBytes s.latch.x.tagRegion →
      ∃ u', exec .ccmDec u = .next u' ∧ u'.result = ⟨.ok, 0⟩
        ∧ u'.bufBytes u.latch.x.dstRegion = s.memRead s.latch.x.srcRegion

/-! ### GCM -/

/-- 45_gcm.md R181: the multiplier distributes over XOR on both sides, `80…00` is its unit and zero its zero. -/
def Obligations.GhashMultiplierIsBilinear : Prop :=
  ∀ x y z : Block,
    gfmul (x ^^^ y) z = gfmul x z ^^^ gfmul y z ∧ gfmul x (y ^^^ z) = gfmul x y ^^^ gfmul x z
      ∧ gfmul 0x80000000000000000000000000000000 x = x ∧ gfmul x 0x80000000000000000000000000000000 = x
      ∧ gfmul 0 x = 0 ∧ gfmul x 0 = 0

/-- 45_gcm.md R181: the multiplier is commutative and associative. -/
def Obligations.GhashMultiplierCommutesAndAssociates : Prop :=
  ∀ x y z : Block, gfmul x y = gfmul y x ∧ gfmul (gfmul x y) z = gfmul x (gfmul y z)

/-- 45_gcm.md R186: inc32 adds one to the low 32 bits, modulo 2^32, and leaves the rest. -/
def Obligations.CounterIncrementStaysInTheLowWord : Prop :=
  ∀ cb : Block, (inc32 cb).toNat / 2 ^ 32 = cb.toNat / 2 ^ 32
    ∧ (inc32 cb).toNat % 2 ^ 32 = (cb.toNat % 2 ^ 32 + 1) % 2 ^ 32

/-- 45_gcm.md R187: byte `j` of GCTR is byte `j` of the input with byte `j mod 16` of the cipher of counter block
`j div 16`. -/
def Obligations.CounterModeUsesConsecutiveCounters : Prop :=
  ∀ (E : Block → Block) (icb : Block) (x : Bytes),
    (gctr E icb x).length = x.length
      ∧ ∀ j, (h : j < x.length) → (gctr E icb x).getD j 0 = x[j] ^^^ blockByte (E (inc32^[j / 16] icb)) (j % 16)

/-- 45_gcm.md R190: GCM_ENC writes the ciphertext and the tag. -/
def Obligations.GcmEncWritesCiphertextAndTag : Prop :=
  ∀ s : State, s.Ready .gcmEnc →
    let x := s.latch.x
    let E := encryptBlock s.key
    let iv := s.memRead x.ivRegion
    let c := gctr E (inc32 (gcmJ0 E iv)) (s.memRead x.srcRegion)
    ∃ t, exec .gcmEnc s = .next t ∧ Completed s t .ok 0 ∧ t.slots = s.slots ∧ t.draws = s.draws
      ∧ t.bufBytes x.dstRegion = c
      ∧ t.bufBytes x.tagRegion = gcmTag E iv (s.memRead x.aadRegion) c x.tagLen.toNat
      ∧ BufKeptOutside s t [x.dstRegion, x.tagRegion]

/-- 45_gcm.md R191: GCM_DEC with the right tag writes the plaintext. -/
def Obligations.GcmDecWritesThePlaintextWhenVerified : Prop :=
  ∀ s : State, s.Ready .gcmDec →
    let x := s.latch.x
    let E := encryptBlock s.key
    let iv := s.memRead x.ivRegion
    let c := s.memRead x.srcRegion
    gcmTag E iv (s.memRead x.aadRegion) c x.tagLen.toNat = s.memRead x.tagRegion →
    ∃ t, exec .gcmDec s = .next t ∧ Completed s t .ok 0 ∧ t.slots = s.slots ∧ t.draws = s.draws
      ∧ t.bufBytes x.dstRegion = gctr E (inc32 (gcmJ0 E iv)) c ∧ BufKeptOutside s t [x.dstRegion]

/-- 45_gcm.md R191, R194: GCM_DEC with a wrong tag reports TAG_MISMATCH and leaves its output region free,
which is the model's form of `unspecified` (log entry 4). -/
def Obligations.GcmDecMismatchLeavesFreeOutput : Prop :=
  ∀ s : State, s.Ready .gcmDec →
    let x := s.latch.x
    let E := encryptBlock s.key
    let iv := s.memRead x.ivRegion
    let c := s.memRead x.srcRegion
    gcmTag E iv (s.memRead x.aadRegion) c x.tagLen.toNat ≠ s.memRead x.tagRegion →
    ∃ t, exec .gcmDec s = .next t ∧ Completed s t .tagMismatch 0 ∧ t.slots = s.slots
      ∧ t.BufFree x.dstRegion ∧ BufKeptOutside s t [x.dstRegion]

/-- 45_gcm.md R192: GMAC writes the tag over the AAD alone. -/
def Obligations.GmacWritesTheTag : Prop :=
  ∀ s : State, s.Ready .gmac →
    let x := s.latch.x
    ∃ t, exec .gmac s = .next t ∧ Completed s t .ok 0 ∧ t.slots = s.slots ∧ t.draws = s.draws
      ∧ t.bufBytes x.tagRegion
          = gcmTag (encryptBlock s.key) (s.memRead x.ivRegion) (s.memRead x.aadRegion) [] x.tagLen.toNat
      ∧ BufKeptOutside s t [x.tagRegion]

/-- 45_gcm.md R196: GCM_DEC of what GCM_ENC wrote, with the same key, IV, AAD and tag length, completes OK and writes the
plaintext; GMAC's tag is GCM_ENC's with no data. -/
def Obligations.GcmRoundTrip : Prop :=
  (∀ s s' u : State, exec .gcmEnc s = .next s' → s'.result.code = .ok → u.Ready .gcmDec →
    u.key = s.key → u.memRead u.latch.x.ivRegion = s.memRead s.latch.x.ivRegion →
    u.memRead u.latch.x.aadRegion = s.memRead s.latch.x.aadRegion → u.latch.x.tagLen = s.latch.x.tagLen →
    u.memRead u.latch.x.srcRegion = s'.bufBytes s.latch.x.dstRegion →
    u.memRead u.latch.x.tagRegion = s'.bufBytes s.latch.x.tagRegion →
      ∃ u', exec .gcmDec u = .next u' ∧ u'.result = ⟨.ok, 0⟩
        ∧ u'.bufBytes u.latch.x.dstRegion = s.memRead s.latch.x.srcRegion)
    ∧ (∀ s s' u u' : State, exec .gmac s = .next s' → s'.result.code = .ok →
      u.key = s.key → u.memRead u.latch.x.ivRegion = s.memRead s.latch.x.ivRegion →
      u.memRead u.latch.x.aadRegion = s.memRead s.latch.x.aadRegion → u.latch.x.tagLen = s.latch.x.tagLen →
      u.latch.x.dataLen = 0 → exec .gcmEnc u = .next u' → u'.result.code = .ok →
        s'.bufBytes s.latch.x.tagRegion = u'.bufBytes u.latch.x.tagRegion)
end

