-- ==== Sys2Proof/Laws/Bytes.lean ====
section
/-! SUPPORT. What the byte-string operations compute: bytes of blocks, blocks of bytes, lengths, integer fields. -/

namespace Sys2Proof.Machine

theorem getLsbD_blockOfBytes (s : Bytes) {j : Nat} (h : j < 128) :
    (blockOfBytes s).getLsbD j = (s.reverse.getD (j / 8) 0).getLsbD (j % 8) := by
  induction s using List.reverseRecOn generalizing j with
  | nil => simp [blockOfBytes]
  | append_singleton s b ih =>
    have step : blockOfBytes (s ++ [b]) = blockOfBytes s <<< 8 ||| b.setWidth 128 := by simp [blockOfBytes]
    rw [step, BitVec.getLsbD_or, BitVec.getLsbD_shiftLeft, BitVec.getLsbD_setWidth, List.reverse_append]
    by_cases h8 : j < 8
    · simp [h, h8, Nat.div_eq_of_lt h8, Nat.mod_eq_of_lt h8]
    · have hd : j / 8 = (j - 8) / 8 + 1 := by omega
      have hb : b.getLsbD j = false := BitVec.getLsbD_of_ge _ _ (by omega)
      have hm : (j - 8) % 8 = j % 8 := by omega
      simp [h, h8, hb, hd, ih (show j - 8 < 128 by omega), hm]

theorem blockByte_blockOfBytes {s : Bytes} (hs : s.length = 16) {i : Nat} (hi : i < 16) :
    blockByte (blockOfBytes s) i = s[i] := by
  apply BitVec.eq_of_getLsbD_eq
  intro k hk
  have h128 : 8 * (15 - i) + k < 128 := by omega
  have hdiv : (8 * (15 - i) + k) / 8 = 15 - i := by omega
  have hmod : (8 * (15 - i) + k) % 8 = k := by omega
  rw [blockByte, BitVec.getLsbD_extractLsb', getLsbD_blockOfBytes s h128, hdiv, hmod,
    List.getD_eq_getElem _ _ (by simp; omega), List.getElem_reverse]
  simp only [hk, decide_true, Bool.true_and, hs]
  congr 2
  omega

@[simp] theorem blockByte_blockOfFn (f : Nat → Byte) {i : Nat} (hi : i < 16) : blockByte (blockOfFn f) i = f i := by
  rw [blockOfFn, blockByte_blockOfBytes (by simp) hi]
  simp

/-- Two blocks with the same sixteen bytes are the same block. -/
theorem block_ext {a b : Block} (h : ∀ i, i < 16 → blockByte a i = blockByte b i) : a = b := by
  apply BitVec.eq_of_getLsbD_eq
  intro j hj
  have hb := congrArg (·.getLsbD (j % 8)) (h (15 - j / 8) (by omega))
  have hidx : 8 * (15 - (15 - j / 8)) + j % 8 = j := by omega
  simpa [blockByte, BitVec.getLsbD_extractLsb', hidx, Nat.mod_lt] using hb

@[simp] theorem bytesOfBlock_length (b : Block) : (bytesOfBlock b).length = 16 := by simp [bytesOfBlock]

theorem getElem_bytesOfBlock (b : Block) {i : Nat} (h : i < (bytesOfBlock b).length) :
    (bytesOfBlock b)[i] = blockByte b i := by simp [bytesOfBlock]

@[simp] theorem blockOfBytes_bytesOfBlock (b : Block) : blockOfBytes (bytesOfBlock b) = b :=
  block_ext fun i hi => by rw [blockByte_blockOfBytes (by simp) hi, getElem_bytesOfBlock]

theorem bytesOfBlock_blockOfBytes {s : Bytes} (hs : s.length = 16) : bytesOfBlock (blockOfBytes s) = s := by
  apply List.ext_getElem (by simp [hs])
  intro i h1 h2
  rw [getElem_bytesOfBlock, blockByte_blockOfBytes hs (by omega)]

theorem blockByte_xor (a b : Block) (i : Nat) : blockByte (a ^^^ b) i = blockByte a i ^^^ blockByte b i := by
  simp [blockByte, BitVec.extractLsb'_xor]

@[simp] theorem pieces_length (k n : Nat) (s : Bytes) : (pieces k n s).length = n := by
  induction n generalizing s with
  | zero => rfl
  | succ n ih => simp [pieces, ih]

theorem getElem_pieces (k n : Nat) (s : Bytes) {i : Nat} (h : i < (pieces k n s).length) :
    (pieces k n s)[i] = (s.drop (k * i)).take k := by
  induction n generalizing s i with
  | zero => simp [pieces] at h
  | succ n ih =>
    cases i with
    | zero => simp [pieces]
    | succ i =>
      have h' : i < (pieces k n (s.drop k)).length := by simpa using h
      simp only [pieces, List.getElem_cons_succ, ih _ h', List.drop_drop]
      congr 2
      rw [Nat.mul_succ]
      omega

/-- The first pieces of a byte string that is at least `k * n` long join to its first `k * n` bytes. -/
theorem flatten_pieces (k n : Nat) (s : Bytes) (h : k * n ≤ s.length) : (pieces k n s).flatten = s.take (k * n) := by
  induction n generalizing s with
  | zero => simp [pieces]
  | succ n ih =>
    have hk : k * n ≤ (s.drop k).length := by simp; rw [Nat.mul_succ] at h; omega
    rw [pieces, List.flatten_cons, ih _ hk, Nat.mul_succ, Nat.add_comm, List.take_add]

@[simp] theorem blocksOf_length (s : Bytes) : (blocksOf s).length = s.length / 16 := by simp [blocksOf]

theorem getElem_blocksOf (s : Bytes) {i : Nat} (h : i < (blocksOf s).length) :
    (blocksOf s)[i] = blockOfBytes ((s.drop (16 * i)).take 16) := by
  simp [blocksOf, getElem_pieces]

@[simp] theorem bytesOfBlocks_nil : bytesOfBlocks [] = [] := rfl

@[simp] theorem bytesOfBlocks_cons (b : Block) (bs : List Block) :
    bytesOfBlocks (b :: bs) = bytesOfBlock b ++ bytesOfBlocks bs := by simp [bytesOfBlocks]

@[simp] theorem bytesOfBlocks_length (bs : List Block) : (bytesOfBlocks bs).length = 16 * bs.length := by
  induction bs with
  | nil => rfl
  | cons b bs ih => simp [ih]; omega

theorem pieces_bytesOfBlocks (bs : List Block) : (pieces 16 bs.length (bytesOfBlocks bs)).map blockOfBytes = bs := by
  induction bs with
  | nil => rfl
  | cons b bs ih =>
    have ht : (bytesOfBlock b ++ bytesOfBlocks bs).take 16 = bytesOfBlock b := List.take_left' (by simp)
    have hd : (bytesOfBlock b ++ bytesOfBlocks bs).drop 16 = bytesOfBlocks bs := List.drop_left' (by simp)
    simp [pieces, ht, hd, ih]

/-- Cutting the bytes of blocks into blocks gives the blocks back. -/
@[simp] theorem blocksOf_bytesOfBlocks (bs : List Block) : blocksOf (bytesOfBlocks bs) = bs := by
  simpa [blocksOf] using pieces_bytesOfBlocks bs

/-- The bytes of the blocks of a string of whole blocks are the string. -/
theorem bytesOfBlocks_blocksOf {s : Bytes} (h : s.length % 16 = 0) : bytesOfBlocks (blocksOf s) = s := by
  have hl : 16 * (s.length / 16) = s.length := by omega
  have hp : ∀ p ∈ pieces 16 (s.length / 16) s, bytesOfBlock (blockOfBytes p) = id p := by
    intro p hp
    obtain ⟨i, hi, rfl⟩ := List.getElem_of_mem hp
    have hi' : i < s.length / 16 := by simpa using hi
    exact bytesOfBlock_blockOfBytes (by rw [getElem_pieces]; simp; omega)
  rw [bytesOfBlocks, blocksOf, List.flatMap_map, List.flatMap_def, List.map_congr_left hp, List.map_id,
    flatten_pieces _ _ _ (by omega), hl, List.take_length]

@[simp] theorem beBytes_length (n v : Nat) : (beBytes n v).length = n := by simp [beBytes]

@[simp] theorem zeros_length (n : Nat) : (zeros n).length = n := by simp [zeros]

theorem pad16_length (s : Bytes) : (pad16 s).length = 16 * blockCount s.length := by
  simp [pad16, blockCount]; omega

theorem pad16_of_whole {s : Bytes} (h : s.length % 16 = 0) : pad16 s = s := by simp [pad16, h, zeros]

@[simp] theorem xorBytes_length (s t : Bytes) : (xorBytes s t).length = min s.length t.length := by simp [xorBytes]

theorem getElem_xorBytes (s t : Bytes) {i : Nat} (h : i < (xorBytes s t).length) :
    (xorBytes s t)[i] = s[i]'(by simp at h; omega) ^^^ t[i]'(by simp at h; omega) := by simp [xorBytes]

/-- XOR with the same key stream twice gives the string back. -/
theorem xorBytes_xorBytes {s t : Bytes} (h : s.length ≤ t.length) : xorBytes (xorBytes s t) t = s := by
  apply List.ext_getElem (by simp; omega)
  intro i h1 h2
  rw [getElem_xorBytes, getElem_xorBytes, BitVec.xor_assoc, BitVec.xor_self, BitVec.xor_zero]

@[simp] theorem leNat_nil : leNat [] = 0 := rfl

@[simp] theorem leNat_cons (b : Byte) (s : Bytes) : leNat (b :: s) = b.toNat + 256 * leNat s := rfl

theorem leNat_lt (s : Bytes) : leNat s < 256 ^ s.length := by
  induction s with
  | nil => simp
  | cons b s ih =>
    have hb := b.isLt
    rw [leNat_cons, List.length_cons, Nat.pow_succ]
    omega

/-- Byte `i` of a little-endian reading is byte `i` of the string. -/
theorem leNat_digit (s : Bytes) {i : Nat} (h : i < s.length) : leNat s / 2 ^ (8 * i) % 256 = s[i].toNat := by
  induction s generalizing i with
  | nil => simp at h
  | cons b s ih =>
    have hb := b.isLt
    cases i with
    | zero => rw [leNat_cons, List.getElem_cons_zero]; omega
    | succ i =>
      have h' : i < s.length := by simpa using h
      rw [leNat_cons, List.getElem_cons_succ, ← ih h', Nat.mul_succ, Nat.pow_add, Nat.mul_comm (2 ^ (8 * i)),
        ← Nat.div_div_eq_div_mul]
      congr 2
      omega

end Sys2Proof.Machine
end

