-- ==== Sys2Proof/Laws/Memory.lean ====
section
/-! SUPPORT. BUF as canonical data: what a read gives after a write, and that every memory operation keeps the canonical
form and the address range. -/

namespace Sys2Proof.Machine

@[simp] theorem Memory.byte?_nil (a : Nat) : Memory.byte? [] a = none := rfl

theorem Memory.byte?_cons (k : Nat) (v : Byte) (m : Memory) (a : Nat) :
    Memory.byte? ((k, v) :: m) a = if k = a then some v else Memory.byte? m a := rfl

/-- A read after a store: the stored byte at its address, the old byte anywhere else. -/
theorem Memory.byte?_put (m : Memory) (a : Nat) (v : Byte) (b : Nat) :
    Memory.byte? (Memory.put m a v) b = if a = b then some v else Memory.byte? m b := by
  induction m with
  | nil => rfl
  | cons c m ih =>
    obtain ⟨k, u⟩ := c
    rw [Memory.put]
    split
    · rfl
    · split
      · subst_vars
        simp only [Memory.byte?_cons]
        split <;> rfl
      · simp only [Memory.byte?_cons, ih]
        split
        · rw [if_neg (by omega)]
        · rfl

/-- A read after a store of a byte string at `a`: byte `b − a` of it inside, the old byte outside. -/
theorem Memory.byte?_putBytes (m : Memory) (a : Nat) (bs : Bytes) (b : Nat) :
    Memory.byte? (Memory.putBytes m a bs) b =
      if a ≤ b ∧ b < a + bs.length then bs[b - a]? else Memory.byte? m b := by
  induction bs generalizing m a with
  | nil => simp [Memory.putBytes]
  | cons x bs ih =>
    rw [Memory.putBytes, ih, Memory.byte?_put]
    by_cases h0 : a = b
    · subst h0; simp
    · by_cases h1 : a + 1 ≤ b ∧ b < a + 1 + bs.length
      · rw [if_pos h1, if_pos (by simp; omega), show b - a = (b - (a + 1)) + 1 by omega, List.getElem?_cons_succ]
      · rw [if_neg h1, if_neg h0, if_neg (by simp; omega)]

theorem Memory.read_putBytes_inside (e : Nat) (m : Memory) (a : Nat) (bs : Bytes) (j : Nat) (h : j < bs.length) :
    Memory.read e (Memory.putBytes m a bs) (a + j) = bs[j] := by
  rw [Memory.read, Memory.byte?_putBytes, if_pos (by omega), Nat.add_sub_cancel_left, List.getElem?_eq_getElem h]
  rfl

theorem Memory.read_putBytes_outside (e : Nat) (m : Memory) (a : Nat) (bs : Bytes) (b : Nat)
    (h : ¬ (a ≤ b ∧ b < a + bs.length)) : Memory.read e (Memory.putBytes m a bs) b = Memory.read e m b := by
  rw [Memory.read, Memory.byte?_putBytes, if_neg h, Memory.read]

/-- The addresses listed after a store. -/
theorem Memory.mem_put {m : Memory} {a : Nat} {v : Byte} {c : Host.Cell} (h : c ∈ Memory.put m a v) :
    c.1 = a ∨ c ∈ m := by
  induction m with
  | nil => simp [Memory.put] at h; simp [h]
  | cons x m ih =>
    obtain ⟨k, u⟩ := x
    rw [Memory.put] at h
    split at h
    · rcases List.mem_cons.mp h with rfl | h
      · exact .inl rfl
      · exact .inr h
    · split at h
      · rcases List.mem_cons.mp h with rfl | h
        · exact .inl rfl
        · exact .inr (List.mem_cons_of_mem _ h)
      · rcases List.mem_cons.mp h with rfl | h
        · exact .inr List.mem_cons_self
        · exact (ih h).imp_right (List.mem_cons_of_mem _)

/-- A store keeps the canonical form. -/
theorem Memory.put_wf {m : Memory} (a : Nat) (v : Byte) (h : Memory.wf m) : Memory.wf (Memory.put m a v) := by
  induction m with
  | nil => simp [Memory.put, Memory.wf]
  | cons x m ih =>
    obtain ⟨k, u⟩ := x
    obtain ⟨hk, hm⟩ := List.pairwise_cons.mp h
    rw [Memory.put]
    split
    · rename_i hlt
      refine List.pairwise_cons.mpr ⟨fun c hc => ?_, h⟩
      rcases List.mem_cons.mp hc with rfl | hc
      · exact hlt
      · exact Nat.lt_trans hlt (hk c hc)
    · split
      · rename_i heq
        subst heq
        exact List.pairwise_cons.mpr ⟨hk, hm⟩
      · refine List.pairwise_cons.mpr ⟨fun c hc => ?_, ih hm⟩
        rcases Memory.mem_put hc with rfl | hc
        · simp only; omega
        · exact hk c hc

theorem Memory.putBytes_wf {m : Memory} (a : Nat) (bs : Bytes) (h : Memory.wf m) :
    Memory.wf (Memory.putBytes m a bs) := by
  induction bs generalizing m a with
  | nil => exact h
  | cons b bs ih => exact ih _ (Memory.put_wf a b h)

/-- The addresses listed after a store of a byte string. -/
theorem Memory.mem_putBytes {m : Memory} {a : Nat} {bs : Bytes} {c : Host.Cell} (h : c ∈ Memory.putBytes m a bs) :
    (a ≤ c.1 ∧ c.1 < a + bs.length) ∨ c ∈ m := by
  induction bs generalizing m a with
  | nil => exact .inr h
  | cons b bs ih =>
    rcases ih h with h | h
    · left; simp; omega
    · rcases Memory.mem_put h with h | h
      · left; simp; omega
      · exact .inr h

/-- A store inside BUF keeps every address inside BUF. -/
theorem Memory.putBytes_inRange {m : Memory} {n a : Nat} {bs : Bytes} (h : ∀ c ∈ m, c.1 < n)
    (hb : bs.length = 0 ∨ a + bs.length ≤ n) : ∀ c ∈ Memory.putBytes m a bs, c.1 < n := by
  intro c hc
  rcases Memory.mem_putBytes hc with hc | hc
  · omega
  · exact h c hc

end Sys2Proof.Machine
end

