-- ==== Sys2Proof/Laws/State.lean ====
section
/-! SUPPORT. What each update of the state leaves in each field: one lemma per field per update, true by definition. -/

namespace Sys2Proof.Machine.State

variable (s : State)

@[simp] theorem memWrite_cfg (a : Nat) (bs : Bytes) : (s.memWrite a bs).cfg = s.cfg := rfl
@[simp] theorem memWrite_irqEn (a : Nat) (bs : Bytes) : (s.memWrite a bs).irqEn = s.irqEn := rfl
@[simp] theorem memWrite_phase (a : Nat) (bs : Bytes) : (s.memWrite a bs).phase = s.phase := rfl
@[simp] theorem memWrite_done (a : Nat) (bs : Bytes) : (s.memWrite a bs).done = s.done := rfl
@[simp] theorem memWrite_overrun (a : Nat) (bs : Bytes) : (s.memWrite a bs).overrun = s.overrun := rfl
@[simp] theorem memWrite_result (a : Nat) (bs : Bytes) : (s.memWrite a bs).result = s.result := rfl
@[simp] theorem memWrite_params (a : Nat) (bs : Bytes) : (s.memWrite a bs).params = s.params := rfl
@[simp] theorem memWrite_slots (a : Nat) (bs : Bytes) : (s.memWrite a bs).slots = s.slots := rfl
@[simp] theorem memWrite_latch (a : Nat) (bs : Bytes) : (s.memWrite a bs).latch = s.latch := rfl
@[simp] theorem memWrite_transient (a : Nat) (bs : Bytes) : (s.memWrite a bs).transient = s.transient := rfl
@[simp] theorem memWrite_buf (a : Nat) (bs : Bytes) : (s.memWrite a bs).buf = Memory.putBytes s.buf a bs := rfl
@[simp] theorem memWrite_epoch (a : Nat) (bs : Bytes) : (s.memWrite a bs).epoch = s.epoch := rfl
@[simp] theorem memWrite_draws (a : Nat) (bs : Bytes) : (s.memWrite a bs).draws = s.draws := rfl
@[simp] theorem memWrite_bus (a : Nat) (bs : Bytes) : (s.memWrite a bs).bus = s.bus := rfl
@[simp] theorem memWrite_agenda (a : Nat) (bs : Bytes) : (s.memWrite a bs).agenda = s.agenda := rfl

@[simp] theorem freeRegion_cfg (r : Region) : (s.freeRegion r).cfg = s.cfg := rfl
@[simp] theorem freeRegion_irqEn (r : Region) : (s.freeRegion r).irqEn = s.irqEn := rfl
@[simp] theorem freeRegion_phase (r : Region) : (s.freeRegion r).phase = s.phase := rfl
@[simp] theorem freeRegion_done (r : Region) : (s.freeRegion r).done = s.done := rfl
@[simp] theorem freeRegion_overrun (r : Region) : (s.freeRegion r).overrun = s.overrun := rfl
@[simp] theorem freeRegion_result (r : Region) : (s.freeRegion r).result = s.result := rfl
@[simp] theorem freeRegion_params (r : Region) : (s.freeRegion r).params = s.params := rfl
@[simp] theorem freeRegion_slots (r : Region) : (s.freeRegion r).slots = s.slots := rfl
@[simp] theorem freeRegion_latch (r : Region) : (s.freeRegion r).latch = s.latch := rfl
@[simp] theorem freeRegion_transient (r : Region) : (s.freeRegion r).transient = s.transient := rfl
@[simp] theorem freeRegion_buf (r : Region) :
    (s.freeRegion r).buf =
      Memory.putBytes s.buf r.addr (s.freeBytes (min r.len (s.cfg.bufSize - r.addr))) := rfl
@[simp] theorem freeRegion_epoch (r : Region) : (s.freeRegion r).epoch = s.epoch := rfl
@[simp] theorem freeRegion_draws (r : Region) : (s.freeRegion r).draws = s.draws + min r.len (s.cfg.bufSize - r.addr) :=
  rfl
@[simp] theorem freeRegion_bus (r : Region) : (s.freeRegion r).bus = s.bus := rfl
@[simp] theorem freeRegion_agenda (r : Region) : (s.freeRegion r).agenda = s.agenda := rfl

@[simp] theorem setSlot_cfg (c : Nat) (sl : Slot) : (s.setSlot c sl).cfg = s.cfg := rfl
@[simp] theorem setSlot_irqEn (c : Nat) (sl : Slot) : (s.setSlot c sl).irqEn = s.irqEn := rfl
@[simp] theorem setSlot_phase (c : Nat) (sl : Slot) : (s.setSlot c sl).phase = s.phase := rfl
@[simp] theorem setSlot_done (c : Nat) (sl : Slot) : (s.setSlot c sl).done = s.done := rfl
@[simp] theorem setSlot_overrun (c : Nat) (sl : Slot) : (s.setSlot c sl).overrun = s.overrun := rfl
@[simp] theorem setSlot_result (c : Nat) (sl : Slot) : (s.setSlot c sl).result = s.result := rfl
@[simp] theorem setSlot_params (c : Nat) (sl : Slot) : (s.setSlot c sl).params = s.params := rfl
@[simp] theorem setSlot_slots (c : Nat) (sl : Slot) : (s.setSlot c sl).slots = s.slots.set c sl := rfl
@[simp] theorem setSlot_latch (c : Nat) (sl : Slot) : (s.setSlot c sl).latch = s.latch := rfl
@[simp] theorem setSlot_transient (c : Nat) (sl : Slot) : (s.setSlot c sl).transient = s.transient := rfl
@[simp] theorem setSlot_buf (c : Nat) (sl : Slot) : (s.setSlot c sl).buf = s.buf := rfl
@[simp] theorem setSlot_epoch (c : Nat) (sl : Slot) : (s.setSlot c sl).epoch = s.epoch := rfl
@[simp] theorem setSlot_draws (c : Nat) (sl : Slot) : (s.setSlot c sl).draws = s.draws := rfl
@[simp] theorem setSlot_bus (c : Nat) (sl : Slot) : (s.setSlot c sl).bus = s.bus := rfl
@[simp] theorem setSlot_agenda (c : Nat) (sl : Slot) : (s.setSlot c sl).agenda = s.agenda := rfl

@[simp] theorem accept_cfg (w : Word) : (s.accept w).cfg = s.cfg := rfl
@[simp] theorem accept_irqEn (w : Word) : (s.accept w).irqEn = s.irqEn := rfl
@[simp] theorem accept_phase (w : Word) : (s.accept w).phase = .busy := rfl
@[simp] theorem accept_done (w : Word) : (s.accept w).done = false := rfl
@[simp] theorem accept_overrun (w : Word) : (s.accept w).overrun = s.overrun := rfl
@[simp] theorem accept_result (w : Word) : (s.accept w).result = s.result := rfl
@[simp] theorem accept_params (w : Word) : (s.accept w).params = s.params := rfl
@[simp] theorem accept_slots (w : Word) : (s.accept w).slots = s.slots := rfl
@[simp] theorem accept_latch (w : Word) : (s.accept w).latch = ⟨w, s.params, s.buf, false⟩ := rfl
@[simp] theorem accept_transient (w : Word) : (s.accept w).transient = s.transient := rfl
@[simp] theorem accept_buf (w : Word) : (s.accept w).buf = s.buf := rfl
@[simp] theorem accept_epoch (w : Word) : (s.accept w).epoch = s.epoch := rfl
@[simp] theorem accept_draws (w : Word) : (s.accept w).draws = s.draws := rfl
@[simp] theorem accept_bus (w : Word) : (s.accept w).bus = s.bus := rfl
@[simp] theorem accept_agenda (w : Word) : (s.accept w).agenda = s.agenda := rfl

@[simp] theorem complete_cfg (k : ResultCode) (c : Nat) : (s.complete k c).cfg = s.cfg := rfl
@[simp] theorem complete_irqEn (k : ResultCode) (c : Nat) : (s.complete k c).irqEn = s.irqEn := rfl
@[simp] theorem complete_phase (k : ResultCode) (c : Nat) : (s.complete k c).phase = .idle := rfl
@[simp] theorem complete_done (k : ResultCode) (c : Nat) : (s.complete k c).done = true := rfl
@[simp] theorem complete_overrun (k : ResultCode) (c : Nat) : (s.complete k c).overrun = s.overrun := rfl
@[simp] theorem complete_result (k : ResultCode) (c : Nat) : (s.complete k c).result = ⟨k, BitVec.ofNat 4 c⟩ := rfl
@[simp] theorem complete_params (k : ResultCode) (c : Nat) : (s.complete k c).params = s.params := rfl
@[simp] theorem complete_slots (k : ResultCode) (c : Nat) : (s.complete k c).slots = s.slots := rfl
@[simp] theorem complete_latch (k : ResultCode) (c : Nat) : (s.complete k c).latch = Latch.empty := rfl
@[simp] theorem complete_transient (k : ResultCode) (c : Nat) : (s.complete k c).transient = Transient.zero := rfl
@[simp] theorem complete_buf (k : ResultCode) (c : Nat) : (s.complete k c).buf = s.buf := rfl
@[simp] theorem complete_epoch (k : ResultCode) (c : Nat) : (s.complete k c).epoch = s.epoch := rfl
@[simp] theorem complete_draws (k : ResultCode) (c : Nat) : (s.complete k c).draws = s.draws := rfl
@[simp] theorem complete_bus (k : ResultCode) (c : Nat) : (s.complete k c).bus = s.bus := rfl
@[simp] theorem complete_agenda (k : ResultCode) (c : Nat) : (s.complete k c).agenda = s.agenda := rfl

@[simp] theorem clearAll_cfg : (s.clearAll).cfg = s.cfg := rfl
@[simp] theorem clearAll_irqEn : (s.clearAll).irqEn = false := rfl
@[simp] theorem clearAll_phase : (s.clearAll).phase = .idle := rfl
@[simp] theorem clearAll_done : (s.clearAll).done = false := rfl
@[simp] theorem clearAll_overrun : (s.clearAll).overrun = false := rfl
@[simp] theorem clearAll_result : (s.clearAll).result = Result.zero := rfl
@[simp] theorem clearAll_params : (s.clearAll).params = Params.zero := rfl
@[simp] theorem clearAll_slots : (s.clearAll).slots = List.replicate s.cfg.numCtx Slot.free := rfl
@[simp] theorem clearAll_latch : (s.clearAll).latch = Latch.empty := rfl
@[simp] theorem clearAll_transient : (s.clearAll).transient = Transient.zero := rfl
@[simp] theorem clearAll_buf : (s.clearAll).buf = s.buf := rfl
@[simp] theorem clearAll_epoch : (s.clearAll).epoch = s.epoch := rfl
@[simp] theorem clearAll_draws : (s.clearAll).draws = s.draws := rfl
@[simp] theorem clearAll_bus : (s.clearAll).bus = s.bus := rfl
@[simp] theorem clearAll_agenda : (s.clearAll).agenda = s.agenda := rfl

@[simp] theorem hardReset_cfg : (s.hardReset).cfg = s.cfg := rfl
@[simp] theorem hardReset_irqEn : (s.hardReset).irqEn = false := rfl
@[simp] theorem hardReset_phase : (s.hardReset).phase = .idle := rfl
@[simp] theorem hardReset_done : (s.hardReset).done = false := rfl
@[simp] theorem hardReset_overrun : (s.hardReset).overrun = false := rfl
@[simp] theorem hardReset_result : (s.hardReset).result = Result.zero := rfl
@[simp] theorem hardReset_params : (s.hardReset).params = Params.zero := rfl
@[simp] theorem hardReset_slots : (s.hardReset).slots = List.replicate s.cfg.numCtx Slot.free := rfl
@[simp] theorem hardReset_latch : (s.hardReset).latch = Latch.empty := rfl
@[simp] theorem hardReset_transient : (s.hardReset).transient = Transient.zero := rfl
@[simp] theorem hardReset_buf : (s.hardReset).buf = [] := rfl
@[simp] theorem hardReset_epoch : (s.hardReset).epoch = s.epoch + 1 := rfl
@[simp] theorem hardReset_draws : (s.hardReset).draws = s.draws := rfl
@[simp] theorem hardReset_bus : (s.hardReset).bus = none := rfl
@[simp] theorem hardReset_agenda : (s.hardReset).agenda = s.agenda := rfl

@[simp] theorem writeStatus_cfg (v : Word) : (s.writeStatus v).cfg = s.cfg := rfl
@[simp] theorem writeStatus_irqEn (v : Word) : (s.writeStatus v).irqEn = s.irqEn := rfl
@[simp] theorem writeStatus_phase (v : Word) : (s.writeStatus v).phase = s.phase := rfl
@[simp] theorem writeStatus_done (v : Word) : (s.writeStatus v).done = (s.done && !v.getLsbD 1) := rfl
@[simp] theorem writeStatus_overrun (v : Word) : (s.writeStatus v).overrun = (s.overrun && !v.getLsbD 2) := rfl
@[simp] theorem writeStatus_result (v : Word) : (s.writeStatus v).result = s.result := rfl
@[simp] theorem writeStatus_params (v : Word) : (s.writeStatus v).params = s.params := rfl
@[simp] theorem writeStatus_slots (v : Word) : (s.writeStatus v).slots = s.slots := rfl
@[simp] theorem writeStatus_latch (v : Word) : (s.writeStatus v).latch = s.latch := rfl
@[simp] theorem writeStatus_transient (v : Word) : (s.writeStatus v).transient = s.transient := rfl
@[simp] theorem writeStatus_buf (v : Word) : (s.writeStatus v).buf = s.buf := rfl
@[simp] theorem writeStatus_epoch (v : Word) : (s.writeStatus v).epoch = s.epoch := rfl
@[simp] theorem writeStatus_draws (v : Word) : (s.writeStatus v).draws = s.draws := rfl
@[simp] theorem writeStatus_bus (v : Word) : (s.writeStatus v).bus = s.bus := rfl
@[simp] theorem writeStatus_agenda (v : Word) : (s.writeStatus v).agenda = s.agenda := rfl

@[simp] theorem writeIrqEn_cfg (v : Word) : (s.writeIrqEn v).cfg = s.cfg := rfl
@[simp] theorem writeIrqEn_irqEn (v : Word) : (s.writeIrqEn v).irqEn = v.getLsbD 0 := rfl
@[simp] theorem writeIrqEn_phase (v : Word) : (s.writeIrqEn v).phase = s.phase := rfl
@[simp] theorem writeIrqEn_done (v : Word) : (s.writeIrqEn v).done = s.done := rfl
@[simp] theorem writeIrqEn_overrun (v : Word) : (s.writeIrqEn v).overrun = s.overrun := rfl
@[simp] theorem writeIrqEn_result (v : Word) : (s.writeIrqEn v).result = s.result := rfl
@[simp] theorem writeIrqEn_params (v : Word) : (s.writeIrqEn v).params = s.params := rfl
@[simp] theorem writeIrqEn_slots (v : Word) : (s.writeIrqEn v).slots = s.slots := rfl
@[simp] theorem writeIrqEn_latch (v : Word) : (s.writeIrqEn v).latch = s.latch := rfl
@[simp] theorem writeIrqEn_transient (v : Word) : (s.writeIrqEn v).transient = s.transient := rfl
@[simp] theorem writeIrqEn_buf (v : Word) : (s.writeIrqEn v).buf = s.buf := rfl
@[simp] theorem writeIrqEn_epoch (v : Word) : (s.writeIrqEn v).epoch = s.epoch := rfl
@[simp] theorem writeIrqEn_draws (v : Word) : (s.writeIrqEn v).draws = s.draws := rfl
@[simp] theorem writeIrqEn_bus (v : Word) : (s.writeIrqEn v).bus = s.bus := rfl
@[simp] theorem writeIrqEn_agenda (v : Word) : (s.writeIrqEn v).agenda = s.agenda := rfl

@[simp] theorem respond_cfg (e : Bool) (d : Word) : (s.respond e d).cfg = s.cfg := rfl
@[simp] theorem respond_irqEn (e : Bool) (d : Word) : (s.respond e d).irqEn = s.irqEn := rfl
@[simp] theorem respond_phase (e : Bool) (d : Word) : (s.respond e d).phase = s.phase := rfl
@[simp] theorem respond_done (e : Bool) (d : Word) : (s.respond e d).done = s.done := rfl
@[simp] theorem respond_overrun (e : Bool) (d : Word) : (s.respond e d).overrun = s.overrun := rfl
@[simp] theorem respond_result (e : Bool) (d : Word) : (s.respond e d).result = s.result := rfl
@[simp] theorem respond_params (e : Bool) (d : Word) : (s.respond e d).params = s.params := rfl
@[simp] theorem respond_slots (e : Bool) (d : Word) : (s.respond e d).slots = s.slots := rfl
@[simp] theorem respond_latch (e : Bool) (d : Word) : (s.respond e d).latch = s.latch := rfl
@[simp] theorem respond_transient (e : Bool) (d : Word) : (s.respond e d).transient = s.transient := rfl
@[simp] theorem respond_buf (e : Bool) (d : Word) : (s.respond e d).buf = s.buf := rfl
@[simp] theorem respond_epoch (e : Bool) (d : Word) : (s.respond e d).epoch = s.epoch := rfl
@[simp] theorem respond_draws (e : Bool) (d : Word) : (s.respond e d).draws = s.draws := rfl
@[simp] theorem respond_bus (e : Bool) (d : Word) : (s.respond e d).bus = some ⟨e, d⟩ := rfl
@[simp] theorem respond_agenda (e : Bool) (d : Word) : (s.respond e d).agenda = s.agenda := rfl

end Sys2Proof.Machine.State
end

