-- ==== Sys2Proof/Laws/Ops.lean ====
section
/-! SUPPORT. What each shared operation can do, said once: memory reads and writes, free regions, slots, completion, and
the checks as the propositions of Safety. -/

namespace Sys2Proof.Machine

/-! ### Reading and writing BUF -/

@[simp] theorem State.bufByte_complete (s : State) (k : ResultCode) (c a : Nat) :
    (s.complete k c).bufByte a = s.bufByte a := rfl

@[simp] theorem State.bufByte_setSlot (s : State) (c : Nat) (sl : Slot) (a : Nat) :
    (s.setSlot c sl).bufByte a = s.bufByte a := rfl

@[simp] theorem State.bufByte_respond (s : State) (e : Bool) (d : Word) (a : Nat) :
    (s.respond e d).bufByte a = s.bufByte a := rfl

@[simp] theorem State.bufByte_clearAll (s : State) (a : Nat) : s.clearAll.bufByte a = s.bufByte a := rfl

@[simp] theorem State.bufByte_accept (s : State) (w : Word) (a : Nat) : (s.accept w).bufByte a = s.bufByte a := rfl

@[simp] theorem State.snapByte_accept (s : State) (w : Word) (a : Nat) : (s.accept w).snapByte a = s.bufByte a := rfl

@[simp] theorem State.memRead_length (s : State) (r : Region) : (s.memRead r).length = r.len := by simp [State.memRead]

theorem State.getElem_memRead (s : State) (r : Region) {i : Nat} (h : i < (s.memRead r).length) :
    (s.memRead r)[i] = s.snapByte (r.addr + i) := by simp [State.memRead]

/-- BUF after a write: the written bytes at their addresses. -/
theorem State.memWrite_has (s : State) (a : Nat) (bs : Bytes) : (s.memWrite a bs).BufHas a bs := fun j h =>
  Memory.read_putBytes_inside _ _ _ _ j h

/-- BUF after a write: every other byte as before. -/
theorem State.memWrite_outside (s : State) (a : Nat) (bs : Bytes) (b : Nat) (h : ¬ (a ≤ b ∧ b < a + bs.length)) :
    (s.memWrite a bs).bufByte b = s.bufByte b := Memory.read_putBytes_outside _ _ _ _ _ h

theorem State.memWrite_legal {s : State} {n a : Nat} {bs : Bytes} (h : Memory.Legal s.buf n)
    (hb : bs.length = 0 ∨ a + bs.length ≤ n) : Memory.Legal (s.memWrite a bs).buf n :=
  ⟨Memory.putBytes_wf _ _ h.1, Memory.putBytes_inRange h.2 hb⟩

/-- The bytes of the region a byte string was written to are the byte string. -/
theorem State.bufBytes_memWrite (s : State) (r : Region) (bs : Bytes) (h : bs.length = r.len) :
    (s.memWrite r.addr bs).bufBytes r = bs := by
  apply List.ext_getElem (by simp [State.bufBytes, h])
  intro i h1 h2
  simp only [State.bufBytes, List.getElem_map, List.getElem_range]
  exact s.memWrite_has r.addr bs i h2

/-- The bytes of a region that a write does not touch are as before. -/
theorem State.bufBytes_memWrite_of_disjoint (s : State) (r : Region) (a : Nat) (bs : Bytes)
    (h : r.len = 0 ∨ bs.length = 0 ∨ r.addr + r.len ≤ a ∨ a + bs.length ≤ r.addr) :
    (s.memWrite a bs).bufBytes r = s.bufBytes r := by
  apply List.map_congr_left
  intro i hi
  have := List.mem_range.mp hi
  exact s.memWrite_outside _ _ _ (by omega)

/-- The block at the address a block was written to is the block. -/
theorem State.bufBlock_memWrite (s : State) (a : Nat) (b : Block) :
    (s.memWrite a (bytesOfBlock b)).bufBlock a = b :=
  block_ext fun i hi => by
    rw [State.bufBlock, blockByte_blockOfFn _ hi, s.memWrite_has a _ i (by simpa using hi), getElem_bytesOfBlock]

@[simp] theorem State.bufBytes_complete (s : State) (k : ResultCode) (c : Nat) (r : Region) :
    (s.complete k c).bufBytes r = s.bufBytes r := rfl

@[simp] theorem State.bufBlock_complete (s : State) (k : ResultCode) (c a : Nat) :
    (s.complete k c).bufBlock a = s.bufBlock a := rfl

/-- The block a 16-byte region held at acceptance. -/
theorem State.blockOfBytes_memRead (s : State) (a : Nat) : blockOfBytes (s.memRead ⟨a, 16⟩) = s.snapBlock a := rfl

/-- Block `n` of a region's bytes at acceptance. -/
theorem State.getElem_blocksOf_memRead (s : State) (r : Region) {n : Nat} (h : n < (blocksOf (s.memRead r)).length) :
    (blocksOf (s.memRead r))[n] = s.snapBlock (r.addr + 16 * n) := by
  have hn : 16 * n + 16 ≤ r.len := by simp at h; omega
  rw [getElem_blocksOf, ← State.blockOfBytes_memRead]
  congr 1
  apply List.ext_getElem (by simp; omega)
  intro i h1 h2
  simp only [List.getElem_take, List.getElem_drop, State.getElem_memRead]
  congr 1
  omega

/-- Block `n` of BUF after whole blocks were written at an address. -/
theorem State.bufBlock_memWrite_blocks (s : State) (a : Nat) (bs : List Block) {n : Nat} (h : n < bs.length) :
    (s.memWrite a (bytesOfBlocks bs)).bufBlock (a + 16 * n) = bs[n] := by
  refine block_ext fun i hi => ?_
  have hl : 16 * n + i < (bytesOfBlocks bs).length := by rw [bytesOfBlocks_length]; omega
  rw [State.bufBlock, blockByte_blockOfFn _ hi, Nat.add_assoc, s.memWrite_has a _ _ hl]
  have hb : bs[n] = blockOfBytes (((bytesOfBlocks bs).drop (16 * n)).take 16) := by
    have hn : n < (blocksOf (bytesOfBlocks bs)).length := by simpa using h
    rw [← getElem_blocksOf _ hn]
    simp
  have hlen : (((bytesOfBlocks bs).drop (16 * n)).take 16).length = 16 := by simp; omega
  rw [hb, blockByte_blockOfBytes hlen hi, List.getElem_take, List.getElem_drop]

/-! ### Free regions -/

@[simp] theorem State.freeBytes_length (s : State) (n : Nat) : (s.freeBytes n).length = n := by simp [State.freeBytes]

theorem State.freeRegion_outside (s : State) (r : Region) (a : Nat) (h : ¬ r.Holds a) :
    (s.freeRegion r).bufByte a = s.bufByte a := by
  apply Memory.read_putBytes_outside
  intro hc
  rw [State.freeBytes_length] at hc
  exact h ⟨hc.1, by omega⟩

/-- Inside a freed region, as far as BUF goes, every byte is a free byte. -/
theorem State.freeRegion_inside (s : State) (r : Region) (a : Nat) (h : r.Holds a) (ha : a < s.cfg.bufSize) :
    (s.freeRegion r).bufByte a = Config.freeByte (s.draws + (a - r.addr)) := by
  obtain ⟨h1, h2⟩ := h
  have hj : a - r.addr < (s.freeBytes (min r.len (s.cfg.bufSize - r.addr))).length := by simp; omega
  have := Memory.read_putBytes_inside s.epoch s.buf r.addr _ (a - r.addr) hj
  rw [show r.addr + (a - r.addr) = a by omega] at this
  rw [State.bufByte, State.freeRegion_epoch, State.freeRegion_buf, this]
  simp [State.freeBytes]

theorem State.freeRegion_bufFree (s : State) (r : Region) : (s.freeRegion r).BufFree r := fun a h ha =>
  ⟨_, State.freeRegion_inside s r a h ha⟩

theorem State.freeRegion_legal {s : State} (r : Region) (h : Memory.Legal s.buf s.cfg.bufSize) :
    Memory.Legal (s.freeRegion r).buf s.cfg.bufSize :=
  ⟨Memory.putBytes_wf _ _ h.1, Memory.putBytes_inRange h.2 (by simp; omega)⟩

/-- Freeing regions changes BUF and the draw counter, nothing else. -/
theorem State.freeRegions_eq (s : State) (rs : List Region) :
    ∃ m d, s.freeRegions rs = { s with buf := m, draws := d } := by
  induction rs generalizing s with
  | nil => exact ⟨s.buf, s.draws, rfl⟩
  | cons r rs ih =>
    obtain ⟨m, d, h⟩ := ih (s.freeRegion r)
    exact ⟨m, d, h⟩

@[simp] theorem State.freeRegions_cfg (s : State) (rs : List Region) : (s.freeRegions rs).cfg = s.cfg := by
  obtain ⟨m, d, h⟩ := s.freeRegions_eq rs; rw [h]

@[simp] theorem State.freeRegions_slots (s : State) (rs : List Region) : (s.freeRegions rs).slots = s.slots := by
  obtain ⟨m, d, h⟩ := s.freeRegions_eq rs; rw [h]

@[simp] theorem State.freeRegions_result (s : State) (rs : List Region) : (s.freeRegions rs).result = s.result := by
  obtain ⟨m, d, h⟩ := s.freeRegions_eq rs; rw [h]

@[simp] theorem State.freeRegions_epoch (s : State) (rs : List Region) : (s.freeRegions rs).epoch = s.epoch := by
  obtain ⟨m, d, h⟩ := s.freeRegions_eq rs; rw [h]

theorem State.freeRegions_outside (s : State) (rs : List Region) (a : Nat) (h : ∀ r ∈ rs, ¬ r.Holds a) :
    (s.freeRegions rs).bufByte a = s.bufByte a := by
  induction rs generalizing s with
  | nil => rfl
  | cons r rs ih =>
    obtain ⟨hr, hrs⟩ := List.forall_mem_cons.mp h
    exact (ih _ hrs).trans (s.freeRegion_outside r a hr)

/-- Inside the freed regions, as far as BUF goes, every byte is a free byte. -/
theorem State.freeRegions_inside (s : State) (rs : List Region) (a : Nat) (ha : a < s.cfg.bufSize)
    (h : (∃ r ∈ rs, r.Holds a) ∨ ∃ n, s.bufByte a = Config.freeByte n) :
    ∃ n, (s.freeRegions rs).bufByte a = Config.freeByte n := by
  induction rs generalizing s with
  | nil =>
    rcases h with ⟨r, hr, _⟩ | h
    · cases hr
    · exact h
  | cons r rs ih =>
    refine ih (s.freeRegion r) ha ?_
    by_cases hr : r.Holds a
    · exact .inr ⟨_, s.freeRegion_inside r a hr ha⟩
    · rcases h with ⟨q, hq, hqa⟩ | ⟨n, hn⟩
      · rcases List.mem_cons.mp hq with rfl | hq
        · exact absurd hqa hr
        · exact .inl ⟨q, hq, hqa⟩
      · exact .inr ⟨n, (s.freeRegion_outside r a hr).trans hn⟩

theorem State.freeRegions_legal {s : State} (rs : List Region) (h : Memory.Legal s.buf s.cfg.bufSize) :
    Memory.Legal (s.freeRegions rs).buf s.cfg.bufSize := by
  induction rs generalizing s with
  | nil => exact h
  | cons r rs ih => exact ih (s := s.freeRegion r) (State.freeRegion_legal r h)

/-! ### Slots -/

@[simp] theorem State.slot_complete (s : State) (k : ResultCode) (c d : Nat) : (s.complete k c).slot d = s.slot d := rfl

@[simp] theorem State.slot_memWrite (s : State) (a : Nat) (bs : Bytes) (d : Nat) :
    (s.memWrite a bs).slot d = s.slot d := rfl

@[simp] theorem State.slot_accept (s : State) (w : Word) (d : Nat) : (s.accept w).slot d = s.slot d := rfl

/-- A slot that exists holds what was written to it. -/
theorem State.slot_setSlot_self (s : State) (c : Nat) (sl : Slot) (h : c < s.slots.length) :
    (s.setSlot c sl).slot c = sl := by simp [State.slot, h]

/-- A write to a slot leaves every other slot alone. -/
theorem State.slot_setSlot_ne (s : State) {c d : Nat} (sl : Slot) (h : d ≠ c) : (s.setSlot c sl).slot d = s.slot d := by
  simp [State.slot, h.symm]

theorem State.slot_legal {s : State} (h : ∀ sl ∈ s.slots, sl.Legal) (c : Nat) : (s.slot c).Legal := by
  rw [State.slot, List.getD_eq_getElem?_getD]
  cases hc : s.slots[c]? with
  | none => simp [Slot.Legal, Slot.free]
  | some sl => exact h sl (List.mem_of_getElem? hc)

/-- The lowest free slot is free, exists, and no lower slot is free. -/
theorem State.lowestFree?_eq_some {s : State} {c : Nat} :
    s.lowestFree? = some c ↔ c < s.cfg.numCtx ∧ (s.slot c).valid = false ∧ ∀ d < c, (s.slot d).valid = true := by
  rw [State.lowestFree?, List.find?_range_eq_some]
  simp only [List.mem_range]
  constructor
  · rintro ⟨h1, h2, h3⟩
    exact ⟨h2, by simpa using h1, fun d hd => by simpa using h3 d hd⟩
  · rintro ⟨h1, h2, h3⟩
    exact ⟨by simpa using h2, h1, fun d hd => by simpa using h3 d hd⟩

theorem State.lowestFree?_eq_none {s : State} :
    s.lowestFree? = none ↔ ∀ c < s.cfg.numCtx, (s.slot c).valid = true := by
  simp [State.lowestFree?]

theorem Slot.free_legal : Slot.free.Legal := by simp [Slot.Legal, Slot.free]

/-- A slot made of a schedule of `nr + 1` round keys is legal. -/
theorem Slot.ofSchedule_legal {dir : Dir} {nr : Nat} {rk : List Block} (hnr : nr = 10 ∨ nr = 12 ∨ nr = 14)
    (hrk : rk.length = nr + 1) : (Slot.ofSchedule dir nr rk).Legal := by
  refine ⟨by simp [Slot.ofSchedule]; omega, ?_⟩
  simp only [Slot.ofSchedule, if_true]
  refine ⟨hnr, fun b hb => ?_⟩
  rw [List.drop_append_of_le_length (by omega), List.drop_eq_nil_of_le (by omega), List.nil_append] at hb
  exact List.eq_of_mem_replicate hb

/-! ### Completion -/

/-- Completing a state that differs from `s` in BUF, the slots and the draws alone is a completion of `s`. -/
theorem Completed.of_update (s : State) (m : Memory) (sl : List Slot) (d : Nat) (k : ResultCode) (c : Nat) :
    Completed s ({ s with buf := m, slots := sl, draws := d }.complete k c) k c :=
  ⟨rfl, rfl, rfl, rfl, rfl, rfl, rfl, rfl, rfl, rfl, rfl, rfl⟩

theorem Completed.of_complete (s : State) (k : ResultCode) (c : Nat) : Completed s (s.complete k c) k c :=
  .of_update s s.buf s.slots s.draws k c

theorem Completed.of_memWrite (s : State) (a : Nat) (bs : Bytes) (k : ResultCode) (c : Nat) :
    Completed s ((s.memWrite a bs).complete k c) k c := .of_update s (s.memWrite a bs).buf s.slots s.draws k c

theorem Completed.of_memWrite_memWrite (s : State) (a b : Nat) (bs cs : Bytes) (k : ResultCode) (c : Nat) :
    Completed s (((s.memWrite a bs).memWrite b cs).complete k c) k c :=
  .of_update s ((s.memWrite a bs).memWrite b cs).buf s.slots s.draws k c

theorem Completed.of_setSlot (s : State) (n : Nat) (sl : Slot) (k : ResultCode) (c : Nat) :
    Completed s ((s.setSlot n sl).complete k c) k c := .of_update s s.buf (s.setSlot n sl).slots s.draws k c

theorem Completed.of_freeRegion (s : State) (r : Region) (k : ResultCode) (c : Nat) :
    Completed s ((s.freeRegion r).complete k c) k c :=
  .of_update s (s.freeRegion r).buf s.slots (s.freeRegion r).draws k c

/-! ### The checks as propositions -/

theorem keyLengthOk_iff (n : Nat) : keyLengthOk n = true ↔ KeyLengthLegal n := by simp [keyLengthOk, or_assoc]

theorem Region.inBounds_iff (r : Region) (s : State) : r.inBounds s.cfg.bufSize = true ↔ r.Fits s := by
  simp [Region.inBounds]

theorem Region.overlaps_iff (r q : Region) : r.overlaps q = true ↔ r.Meets q := by simp [Region.overlaps]

theorem Region.identical_iff (r q : Region) : r.identical q = true ↔ r = q := by
  cases r; cases q; simp [Region.identical]

theorem Region.has_iff (r : Region) (a : Nat) : r.has a = true ↔ r.Holds a := by simp [Region.has]

theorem pairwiseDisjoint_iff (rs : List Region) :
    pairwiseDisjoint rs = true ↔ rs.Pairwise fun o q => ¬ o.Meets q := by
  induction rs with
  | nil => simp [pairwiseDisjoint]
  | cons r rs ih => simp [pairwiseDisjoint, ih, ← Region.overlaps_iff]

theorem regionsOk_iff (others : List Region) (primary : Option Region) (outputs : List Region) :
    regionsOk others primary outputs = true ↔ RegionsLegal others primary outputs := by
  simp only [regionsOk, RegionsLegal, Bool.and_eq_true, pairwiseDisjoint_iff, List.all_eq_true, Bool.or_eq_true,
    Region.identical_iff, Bool.not_eq_true', ← Region.overlaps_iff, Bool.not_eq_true]

theorem State.boundsOk_iff (s : State) (i : Instr) : s.boundsOk i = true ↔ ∀ r ∈ s.regions i, r.Fits s := by
  simp only [State.boundsOk, List.all_eq_true, Region.inBounds_iff]

/-- The bounds check of CMAC_VEC in the rule's two steps (60_exceptions.md R209): the key, the table and the tag, and then
every segment. -/
theorem State.boundsOk_cmacVec (s : State) :
    s.boundsOk .cmacVec = true ↔
      (∀ r ∈ [s.latch.x.keyRegion, s.latch.x.tableRegion, s.latch.x.macRegion], r.Fits s) ∧ ∀ r ∈ s.segments, r.Fits s := by
  have hs : (∀ r ∈ s.readSegments, r.Fits s) ∧ s.latch.x.tableRegion.Fits s
      ↔ (∀ r ∈ s.segments, r.Fits s) ∧ s.latch.x.tableRegion.Fits s := by
    refine and_congr_left fun h => ?_
    rw [State.readSegments, State.tableReadable, if_pos ((Region.inBounds_iff _ _).mpr h)]
  rw [State.boundsOk_iff]
  simp only [State.regions, State.inputs, State.otherInputs, Params.primary, Params.outputs, List.mem_append, List.mem_cons,
    List.not_mem_nil, or_false, Option.toList_none, or_imp, forall_and, forall_eq]
  tauto

theorem State.overlapOk_iff (s : State) (i : Instr) :
    s.overlapOk i = true ↔ RegionsLegal (s.otherInputs i) (s.latch.x.primary i) (s.latch.x.outputs i) :=
  regionsOk_iff _ _ _

/-- No check fails exactly when every check holds. -/
theorem firstFailure_eq_none (cs : List (Bool × ResultCode)) :
    firstFailure cs = none ↔ ∀ c ∈ cs, c.1 = true := by
  induction cs with
  | nil => simp [firstFailure]
  | cons c cs ih =>
    obtain ⟨ok, k⟩ := c
    cases ok <;> simp [firstFailure, ih]

/-- The checks of a command all hold. -/
theorem State.checks_pass_iff (s : State) (i : Instr) :
    firstFailure (s.checks i) = none ↔
      s.contextOk i = true ∧ s.latch.x.keyOk i = true ∧ s.latch.x.scalarsOk i = true ∧ s.boundsOk i = true
        ∧ s.overlapOk i = true ∧ s.allocOk i = true := by
  simp [firstFailure_eq_none, State.checks]

/-- Where the checks hold, the body runs. -/
theorem State.checked_pass {s : State} {i : Instr} {body : State} (h : firstFailure (s.checks i) = none) :
    s.checked i body = .next body := by simp [State.checked, h]

/-- Where a check fails, its code is all that happens. -/
theorem State.checked_fail {s : State} {i : Instr} {body : State} {k : ResultCode}
    (h : firstFailure (s.checks i) = some k) : s.checked i body = .next (s.complete k 0) := by
  simp [State.checked, h]

/-- All that a checked command can answer. -/
theorem State.checked_cases {s t : State} {i : Instr} {body : State} (h : s.checked i body = .next t) :
    (∃ k, firstFailure (s.checks i) = some k ∧ t = s.complete k 0) ∨ (firstFailure (s.checks i) = none ∧ t = body) := by
  rw [State.checked] at h
  split at h <;> rename_i hk <;> cases h
  · exact .inl ⟨_, hk, rfl⟩
  · exact .inr ⟨hk, rfl⟩

end Sys2Proof.Machine
end

