-- ==== Sys2Proof/Laws/Aes.lean ====
section
/-! SUPPORT. The sizes of the key schedules, the bytes of the round transforms, and that each inverse transform undoes its
transform. -/

namespace Sys2Proof.Machine

theorem extendKeyWords_length (nk n : Nat) (w : List Word) : (extendKeyWords nk n w).length = w.length + n := by
  induction n generalizing w with
  | zero => rfl
  | succ n ih => simp [extendKeyWords, ih]; omega

@[simp] theorem keyExpansion_length (key : Bytes) : (keyExpansion key).length = roundCount key.length + 1 := by
  simp [keyExpansion]

@[simp] theorem decryptSchedule_length (nr : Nat) (ek : List Block) : (decryptSchedule nr ek).length = nr + 1 := by
  simp [decryptSchedule]

/-- A legal key has 10, 12 or 14 rounds. -/
theorem roundCount_of_legal {n : Nat} (h : KeyLengthLegal n) :
    roundCount n = 10 ∨ roundCount n = 12 ∨ roundCount n = 14 := by
  rcases h with rfl | rfl | rfl <;> decide

theorem blockByte_addRoundKey (s k : Block) (i : Nat) :
    blockByte (addRoundKey s k) i = blockByte s i ^^^ blockByte k i := blockByte_xor s k i

theorem blockByte_subBytes (s : Block) {i : Nat} (h : i < 16) : blockByte (subBytes s) i = sbox (blockByte s i) :=
  blockByte_blockOfFn _ h

theorem blockByte_invSubBytes (s : Block) {i : Nat} (h : i < 16) :
    blockByte (invSubBytes s) i = invSbox (blockByte s i) := blockByte_blockOfFn _ h

theorem blockByte_shiftRows (s : Block) {i : Nat} (h : i < 16) :
    blockByte (shiftRows s) i = blockByte s (i % 4 + 4 * ((i / 4 + i % 4) % 4)) := blockByte_blockOfFn _ h

theorem blockByte_invShiftRows (s : Block) {i : Nat} (h : i < 16) :
    blockByte (invShiftRows s) i = blockByte s (i % 4 + 4 * ((i / 4 + 4 - i % 4) % 4)) := blockByte_blockOfFn _ h

theorem blockByte_mulColumns (k0 k1 k2 k3 : Byte) (s : Block) {i : Nat} (h : i < 16) :
    blockByte (mulColumns k0 k1 k2 k3 s) i =
      gf8Mul k0 (blockByte s (4 * (i / 4) + (i % 4 + 0) % 4)) ^^^ gf8Mul k1 (blockByte s (4 * (i / 4) + (i % 4 + 1) % 4))
        ^^^ gf8Mul k2 (blockByte s (4 * (i / 4) + (i % 4 + 2) % 4))
        ^^^ gf8Mul k3 (blockByte s (4 * (i / 4) + (i % 4 + 3) % 4)) := blockByte_blockOfFn _ h

/-! ### The inverse transforms -/

theorem invSbox_sbox (a : Byte) : invSbox (sbox a) = a := by
  revert a
  decide +kernel

theorem invSubBytes_subBytes (s : Block) : invSubBytes (subBytes s) = s :=
  block_ext fun i hi => by rw [blockByte_invSubBytes _ hi, blockByte_subBytes _ hi, invSbox_sbox]

theorem invShiftRows_shiftRows (s : Block) : invShiftRows (shiftRows s) = s :=
  block_ext fun i hi => by
    rw [blockByte_invShiftRows _ hi, blockByte_shiftRows _ (by omega)]
    congr 1
    omega

/-- Byte substitution and row shifting commute. -/
theorem invSubBytes_shiftRows (s : Block) : invSubBytes (shiftRows s) = shiftRows (invSubBytes s) :=
  block_ext fun i hi => by
    rw [blockByte_invSubBytes _ hi, blockByte_shiftRows _ hi, blockByte_shiftRows _ hi,
      blockByte_invSubBytes _ (by omega)]

theorem gf8Terms_xor (a b : Byte) (n : Nat) (p : Byte) :
    gf8Terms (a ^^^ b) n p = gf8Terms a n p ^^^ gf8Terms b n p := by
  induction n generalizing p with
  | zero => simp [gf8Terms]
  | succ n ih =>
    simp only [gf8Terms, ih, BitVec.getLsbD_xor]
    cases a.getLsbD (7 - n) <;> cases b.getLsbD (7 - n) <;> simp <;> ac_nf
    simp

/-- A product distributes over a sum in its second factor (40_aes_core.md R91). -/
theorem gf8Mul_xor (k a b : Byte) : gf8Mul k (a ^^^ b) = gf8Mul k a ^^^ gf8Mul k b := gf8Terms_xor a b 8 k

/-- Multiplying columns distributes over a sum of blocks. -/
theorem mulColumns_xor (k0 k1 k2 k3 : Byte) (s t : Block) :
    mulColumns k0 k1 k2 k3 (s ^^^ t) = mulColumns k0 k1 k2 k3 s ^^^ mulColumns k0 k1 k2 k3 t :=
  block_ext fun i hi => by
    rw [blockByte_xor, blockByte_mulColumns _ _ _ _ _ hi, blockByte_mulColumns _ _ _ _ _ hi,
      blockByte_mulColumns _ _ _ _ _ hi]
    simp only [blockByte_xor, gf8Mul_xor]
    ac_rfl

theorem invMixColumns_xor (s t : Block) : invMixColumns (s ^^^ t) = invMixColumns s ^^^ invMixColumns t :=
  mulColumns_xor ..

/-- The products of the two circulant matrices' coefficients: the unit matrix (40_aes_core.md R97). -/
theorem mixColumns_coefficients (a : Byte) :
    gf8Mul 0x0e (gf8Mul 0x02 a) ^^^ gf8Mul 0x0b (gf8Mul 0x01 a) ^^^ gf8Mul 0x0d (gf8Mul 0x01 a)
        ^^^ gf8Mul 0x09 (gf8Mul 0x03 a) = a
      ∧ gf8Mul 0x0e (gf8Mul 0x03 a) ^^^ gf8Mul 0x0b (gf8Mul 0x02 a) ^^^ gf8Mul 0x0d (gf8Mul 0x01 a)
        ^^^ gf8Mul 0x09 (gf8Mul 0x01 a) = 0
      ∧ gf8Mul 0x0e (gf8Mul 0x01 a) ^^^ gf8Mul 0x0b (gf8Mul 0x03 a) ^^^ gf8Mul 0x0d (gf8Mul 0x02 a)
        ^^^ gf8Mul 0x09 (gf8Mul 0x01 a) = 0
      ∧ gf8Mul 0x0e (gf8Mul 0x01 a) ^^^ gf8Mul 0x0b (gf8Mul 0x01 a) ^^^ gf8Mul 0x0d (gf8Mul 0x03 a)
        ^^^ gf8Mul 0x09 (gf8Mul 0x02 a) = 0 := by
  revert a
  decide +kernel

theorem invMixColumns_mixColumns (s : Block) : invMixColumns (mixColumns s) = s :=
  block_ext fun i hi => by
    have column : ∀ a0 a1 a2 a3 : Byte,
        gf8Mul 0x0e (gf8Mul 0x02 a0 ^^^ gf8Mul 0x03 a1 ^^^ gf8Mul 0x01 a2 ^^^ gf8Mul 0x01 a3)
          ^^^ gf8Mul 0x0b (gf8Mul 0x02 a1 ^^^ gf8Mul 0x03 a2 ^^^ gf8Mul 0x01 a3 ^^^ gf8Mul 0x01 a0)
          ^^^ gf8Mul 0x0d (gf8Mul 0x02 a2 ^^^ gf8Mul 0x03 a3 ^^^ gf8Mul 0x01 a0 ^^^ gf8Mul 0x01 a1)
          ^^^ gf8Mul 0x09 (gf8Mul 0x02 a3 ^^^ gf8Mul 0x03 a0 ^^^ gf8Mul 0x01 a1 ^^^ gf8Mul 0x01 a2) = a0 := by
      intro a0 a1 a2 a3
      have h0 := (mixColumns_coefficients a0).1
      have h1 := (mixColumns_coefficients a1).2.1
      have h2 := (mixColumns_coefficients a2).2.2.1
      have h3 := (mixColumns_coefficients a3).2.2.2
      have h := congrArg₂ (· ^^^ ·) (congrArg₂ (· ^^^ ·) h0 h1) (congrArg₂ (· ^^^ ·) h2 h3)
      refine Eq.trans ?_ (h.trans (by simp : a0 ^^^ 0 ^^^ (0 ^^^ 0) = a0))
      simp only [gf8Mul_xor]
      ac_rfl
    have byte : ∀ k, blockByte (mixColumns s) (4 * (i / 4) + (i % 4 + k) % 4)
        = gf8Mul 0x02 (blockByte s (4 * (i / 4) + (i % 4 + k) % 4))
          ^^^ gf8Mul 0x03 (blockByte s (4 * (i / 4) + (i % 4 + (k + 1)) % 4))
          ^^^ gf8Mul 0x01 (blockByte s (4 * (i / 4) + (i % 4 + (k + 2)) % 4))
          ^^^ gf8Mul 0x01 (blockByte s (4 * (i / 4) + (i % 4 + (k + 3)) % 4)) := by
      intro k
      rw [mixColumns, blockByte_mulColumns _ _ _ _ _ (by omega)]
      have index : ∀ m, 4 * ((4 * (i / 4) + (i % 4 + k) % 4) / 4)
          + ((4 * (i / 4) + (i % 4 + k) % 4) % 4 + m) % 4 = 4 * (i / 4) + (i % 4 + (k + m)) % 4 := by
        intro m; omega
      simp only [index]
      rw [Nat.add_zero]
    have wrap : ∀ k, (i % 4 + (4 + k)) % 4 = (i % 4 + k) % 4 := by intro k; omega
    rw [invMixColumns, blockByte_mulColumns _ _ _ _ _ hi]
    simp only [byte, Nat.reduceAdd]
    rw [show (i % 4 + 4) % 4 = (i % 4 + 0) % 4 by omega, show (i % 4 + 5) % 4 = (i % 4 + 1) % 4 by omega,
      show (i % 4 + 6) % 4 = (i % 4 + 2) % 4 by omega, column]
    congr 1
    omega

/-! ### Rounds -/

/-- The last of `n + 1` rounds. -/
theorem runRounds_succ (round : Block → Block → Block) (rk : List Block) (n r : Nat) (s : Block) :
    runRounds round rk (n + 1) r s = round (rk.getD (r + n) 0) (runRounds round rk n r s) := by
  induction n generalizing r s with
  | zero => rfl
  | succ n ih => rw [runRounds, ih, show r + 1 + n = r + (n + 1) by omega]; rfl

end Sys2Proof.Machine
end

