-- ==== Sys2Proof/Laws/Decode.lean ====
section
/-! SUPPORT. The fields of an encoded command word, and what decoding answers case by case. -/

namespace Sys2Proof

theorem rsvOf_encode (i : Instr) : rsvOf (encode i) = 0 := by
  rw [rsvOf, encode]
  apply BitVec.eq_of_getLsbD_eq
  intro j hj
  simp only [BitVec.getLsbD_extractLsb', BitVec.getLsbD_append]
  simp [show ¬ 12 + j < 8 by omega, show ¬ 12 + j - 8 < 4 by omega]

theorem ctxOf_encode (i : Instr) : ctxOf (encode i) = i.ctxField := by
  rw [ctxOf, encode]
  apply BitVec.eq_of_getLsbD_eq
  intro j hj
  simp only [BitVec.getLsbD_extractLsb', BitVec.getLsbD_append]
  simp [show ¬ 8 + j < 8 by omega, hj]

theorem opcOf_encode (i : Instr) : opcOf (encode i) = i.opc := by
  rw [opcOf, encode]
  apply BitVec.eq_of_getLsbD_eq
  intro j hj
  simp only [BitVec.getLsbD_extractLsb', BitVec.getLsbD_append]
  simp [hj]

/-- A word is its three fields. -/
theorem word_of_fields (w : Word) : w = rsvOf w ++ ctxOf w ++ opcOf w := by
  apply BitVec.eq_of_getLsbD_eq
  intro j hj
  simp only [rsvOf, ctxOf, opcOf, BitVec.getLsbD_extractLsb', BitVec.getLsbD_append]
  by_cases h8 : j < 8
  · simp [h8]
  · by_cases h12 : j - 8 < 4
    · simp [h8, h12, show 8 + (j - 8) = j by omega]
    · simp [h8, h12, show 12 + (j - 8 - 4) = j by omega, show j - 8 - 4 < 20 by omega]

/-- Decoding answers a command exactly when RSV is zero, the opcode map has the OPC, and CTX is zero in format N. -/
theorem decode_eq_ok_iff (w : Word) (i : Instr) :
    decode w = .ok i ↔
      rsvOf w = 0 ∧ commandOf (opcOf w) (ctxOf w).toNat = some i ∧ (i.format = .n → ctxOf w = 0) := by
  unfold decode
  split
  · rename_i h; exact ⟨fun hx => (by cases hx), fun hx => absurd hx.1 h⟩
  · rename_i h
    have h : rsvOf w = 0 := Decidable.not_not.mp h
    split
    · rename_i hc; simp [hc]
    · rename_i j hc
      split
      · rename_i hf
        constructor
        · intro hx; cases hx
        · rintro ⟨-, hij, hz⟩
          rw [hc] at hij
          cases hij
          exact absurd (hz hf.1) hf.2
      · rename_i hf
        rw [hc]
        constructor
        · intro hx
          cases hx
          exact ⟨h, rfl, fun hn => Decidable.not_not.mp fun hz => hf ⟨hn, hz⟩⟩
        · rintro ⟨-, hij, -⟩
          cases hij
          rfl

end Sys2Proof
end

