-- ==== Sys2Proof/Laws/Modes.lean ====
section
/-! SUPPORT. The lengths of what the mode functions compute, and what their pieces are. -/

namespace Sys2Proof.Machine

/-! ### CBC -/

@[simp] theorem cbcEncrypt_length (E : Block → Block) (c : Block) (ps : List Block) :
    (cbcEncrypt E c ps).length = ps.length := by
  induction ps generalizing c with
  | nil => rfl
  | cons p ps ih => simp [cbcEncrypt, ih]

@[simp] theorem cbcDecrypt_length (D : Block → Block) (c : Block) (xs : List Block) :
    (cbcDecrypt D c xs).length = xs.length := by
  induction xs generalizing c with
  | nil => rfl
  | cons x xs ih => simp [cbcDecrypt, ih]

/-- Block `n` of a CBC encryption: the cipher of the chain value with the plain block. -/
theorem getElem_cbcEncrypt (E : Block → Block) (c : Block) (ps : List Block) {n : Nat}
    (h : n < (cbcEncrypt E c ps).length) :
    (cbcEncrypt E c ps)[n] =
      E ((if _h0 : n = 0 then c else (cbcEncrypt E c ps)[n - 1]'(by omega)) ^^^ ps[n]'(by simpa using h)) := by
  induction ps generalizing c n with
  | nil => simp [cbcEncrypt] at h
  | cons p ps ih =>
    cases n with
    | zero => simp [cbcEncrypt]
    | succ n =>
      have h' : n < (cbcEncrypt E (E (c ^^^ p)) ps).length := by simpa [cbcEncrypt] using h
      simp only [cbcEncrypt, List.getElem_cons_succ, ih _ h', Nat.add_sub_cancel]
      cases n with
      | zero => simp
      | succ n => simp

/-- Block `n` of a CBC decryption: the plain block of the cipher block, XOR the cipher block before it. -/
theorem getElem_cbcDecrypt (D : Block → Block) (c : Block) (xs : List Block) {n : Nat}
    (h : n < (cbcDecrypt D c xs).length) :
    (cbcDecrypt D c xs)[n] =
      D (xs[n]'(by simpa using h)) ^^^
        (if _h0 : n = 0 then c else xs[n - 1]'(by rw [cbcDecrypt_length] at h; omega)) := by
  induction xs generalizing c n with
  | nil => simp [cbcDecrypt] at h
  | cons x xs ih =>
    cases n with
    | zero => simp [cbcDecrypt]
    | succ n =>
      have h' : n < (cbcDecrypt D x xs).length := by simpa [cbcDecrypt] using h
      simp only [cbcDecrypt, List.getElem_cons_succ, ih _ h', Nat.add_sub_cancel]
      cases n with
      | zero => simp
      | succ n => simp

/-! ### Counter modes -/

theorem le_blockCount (n : Nat) : n ≤ 16 * blockCount n := by simp only [blockCount]; omega

theorem flatMap_bytesOfBlock_length {α : Type} (f : α → Block) (l : List α) :
    (l.flatMap fun a => bytesOfBlock (f a)).length = 16 * l.length := by
  induction l with
  | nil => rfl
  | cons a l ih => simp [ih]; omega

@[simp] theorem ccmCtr_length (E : Block → Block) (nonce d : Bytes) : (ccmCtr E nonce d).length = d.length := by
  have := le_blockCount d.length
  rw [ccmCtr, xorBytes_length, flatMap_bytesOfBlock_length fun i => E (ccmCounter nonce (i + 1))]
  simp only [List.length_range]
  omega

/-- The counter-mode transform of CCM undoes itself. -/
theorem ccmCtr_ccmCtr (E : Block → Block) (nonce d : Bytes) : ccmCtr E nonce (ccmCtr E nonce d) = d := by
  rw [ccmCtr, ccmCtr_length, ccmCtr]
  refine xorBytes_xorBytes ?_
  rw [flatMap_bytesOfBlock_length fun i => E (ccmCounter nonce (i + 1)), List.length_range]
  exact le_blockCount _

theorem ccmTag_length {E : Block → Block} {nonce : Bytes} {x : Block} {n : Nat} (h : n ≤ 16) :
    (ccmTag E nonce x n).length = n := by simp [ccmTag, h]

@[simp] theorem gctrStream_length (E : Block → Block) (n : Nat) (cb : Block) :
    (gctrStream E n cb).length = 16 * n := by
  induction n generalizing cb with
  | zero => rfl
  | succ n ih => simp [gctrStream, ih]; omega

@[simp] theorem gctr_length (E : Block → Block) (icb : Block) (x : Bytes) : (gctr E icb x).length = x.length := by
  have := le_blockCount x.length
  rw [gctr, xorBytes_length, gctrStream_length]
  omega

/-- GCTR undoes itself. -/
theorem gctr_gctr (E : Block → Block) (icb : Block) (x : Bytes) : gctr E icb (gctr E icb x) = x := by
  rw [gctr, gctr_length, gctr]
  refine xorBytes_xorBytes ?_
  rw [gctrStream_length]
  exact le_blockCount _

@[simp] theorem gcmCtr_length (E : Block → Block) (iv d : Bytes) : (gcmCtr E iv d).length = d.length := by simp [gcmCtr]

theorem gcmTag_length {E : Block → Block} {iv a c : Bytes} {n : Nat} (h : n ≤ 16) : (gcmTag E iv a c n).length = n := by
  simp [gcmTag, h]

end Sys2Proof.Machine
end

