-- ==== Sys2Proof/Laws/Exec.lean ====
section
/-! SUPPORT. The checks of a command as `State.Ready`, and what each command answers where it is ready and where it is
not: the lemmas that later proofs cite instead of unfolding a meaning. -/

namespace Sys2Proof.Machine

theorem State.contextOk_iff (s : State) (i : Instr) : s.contextOk i = true ↔ s.ContextLegal i := by
  cases i <;> simp [State.contextOk, and_assoc]

theorem Params.keyOk_iff (x : Params) (i : Instr) : x.keyOk i = true ↔ x.KeyLegal i := by
  cases i <;> simp [Params.keyOk, keyLengthOk_iff]

theorem Params.scalarsOk_iff (x : Params) (i : Instr) : x.scalarsOk i = true ↔ x.ScalarsLegal i := by
  cases i <;> simp [Params.scalarsOk, Params.ccmOk, Params.gcmTagOk, and_assoc] <;> omega

theorem State.allocOk_iff (s : State) (i : Instr) : s.allocOk i = true ↔ s.AllocLegal i := by
  have h : s.lowestFree?.isSome = true ↔ ∃ c < s.cfg.numCtx, (s.slot c).valid = false := by
    rw [← Bool.not_eq_false, Option.isSome_eq_false_iff, Option.isNone_iff_eq_none, State.lowestFree?_eq_none]
    simp
  cases i <;> simp [State.allocOk, h]

/-- Every check of a command passes exactly when the state is ready for it (60_exceptions.md R213). -/
theorem State.ready_iff (s : State) (i : Instr) : firstFailure (s.checks i) = none ↔ s.Ready i := by
  rw [State.checks_pass_iff, State.contextOk_iff, Params.keyOk_iff, Params.scalarsOk_iff, State.boundsOk_iff,
    State.overlapOk_iff, State.allocOk_iff]

/-- The code of a failed check is never OK. -/
theorem State.firstFailure_ne_ok {s : State} {i : Instr} {k : ResultCode} (h : firstFailure (s.checks i) = some k) :
    k ≠ .ok := by
  rintro rfl
  simp only [State.checks, firstFailure] at h
  repeat' split at h
  all_goals cases h

/-- Every command is its checks and then a body. -/
theorem exec_checked (i : Instr) (s : State) : ∃ body, exec i s = s.checked i body := by
  cases i <;> exact ⟨_, rfl⟩

/-- A command whose checks fail completes with the failing check's code, and nothing else happens. -/
theorem exec_of_firstFailure {i : Instr} {s : State} {k : ResultCode} (h : firstFailure (s.checks i) = some k) :
    exec i s = .next (s.complete k 0) := by
  obtain ⟨body, hb⟩ := exec_checked i s
  rw [hb, State.checked_fail h]

theorem exec_of_not_ready {i : Instr} {s : State} (h : ¬ s.Ready i) :
    ∃ k, k ≠ .ok ∧ firstFailure (s.checks i) = some k ∧ exec i s = .next (s.complete k 0) := by
  rw [← State.ready_iff] at h
  obtain ⟨k, hk⟩ := Option.ne_none_iff_exists'.mp h
  exact ⟨k, State.firstFailure_ne_ok hk, hk, exec_of_firstFailure hk⟩

/-! ### What each command answers where it is ready -/

/-- The next state of a command that passed its checks: its meaning with the checks taken off. -/
theorem exec_of_ready {i : Instr} {s body : State} (hi : exec i s = s.checked i body) (h : s.Ready i) :
    exec i s = .next body := by rw [hi, State.checked_pass ((State.ready_iff s i).mpr h)]

theorem exec_blkInitEnc {s : State} (h : s.Ready .blkInitEnc) {c : Nat} (hc : s.lowestFree? = some c) :
    exec .blkInitEnc s = .next
      ((s.setSlot c (Slot.ofSchedule .enc (roundCount s.key.length) (keyExpansion s.key))).complete .ok c) := by
  rw [exec_of_ready rfl h, State.allocate, hc]

theorem exec_blkInitDec {s : State} (h : s.Ready .blkInitDec) {c : Nat} (hc : s.lowestFree? = some c) :
    exec .blkInitDec s = .next
      ((s.setSlot c (Slot.ofSchedule .dec (roundCount s.key.length)
        (decryptSchedule (roundCount s.key.length) (keyExpansion s.key)))).complete .ok c) := by
  rw [exec_of_ready rfl h, State.allocate, hc]

/-- Where a command that allocates is ready, there is a lowest free slot. -/
theorem State.lowestFree?_of_ready {s : State} {i : Instr} (hi : i = .blkInitEnc ∨ i = .blkInitDec) (h : s.Ready i) :
    ∃ c, s.lowestFree? = some c := by
  have ha := (State.allocOk_iff s i).mpr h.2.2.2.2.2
  rcases hi with rfl | rfl <;> exact Option.isSome_iff_exists.mp ha

theorem exec_blkEnc {s : State} {c : Nat} (h : s.Ready (.blkEnc c)) :
    exec (.blkEnc c) s = .next ((s.memWrite s.latch.x.dstAddr.toNat (bytesOfBlock
      (cipher (s.slot c).rk (s.slot c).nr (blockOfBytes (s.memRead s.latch.x.srcBlockRegion))))).complete .ok 0) :=
  exec_of_ready rfl h

theorem exec_blkDec {s : State} {c : Nat} (h : s.Ready (.blkDec c)) :
    exec (.blkDec c) s = .next ((s.memWrite s.latch.x.dstAddr.toNat (bytesOfBlock
      (invCipher (s.slot c).rk (s.slot c).nr (blockOfBytes (s.memRead s.latch.x.srcBlockRegion))))).complete .ok 0) :=
  exec_of_ready rfl h

theorem exec_blkDeinit {s : State} {c : Nat} (h : s.Ready (.blkDeinit c)) :
    exec (.blkDeinit c) s = .next ((s.setSlot c Slot.free).complete .ok 0) := exec_of_ready rfl h

theorem exec_cbcEnc {s : State} (h : s.Ready .cbcEnc) :
    exec .cbcEnc s = .next ((s.memWrite s.latch.x.srcRegion.addr (bytesOfBlocks (cbcEncrypt (encryptBlock s.key)
      (blockOfBytes (s.memRead s.latch.x.cbcIvRegion)) (blocksOf (s.memRead s.latch.x.srcRegion))))).complete .ok 0) :=
  exec_of_ready rfl h

theorem exec_cbcDec {s : State} (h : s.Ready .cbcDec) :
    exec .cbcDec s = .next ((s.memWrite s.latch.x.srcRegion.addr (bytesOfBlocks (cbcDecrypt (decryptBlock s.key)
      (blockOfBytes (s.memRead s.latch.x.cbcIvRegion)) (blocksOf (s.memRead s.latch.x.srcRegion))))).complete .ok 0) :=
  exec_of_ready rfl h

theorem exec_cmac {s : State} (h : s.Ready .cmac) :
    exec .cmac s = .next ((s.memWrite s.latch.x.tagAddr.toNat
      (bytesOfBlock (cmacTag (encryptBlock s.key) (s.memRead s.latch.x.srcRegion)))).complete .ok 0) :=
  exec_of_ready rfl h

theorem exec_cmacVec {s : State} (h : s.Ready .cmacVec) :
    exec .cmacVec s = .next ((s.memWrite s.latch.x.tagAddr.toNat
      (bytesOfBlock (cmacTag (encryptBlock s.key) (s.segments.flatMap s.memRead)))).complete .ok 0) :=
  exec_of_ready rfl h

theorem exec_ccmEnc {s : State} (h : s.Ready .ccmEnc) :
    exec .ccmEnc s = .next
      (((s.memWrite s.latch.x.dstRegion.addr
          (ccmCtr (encryptBlock s.key) (s.memRead s.latch.x.nonceRegion) (s.memRead s.latch.x.srcRegion))).memWrite
        s.latch.x.tagRegion.addr
        (ccmTag (encryptBlock s.key) (s.memRead s.latch.x.nonceRegion)
          (ccmAuth (encryptBlock s.key) (s.memRead s.latch.x.nonceRegion) (s.memRead s.latch.x.aadRegion)
            (s.memRead s.latch.x.srcRegion) s.latch.x.tagLen.toNat) s.latch.x.tagLen.toNat)).complete .ok 0) :=
  exec_of_ready rfl h

/-- The tag that CCM_DEC compares with the one in BUF (44_ccm.md R168). -/
def State.ccmExpected (s : State) : Bytes :=
  let p := ccmCtr (encryptBlock s.key) (s.memRead s.latch.x.nonceRegion) (s.memRead s.latch.x.srcRegion)
  ccmTag (encryptBlock s.key) (s.memRead s.latch.x.nonceRegion)
    (ccmAuth (encryptBlock s.key) (s.memRead s.latch.x.nonceRegion) (s.memRead s.latch.x.aadRegion) p
      s.latch.x.tagLen.toNat) s.latch.x.tagLen.toNat

theorem exec_ccmDec_pass {s : State} (h : s.Ready .ccmDec) (ht : s.ccmExpected = s.memRead s.latch.x.tagRegion) :
    exec .ccmDec s = .next
      ((s.memWrite s.latch.x.dstRegion.addr
          (ccmCtr (encryptBlock s.key) (s.memRead s.latch.x.nonceRegion) (s.memRead s.latch.x.srcRegion))).complete
        .ok 0) :=
  (exec_of_ready rfl h).trans (congrArg _ (if_pos ht))

theorem exec_ccmDec_fail {s : State} (h : s.Ready .ccmDec) (ht : s.ccmExpected ≠ s.memRead s.latch.x.tagRegion) :
    exec .ccmDec s = .next ((s.freeRegion s.latch.x.dstRegion).complete .authMismatch 0) :=
  (exec_of_ready rfl h).trans (congrArg _ (if_neg ht))

theorem exec_gcmEnc {s : State} (h : s.Ready .gcmEnc) :
    exec .gcmEnc s = .next
      (((s.memWrite s.latch.x.dstRegion.addr
          (gcmCtr (encryptBlock s.key) (s.memRead s.latch.x.ivRegion) (s.memRead s.latch.x.srcRegion))).memWrite
        s.latch.x.tagRegion.addr
        (gcmTag (encryptBlock s.key) (s.memRead s.latch.x.ivRegion) (s.memRead s.latch.x.aadRegion)
          (gcmCtr (encryptBlock s.key) (s.memRead s.latch.x.ivRegion) (s.memRead s.latch.x.srcRegion))
          s.latch.x.tagLen.toNat)).complete .ok 0) :=
  exec_of_ready rfl h

/-- The tag that GCM_DEC compares with the one in BUF (45_gcm.md R191). -/
def State.gcmExpected (s : State) : Bytes :=
  gcmTag (encryptBlock s.key) (s.memRead s.latch.x.ivRegion) (s.memRead s.latch.x.aadRegion)
    (s.memRead s.latch.x.srcRegion) s.latch.x.tagLen.toNat

theorem exec_gcmDec_pass {s : State} (h : s.Ready .gcmDec) (ht : s.gcmExpected = s.memRead s.latch.x.tagRegion) :
    exec .gcmDec s = .next
      ((s.memWrite s.latch.x.dstRegion.addr
          (gcmCtr (encryptBlock s.key) (s.memRead s.latch.x.ivRegion) (s.memRead s.latch.x.srcRegion))).complete
        .ok 0) :=
  (exec_of_ready rfl h).trans (congrArg _ (if_pos ht))

theorem exec_gcmDec_fail {s : State} (h : s.Ready .gcmDec) (ht : s.gcmExpected ≠ s.memRead s.latch.x.tagRegion) :
    exec .gcmDec s = .next ((s.freeRegion s.latch.x.dstRegion).complete .tagMismatch 0) :=
  (exec_of_ready rfl h).trans (congrArg _ (if_neg ht))

theorem exec_gmac {s : State} (h : s.Ready .gmac) :
    exec .gmac s = .next
      ((s.memWrite s.latch.x.tagRegion.addr
        (gcmTag (encryptBlock s.key) (s.memRead s.latch.x.ivRegion) (s.memRead s.latch.x.aadRegion) []
          s.latch.x.tagLen.toNat)).complete .ok 0) :=
  exec_of_ready rfl h

/-! ### What any command can do, said once -/

/-- All that a command can answer: a failed check's completion; a schedule stored in the lowest free slot; a slot freed;
its one output region written; its two output regions written; or, after a failed verification, its output region
freed. -/
theorem exec_cases {i : Instr} {s t : State} (h : exec i s = .next t) :
    (∃ k, firstFailure (s.checks i) = some k ∧ t = s.complete k 0)
    ∨ s.Ready i ∧
      ((∃ c dir rk, s.lowestFree? = some c ∧ (i = .blkInitEnc ∨ i = .blkInitDec)
          ∧ rk.length = roundCount s.key.length + 1
          ∧ t = (s.setSlot c (Slot.ofSchedule dir (roundCount s.key.length) rk)).complete .ok c)
      ∨ (∃ c, i = .blkDeinit c ∧ t = (s.setSlot c Slot.free).complete .ok 0)
      ∨ (∃ r bs, s.latch.x.outputs i = [r] ∧ bs.length = r.len ∧ t = (s.memWrite r.addr bs).complete .ok 0)
      ∨ (∃ r q bs cs, s.latch.x.outputs i = [r, q] ∧ bs.length = r.len ∧ cs.length = q.len
          ∧ t = ((s.memWrite r.addr bs).memWrite q.addr cs).complete .ok 0)
      ∨ (∃ r k, s.latch.x.outputs i = [r] ∧ (i = .ccmDec ∧ k = .authMismatch ∨ i = .gcmDec ∧ k = .tagMismatch)
          ∧ t = (s.freeRegion r).complete k 0)) := by
  by_cases hr : s.Ready i
  · refine .inr ⟨hr, ?_⟩
    have hs := hr.2.2.1
    cases i
    case blkInitEnc =>
      obtain ⟨c, hc⟩ := State.lowestFree?_of_ready (.inl rfl) hr
      rw [exec_blkInitEnc hr hc] at h; cases h
      exact .inl ⟨c, _, _, hc, .inl rfl, keyExpansion_length _, rfl⟩
    case blkInitDec =>
      obtain ⟨c, hc⟩ := State.lowestFree?_of_ready (.inr rfl) hr
      rw [exec_blkInitDec hr hc] at h; cases h
      exact .inl ⟨c, _, _, hc, .inr rfl, decryptSchedule_length _ _, rfl⟩
    case blkDeinit c => rw [exec_blkDeinit hr] at h; cases h; exact .inr (.inl ⟨c, rfl, rfl⟩)
    case blkEnc =>
      rw [exec_blkEnc hr] at h; cases h
      exact .inr (.inr (.inl ⟨s.latch.x.dstBlockRegion, _, rfl, bytesOfBlock_length _, rfl⟩))
    case blkDec =>
      rw [exec_blkDec hr] at h; cases h
      exact .inr (.inr (.inl ⟨s.latch.x.dstBlockRegion, _, rfl, bytesOfBlock_length _, rfl⟩))
    case cbcEnc =>
      rw [exec_cbcEnc hr] at h; cases h
      refine .inr (.inr (.inl ⟨s.latch.x.srcRegion, _, rfl, ?_, rfl⟩))
      have : s.latch.x.srcRegion.len % 16 = 0 := hs
      rw [bytesOfBlocks_length, cbcEncrypt_length, blocksOf_length, State.memRead_length]
      omega
    case cbcDec =>
      rw [exec_cbcDec hr] at h; cases h
      refine .inr (.inr (.inl ⟨s.latch.x.srcRegion, _, rfl, ?_, rfl⟩))
      have : s.latch.x.srcRegion.len % 16 = 0 := hs
      rw [bytesOfBlocks_length, cbcDecrypt_length, blocksOf_length, State.memRead_length]
      omega
    case cmac =>
      rw [exec_cmac hr] at h; cases h
      exact .inr (.inr (.inl ⟨s.latch.x.macRegion, _, rfl, bytesOfBlock_length _, rfl⟩))
    case cmacVec =>
      rw [exec_cmacVec hr] at h; cases h
      exact .inr (.inr (.inl ⟨s.latch.x.macRegion, _, rfl, bytesOfBlock_length _, rfl⟩))
    case ccmEnc =>
      rw [exec_ccmEnc hr] at h; cases h
      exact .inr (.inr (.inr (.inl ⟨s.latch.x.dstRegion, s.latch.x.tagRegion, _, _, rfl,
        by rw [ccmCtr_length, State.memRead_length]; rfl, ccmTag_length hs.1.2.1, rfl⟩)))
    case ccmDec =>
      by_cases ht : s.ccmExpected = s.memRead s.latch.x.tagRegion
      · rw [exec_ccmDec_pass hr ht] at h; cases h
        exact .inr (.inr (.inl ⟨s.latch.x.dstRegion, _, rfl, by rw [ccmCtr_length, State.memRead_length]; rfl, rfl⟩))
      · rw [exec_ccmDec_fail hr ht] at h; cases h
        exact .inr (.inr (.inr (.inr ⟨s.latch.x.dstRegion, _, rfl, .inl ⟨rfl, rfl⟩, rfl⟩)))
    case gcmEnc =>
      rw [exec_gcmEnc hr] at h; cases h
      exact .inr (.inr (.inr (.inl ⟨s.latch.x.dstRegion, s.latch.x.tagRegion, _, _, rfl,
        by rw [gcmCtr_length, State.memRead_length]; rfl, gcmTag_length hs.2, rfl⟩)))
    case gcmDec =>
      by_cases ht : s.gcmExpected = s.memRead s.latch.x.tagRegion
      · rw [exec_gcmDec_pass hr ht] at h; cases h
        exact .inr (.inr (.inl ⟨s.latch.x.dstRegion, _, rfl, by rw [gcmCtr_length, State.memRead_length]; rfl, rfl⟩))
      · rw [exec_gcmDec_fail hr ht] at h; cases h
        exact .inr (.inr (.inr (.inr ⟨s.latch.x.dstRegion, _, rfl, .inr ⟨rfl, rfl⟩, rfl⟩)))
    case gmac =>
      rw [exec_gmac hr] at h; cases h
      exact .inr (.inr (.inl ⟨s.latch.x.tagRegion, _, rfl, gcmTag_length hs.2, rfl⟩))
  · obtain ⟨k, _, hk, he⟩ := exec_of_not_ready hr
    rw [he] at h; cases h
    exact .inl ⟨k, hk, rfl⟩

/-- Every command answers a next state (60_exceptions.md R214, R220). -/
theorem exec_next (i : Instr) (s : State) : ∃ t, exec i s = .next t := by
  obtain ⟨body, hb⟩ := exec_checked i s
  rw [hb, State.checked]
  split
  · exact ⟨_, rfl⟩
  · exact ⟨_, rfl⟩

end Sys2Proof.Machine
end

