-- ==== Sys2Proof/Laws/PerInstr.lean ====
section
/-! SUPPORT. Statements made per command. The family EncodedFields: the fields of a command's word are those of the
command word layout (30_encoding.md R70, R71). -/

namespace Sys2Proof.Laws.EncodedFields

/-- RSV is zero, CTX is the command's slot index or zero, OPC is the command's opcode (30_encoding.md R70, R71). -/
def Statement (i : Instr) : Prop :=
  rsvOf (encode i) = 0 ∧ ctxOf (encode i) = i.ctxField ∧ opcOf (encode i) = i.opc

theorem all (i : Instr) : Statement i := ⟨rsvOf_encode i, ctxOf_encode i, opcOf_encode i⟩

theorem blkInitEnc : Statement .blkInitEnc := all _
theorem blkInitDec : Statement .blkInitDec := all _
theorem blkEnc (ctx : Nat) : Statement (.blkEnc ctx) := all _
theorem blkDec (ctx : Nat) : Statement (.blkDec ctx) := all _
theorem blkDeinit (ctx : Nat) : Statement (.blkDeinit ctx) := all _
theorem cbcEnc : Statement .cbcEnc := all _
theorem cbcDec : Statement .cbcDec := all _
theorem cmac : Statement .cmac := all _
theorem cmacVec : Statement .cmacVec := all _
theorem ccmEnc : Statement .ccmEnc := all _
theorem ccmDec : Statement .ccmDec := all _
theorem gcmEnc : Statement .gcmEnc := all _
theorem gcmDec : Statement .gcmDec := all _
theorem gmac : Statement .gmac := all _

end Sys2Proof.Laws.EncodedFields
end

