-- ==== Sys2Proof/Laws/Port.lean ====
section
/-! SUPPORT. What a host access and the trace of a race can do, said once. -/

namespace Sys2Proof.Machine

/-- A step whose event is an engine turn, or that has no event listed, is the engine's turn. -/
theorem step_engine {s : State} {rest : List Event} (h : s.agenda = .engine :: rest ∨ (s.agenda = [] ∧ rest = [])) :
    step s = State.engineTurn { s with agenda := rest } := by
  rcases h with h | ⟨h, rfl⟩
  · rw [step, State.advance, h]; rfl
  · rw [step, State.advance, h]
    cases s
    cases h
    rfl

/-- Using draws changes the draw counter alone. -/
theorem State.useDraws_eq (s : State) (w a : Nat) : ∃ d, s.useDraws w a = { s with draws := d } := by
  unfold State.useDraws
  split
  · exact ⟨_, rfl⟩
  · exact ⟨s.draws, rfl⟩

/-- Where no byte of an access is raced, no draw is used. -/
theorem State.useDraws_of_not_raced {s : State} {w a : Nat} (h : s.anyRaced w a = false) : s.useDraws w a = s := by
  simp [State.useDraws, h]

/-- No byte of an access is raced where the running command has no region there. -/
theorem State.anyRaced_eq_false {s : State} {w a : Nat} :
    s.anyRaced w a = false ↔ ∀ r ∈ s.runningRegions, ∀ i < w, ¬ r.Holds (a + i) := by
  simp only [State.anyRaced, State.isRaced, List.any_eq_false, List.any_eq_true, List.mem_range, Region.has_iff]
  exact ⟨fun h r hr i hi hh => h i hi ⟨r, hr, hh⟩, fun h i hi ⟨r, hr, hh⟩ => h r hr i hi hh⟩

@[simp] theorem State.racedBytes_length (s : State) (w a : Nat) (own : Nat → Byte) :
    (s.racedBytes w a own).length = w := by simp [State.racedBytes]

/-- When IDLE no command runs, so it has no regions. -/
theorem State.runningRegions_of_idle {s : State} (h : s.phase = .idle) : s.runningRegions = [] := by
  simp [State.runningRegions, h]

theorem State.runningRegions_of_busy {s : State} {i : Instr} (h : s.phase = .busy) (hd : decode s.latch.lcmd = .ok i) :
    s.runningRegions = s.regions i := by simp [State.runningRegions, h, hd]

/-- A host read changes the port's response and, where it races, the draw counter. -/
theorem State.hostRead_eq (s : State) (w : Nat) (off : Word) :
    ∃ b d, s.hostRead w off = { s with bus := some b, draws := d } := by
  unfold State.hostRead
  split
  · split <;> exact ⟨_, s.draws, rfl⟩
  · split
    · obtain ⟨d, h⟩ := s.useDraws_eq w ‹_›
      simp only [State.readBuf, h]
      exact ⟨_, d, rfl⟩
    · exact ⟨_, s.draws, rfl⟩
  · exact ⟨_, s.draws, rfl⟩

/-- Soft reset: the clearing of everything but BUF, over BUF with the aborted command's outputs freed. -/
theorem State.softReset_eq (s : State) : ∃ m d, s.softReset = { s with buf := m, draws := d }.clearAll := by
  obtain ⟨m, d, h⟩ := s.freeRegions_eq s.runningOutputs
  exact ⟨m, d, by rw [State.softReset, h]⟩

/-- All that a host write can do: a soft reset; a CTRL, STATUS or parameter write; a command accepted or an overrun; a BUF
write; or nothing but the port's response. -/
theorem State.hostWrite_cases (s : State) (w : Nat) (off v : Word) :
    (off = 0x008 ∧ w = 4 ∧ v.getLsbD 1 = true ∧ s.hostWrite w off v = s.softReset.respond false 0)
    ∨ s.hostWrite w off v = (s.writeIrqEn v).respond false 0
    ∨ s.hostWrite w off v = (s.writeStatus v).respond false 0
    ∨ (s.phase = .idle ∧ s.hostWrite w off v = (s.accept v).respond false 0)
    ∨ s.hostWrite w off v = { s with overrun := true }.respond false 0
    ∨ (∃ p, s.hostWrite w off v = { s with params := p }.respond false 0)
    ∨ (∃ a, a < s.cfg.bufSize ∧ (w = 1 ∨ w = 2 ∨ w = 4) ∧ a % w = 0 ∧ s.hostWrite w off v = s.writeBuf w a v)
    ∨ ∃ e, s.hostWrite w off v = s.respond e 0 := by
  unfold State.hostWrite State.portTarget
  split
  · rename_i o ho
    split at ho
    · cases ho
      split
      · rename_i hok
        unfold State.writeCsr
        split
        · rename_i h8
          split
          · refine .inl ⟨BitVec.eq_of_toNat_eq h8, ?_, ‹_›, rfl⟩
            simp [csrAccessOk] at hok
            exact hok.1
          · exact .inr (.inl rfl)
        · exact .inr (.inr (.inl rfl))
        · unfold State.writeCmd
          split
          · exact .inr (.inr (.inr (.inl ⟨‹_›, rfl⟩)))
          · exact .inr (.inr (.inr (.inr (.inl rfl))))
        · split
          · exact .inr (.inr (.inr (.inr (.inr (.inl ⟨_, rfl⟩)))))
          · exact .inr (.inr (.inr (.inr (.inr (.inr (.inr ⟨_, rfl⟩))))))
      · exact .inr (.inr (.inr (.inr (.inr (.inr (.inr ⟨_, rfl⟩))))))
    · split at ho <;> cases ho
  · rename_i a ha
    split at ha
    · cases ha
    · split at ha
      · have ha := PortTarget.buf.inj ha
        split
        · rename_i hok
          simp [bufAccessOk] at hok
          exact .inr (.inr (.inr (.inr (.inr (.inr (.inl ⟨_, by omega, or_assoc.mp hok.1, hok.2, rfl⟩))))))
        · exact .inr (.inr (.inr (.inr (.inr (.inr (.inr ⟨_, rfl⟩))))))
      · cases ha
  · exact .inr (.inr (.inr (.inr (.inr (.inr (.inr ⟨_, rfl⟩))))))

/-- The host offset `0x10000 + a` leads to BUF address `a` (20_memory.md R51). -/
theorem State.portTarget_buf {s : State} {a : Nat} (hc : s.cfg.Legal) (ha : a < s.cfg.bufSize) :
    s.portTarget (BitVec.ofNat 32 (0x10000 + a)).toNat = .buf a := by
  have := hc.2.2.2.2
  have h : (BitVec.ofNat 32 (0x10000 + a)).toNat = 0x10000 + a := by simp; omega
  rw [h, State.portTarget, if_neg (by omega), if_pos (by omega), Nat.add_sub_cancel_left]

theorem bufAccessOk_of {w a : Nat} (hw : w ∈ [1, 2, 4]) (hm : a % w = 0) : bufAccessOk w a = true := by
  simp at hw
  simp [bufAccessOk, hm, or_assoc, hw]

/-- A legal host write of BUF. -/
theorem State.hostWrite_buf {s : State} {w a : Nat} (v : Word) (hc : s.cfg.Legal) (ha : a < s.cfg.bufSize)
    (hw : w ∈ [1, 2, 4]) (hm : a % w = 0) : s.hostWrite w (BitVec.ofNat 32 (0x10000 + a)) v = s.writeBuf w a v := by
  rw [State.hostWrite, State.portTarget_buf hc ha]
  simp [bufAccessOk_of hw hm]

/-- A legal host read of BUF. -/
theorem State.hostRead_buf {s : State} {w a : Nat} (hc : s.cfg.Legal) (ha : a < s.cfg.bufSize)
    (hw : w ∈ [1, 2, 4]) (hm : a % w = 0) : s.hostRead w (BitVec.ofNat 32 (0x10000 + a)) = s.readBuf w a := by
  rw [State.hostRead, State.portTarget_buf hc ha]
  simp [bufAccessOk_of hw hm]

/-- A byte is raced where it lies in a region of the running command. -/
theorem State.isRaced_iff {s : State} {i : Instr} (h : s.phase = .busy) (hd : decode s.latch.lcmd = .ok i) (a : Nat) :
    s.isRaced a = true ↔ ∃ r ∈ s.regions i, r.Holds a := by
  simp only [State.isRaced, State.runningRegions_of_busy h hd, List.any_eq_true, Region.has_iff]

/-- Byte `i` of an access: a free byte where raced, its own byte otherwise. -/
theorem State.getElem_racedBytes (s : State) (w a : Nat) (own : Nat → Byte) {i : Nat}
    (h : i < (s.racedBytes w a own).length) :
    (s.racedBytes w a own)[i] = if s.isRaced (a + i) then Config.freeByte (s.draws + i) else own i := by
  simp [State.racedBytes]

/-- A BUF write changes BUF, the draws, the raced mark and the port's response. -/
theorem State.writeBuf_eq (s : State) (w a : Nat) (v : Word) :
    ∃ d, s.writeBuf w a v =
      { s with
        buf := Memory.putBytes s.buf a (s.racedBytes w a fun i => v.extractLsb' (8 * i) 8)
        draws := d
        latch := { s.latch with raced := s.latch.raced || s.anyRaced w a }
        bus := some ⟨false, 0⟩ } := by
  obtain ⟨d, h⟩ := s.useDraws_eq w a
  refine ⟨d, ?_⟩
  rw [State.writeBuf, h, State.respond, State.memWrite]

/-- The trace of a race changes BUF, the draws, the slots and the result code, nothing else. -/
theorem State.afterRace_eq (t : State) (i : Instr) (x : Params) :
    ∃ m d sl k, t.afterRace i x =
      { t with buf := m, draws := d, slots := sl, result := { t.result with code := k } } := by
  obtain ⟨m, d, h⟩ := t.freeRegions_eq (x.outputs i)
  simp only [State.afterRace, h]
  cases i <;> simp only [State.raceSlot] <;> (try split) <;> exact ⟨_, _, _, _, rfl⟩

/-- BUF after the trace of a race: the output regions freed. -/
theorem State.bufByte_afterRace (t : State) (i : Instr) (x : Params) (a : Nat) :
    (t.afterRace i x).bufByte a = (t.freeRegions (x.outputs i)).bufByte a := by
  simp only [State.afterRace]
  cases i <;> simp only [State.raceSlot] <;> (try split) <;> rfl

/-- The trace of a race leaves the slots alone, unless the command allocated one. -/
theorem State.slots_afterRace {t : State} {i : Instr} (x : Params)
    (h : i ≠ .blkInitEnc ∧ i ≠ .blkInitDec ∨ t.result.code ≠ .ok) : (t.afterRace i x).slots = t.slots := by
  simp only [State.afterRace]
  cases i <;> simp only [State.raceSlot, State.freeRegions_slots] <;> simp at h <;>
    rw [if_neg (by simpa using h), State.freeRegions_slots]

/-- The slots after the trace of a race on a command that allocated slot `c`: its round keys are free. -/
theorem State.slots_afterRace_alloc {t : State} {i : Instr} (x : Params) (hi : i = .blkInitEnc ∨ i = .blkInitDec)
    (hk : t.result.code = .ok) :
    (t.afterRace i x).slots
      = ((t.freeRegions (x.outputs i)).freeSlotKeys t.result.ctx.toNat).slots := by
  rcases hi with rfl | rfl <;>
    simp only [State.afterRace, State.raceSlot, State.freeRegions_result] <;> rw [if_pos hk]

/-- Freeing the round keys of a slot leaves every other slot alone. -/
theorem State.slot_freeSlotKeys_ne (s : State) {c d : Nat} (h : d ≠ c) : (s.freeSlotKeys c).slot d = s.slot d :=
  State.slot_setSlot_ne s _ h

/-- Freeing the round keys of a slot that exists: VALID, DIR and NR stay, and every round key up to NR is free. -/
theorem State.slot_freeSlotKeys_self (s : State) {c : Nat} (hc : c < s.slots.length) (hn : (s.slot c).nr ≤ 14) :
    ((s.freeSlotKeys c).slot c).valid = (s.slot c).valid ∧ ((s.freeSlotKeys c).slot c).dir = (s.slot c).dir
      ∧ ((s.freeSlotKeys c).slot c).nr = (s.slot c).nr ∧ ((s.freeSlotKeys c).slot c).KeysFree := by
  have h : (s.freeSlotKeys c).slot c = _ := State.slot_setSlot_self s c _ hc
  rw [h]
  refine ⟨rfl, rfl, rfl, ?_, fun r hr j hj => ?_, fun r hr => ?_⟩
  · simp; omega
  · rw [List.getD_append _ _ _ _ (by simp; exact hr), List.getD_eq_getElem _ _ (by simp; exact hr)]
    exact ⟨_, by rw [List.getElem_map, blockByte_blockOfFn _ hj]⟩
  · rw [List.getD_append_right _ _ _ _ (by simp; exact hr)]
    simp only [List.getD_eq_getElem?_getD, List.getElem?_replicate]
    split <;> rfl

/-- Every slot is free where all slots are. -/
theorem State.slot_of_replicate {s : State} {n : Nat} (h : s.slots = List.replicate n Slot.free) (c : Nat) :
    s.slot c = Slot.free := by
  simp only [State.slot, h, List.getD_eq_getElem?_getD, List.getElem?_replicate]
  split <;> rfl

/-! ### The clean launch state -/

/-- A write of a parameter register. -/
theorem State.hostWrite_param (s : State) (r : ParamReg) (v : Word) :
    s.hostWrite 4 r.offset v = { s with params := s.params.set v r, bus := some ⟨false, 0⟩ } := by
  cases r <;> rfl

/-- A write above the CSR window while IDLE changes BUF and the port's response. -/
theorem State.hostWrite_high {s : State} (hi : s.phase = .idle) (w : Nat) {off : Word} (v : Word)
    (h : 0x10000 ≤ off.toNat) : ∃ m b d, s.hostWrite w off v = { s with buf := m, bus := some b, draws := d } := by
  have hr : ∀ a, s.anyRaced w a = false := fun a => by
    rw [State.anyRaced_eq_false, State.runningRegions_of_idle hi]; simp
  simp only [State.hostWrite, State.portTarget, if_neg (show ¬ off.toNat < 0x100 by omega)]
  by_cases hb : 0x10000 ≤ off.toNat ∧ off.toNat < 0x10000 + s.cfg.bufSize
  · simp only [if_pos hb]
    split
    · obtain ⟨d, he⟩ := s.writeBuf_eq w (off.toNat - 0x10000) v
      rw [hr, Bool.or_false] at he
      exact ⟨_, _, d, he⟩
    · exact ⟨s.buf, _, s.draws, rfl⟩
  · simp only [if_neg hb]; exact ⟨s.buf, _, s.draws, rfl⟩

/-- While IDLE, an access that prepares a command changes the parameter registers, BUF and the port's response. -/
theorem State.hostAccess_prepares {s : State} (hi : s.phase = .idle) {a : HostAccess} (h : a.Prepares) :
    ∃ p m b d, s.hostAccess a = { s with params := p, buf := m, bus := b, draws := d } := by
  cases a with
  | read w off => obtain ⟨b, d, he⟩ := s.hostRead_eq w off; exact ⟨s.params, s.buf, some b, d, he⟩
  | write w off v =>
    rcases h with ⟨rfl, r, rfl⟩ | h
    · exact ⟨_, s.buf, _, s.draws, s.hostWrite_param r v⟩
    · obtain ⟨m, b, d, he⟩ := State.hostWrite_high hi w v h; exact ⟨s.params, m, some b, d, he⟩

/-- So do any number of them. -/
theorem State.foldl_prepares (as : List HostAccess) {s : State} (hi : s.phase = .idle) (h : ∀ a ∈ as, a.Prepares) :
    ∃ p m b d, as.foldl State.hostAccess s = { s with params := p, buf := m, bus := b, draws := d } := by
  induction as generalizing s with
  | nil => exact ⟨s.params, s.buf, s.bus, s.draws, rfl⟩
  | cons a as ih =>
    obtain ⟨p, m, b, d, he⟩ := State.hostAccess_prepares hi (h a (by simp))
    rw [List.foldl_cons, he]
    obtain ⟨p', m', b', d', he'⟩ := ih (s := { s with params := p, buf := m, bus := b, draws := d }) hi
      fun x hx => h x (by simp [hx])
    exact ⟨p', m', b', d', he'⟩

/-- From the state right after hardware reset they leave the reset state, but for those and the model's own fields. -/
theorem State.AfterHardwareReset.foldl_prepares {b : State} {as : List HostAccess} (hb : b.AfterHardwareReset)
    (ha : ∀ a ∈ as, a.Prepares) :
    ∃ p m bus d, as.foldl State.hostAccess b = { State.resetOf b.cfg with
      params := p, buf := m, epoch := b.epoch, draws := d, bus := bus, agenda := b.agenda } := by
  obtain ⟨p, m, bus, d, he⟩ := State.foldl_prepares as (s := b) (by rw [hb.2]; rfl) ha
  refine ⟨p, m, bus, d, ?_⟩
  rw [he]
  conv_lhs => rw [hb.2]

/-- A hardware reset leaves such a state (70_reset_and_hazards.md R230). -/
theorem State.hardReset_afterHardwareReset {s : State} (h : s.cfg.Legal) : s.hardReset.AfterHardwareReset := ⟨h, rfl⟩

/-- A launch state is the reset state but for what the host wrote and the model's own fields. -/
theorem State.CleanLaunch.eq_reset {s : State} {w : Word} (h : s.CleanLaunch w) :
    s = { State.resetOf s.cfg with
      params := s.params, buf := s.buf, epoch := s.epoch, draws := s.draws, bus := s.bus, agenda := s.agenda } := by
  obtain ⟨b, as, hb, ha, rfl, -⟩ := h.afterReset
  obtain ⟨p, m, bus, d, he⟩ := hb.foldl_prepares ha
  rw [he]
  rfl

/-- The state right after hardware reset, prepared for `w`, is a clean launch state. -/
theorem State.CleanLaunch.of_reset {b : State} {as : List HostAccess} {w : Word} (hb : b.AfterHardwareReset)
    (ha : ∀ a ∈ as, a.Prepares) (hw : (as.foldl State.hostAccess b).PreparedFor as w) :
    (as.foldl State.hostAccess b).CleanLaunch w := by
  refine ⟨⟨b, as, hb, ha, rfl, hw⟩, ?_, ?_, fun c => ?_, ?_, ?_⟩ <;> obtain ⟨p, m, bus, d, he⟩ := hb.foldl_prepares ha <;>
    rw [he]
  · rfl
  · simp [State.statusWord, State.isBusy, State.resetOf, bitWord]
  · rw [State.slot_of_replicate (n := b.cfg.numCtx) rfl]; rfl
  · rfl
  · rfl

end Sys2Proof.Machine
end

