-- ==== Sys2Proof/Tests/Slice0.lean ====
section
/-! SUPPORT. Tests: expected values are the spec's own (95_test_vectors.md, or the rule named), and one witness for each
statement that has hypotheses. -/

namespace Sys2Proof.Tests

open Sys2Proof.Machine

/- One theorem at a time: kernel evaluations that wait for each other hold a thread each. -/
set_option Elab.async false

/-! ### Form, decoding, encoding -/

theorem test_wf_blkEnc_slot_16 : (Instr.blkEnc 16).wf = false := by decide
theorem test_wf_blkDec_slot_16 : (Instr.blkDec 16).wf = false := by decide
theorem test_wf_blkDeinit_slot_16 : (Instr.blkDeinit 16).wf = false := by decide
theorem test_wf_blkDeinit_slot_15 : (Instr.blkDeinit 15).wf = true := by decide

/-- 30_encoding.md R70–R72: each command word from its fields, RSV 20 bits, CTX 4 bits, OPC 8 bits. -/
theorem test_decode_every_command :
    decode 0b00000000000000000000000000000001 = .ok .blkInitEnc
    ∧ decode 0b00000000000000000000000000000010 = .ok .blkInitDec
    ∧ decode 0b00000000000000000000101000000011 = .ok (.blkEnc 10)
    ∧ decode 0b00000000000000000000010100000100 = .ok (.blkDec 5)
    ∧ decode 0b00000000000000000000111100000101 = .ok (.blkDeinit 15)
    ∧ decode 0b00000000000000000000000000010000 = .ok .cbcEnc
    ∧ decode 0b00000000000000000000000000010001 = .ok .cbcDec
    ∧ decode 0b00000000000000000000000000100000 = .ok .cmac
    ∧ decode 0b00000000000000000000000000100001 = .ok .cmacVec
    ∧ decode 0b00000000000000000000000000110000 = .ok .ccmEnc
    ∧ decode 0b00000000000000000000000000110001 = .ok .ccmDec
    ∧ decode 0b00000000000000000000000001000000 = .ok .gcmEnc
    ∧ decode 0b00000000000000000000000001000001 = .ok .gcmDec
    ∧ decode 0b00000000000000000000000001000010 = .ok .gmac := by decide

/-- 95_test_vectors.md E1–E5, B14, B15. -/
theorem test_decode_rejects :
    decode 0x00000000 = .error .unknownOpcode ∧ decode 0x00000006 = .error .unknownOpcode
    ∧ decode 0x000000FF = .error .unknownOpcode ∧ decode 0x00001003 = .error .reservedBits
    ∧ decode 0x80000003 = .error .reservedBits ∧ decode 0x00000110 = .error .ctxInFormatN
    ∧ decode 0x00000101 = .error .ctxInFormatN := by decide

theorem test_decodeTableWord : decodeTableWord 32 0x00000104 = some (.blkDec 1) ∧ decodeTableWord 32 0 = none := by decide

/-! ### The AES functions -/

/-- The byte string of `n` bytes spelled by a hex number. -/
def hex (n v : Nat) : Bytes := beBytes n v

def keyA1 : Bytes := hex 16 0x000102030405060708090a0b0c0d0e0f
def keyA2 : Bytes := hex 24 0x000102030405060708090a0b0c0d0e0f1011121314151617
def keyA3 : Bytes := hex 32 0x000102030405060708090a0b0c0d0e0f101112131415161718191a1b1c1d1e1f

/-- 40_aes_core.md R112, column ek. -/
def ekA1 : List Block :=
  [0x000102030405060708090a0b0c0d0e0f, 0xd6aa74fdd2af72fadaa678f1d6ab76fe, 0xb692cf0b643dbdf1be9bc5006830b3fe,
   0xb6ff744ed2c2c9bf6c590cbf0469bf41, 0x47f7f7bc95353e03f96c32bcfd058dfd, 0x3caaa3e8a99f9deb50f3af57adf622aa,
   0x5e390f7df7a69296a7553dc10aa31f6b, 0x14f9701ae35fe28c440adf4d4ea9c026, 0x47438735a41c65b9e016baf4aebf7ad2,
   0x549932d1f08557681093ed9cbe2c974e, 0x13111d7fe3944a17f307a78b4d2b30c5]

/-- 40_aes_core.md R112, column dk. -/
def dkA1 : List Block :=
  [0x13111d7fe3944a17f307a78b4d2b30c5, 0x13aa29be9c8faff6f770f58000f7bf03, 0x1362a4638f2586486bff5a76f7874a83,
   0x8d82fc749c47222be4dadc3e9c7810f5, 0x72e3098d11c5de5f789dfe1578a2cccb, 0x2ec410276326d7d26958204a003f32de,
   0xa8a2f5044de2c7f50a7ef79869671294, 0xc7c6e391e54032f1479c306d6319e50c, 0xa0db02992286d160a2dc029c2485d561,
   0x8c56dff0825dd3f9805ad3fc8659d7fd, 0x000102030405060708090a0b0c0d0e0f]

theorem test_keyExpansion_R112 : keyExpansion keyA1 = ekA1 := by decide +kernel
theorem test_decryptSchedule_R112 : decryptSchedule 10 ekA1 = dkA1 := by decide +kernel

/-- 95_test_vectors.md A2, A3: 24- and 32-byte keys. -/
theorem test_encryptBlock_A2 :
    encryptBlock keyA2 0x00112233445566778899aabbccddeeff = 0xdda97ca4864cdfe06eaf70a0ec0d7191 := by decide +kernel
theorem test_encryptBlock_A3 :
    encryptBlock keyA3 0x00112233445566778899aabbccddeeff = 0x8ea2b7ca516745bfeafc49904b496089 := by decide +kernel

/-! ### The mode functions -/

/-- 43_cmac.md R154, doubling corner cases. -/
theorem test_dbl_R154 : dbl 0x80000000000000000000000000000000 = 0x87 ∧ dbl 1 = 2 := by decide

/-- 45_gcm.md R197. -/
theorem test_gfmul_R197 :
    gfmul 0x80000000000000000000000000000000 0x66e94bd4ef8a2c3b884cfa59ca342b2e = 0x66e94bd4ef8a2c3b884cfa59ca342b2e
    ∧ gfmul 0x1 0x40000000000000000000000000000000 = 0xe1000000000000000000000000000000
    ∧ gfmul 0x0388dace60b6a392f328c2b971b2fe78 0x66e94bd4ef8a2c3b884cfa59ca342b2e
        = 0x5e2ec746917062882c85b0685353deb7 := by decide +kernel
theorem test_inc32_R197 :
    inc32 0x000102030405060708090a0bffffffff = 0x000102030405060708090a0b00000000 := by decide

/-- 95_test_vectors.md F1–F4: block B0. -/
theorem test_ccmB0 :
    ccmB0 (hex 13 0x00000003020100a0a1a2a3a4a5) 8 8 23 = 0x5900000003020100a0a1a2a3a4a50017
    ∧ ccmB0 (hex 13 0x00000003020100a0a1a2a3a4a5) 4 0 0 = 0x0900000003020100a0a1a2a3a4a50000
    ∧ ccmB0 (hex 13 0x00000003020100a0a1a2a3a4a5) 16 30 16 = 0x7900000003020100a0a1a2a3a4a50010
    ∧ ccmB0 (hex 13 0x00000003020100a0a1a2a3a4a5) 4 30 17 = 0x4900000003020100a0a1a2a3a4a50011 := by decide +kernel

/-! ### Commands, one engine turn each -/

/-- BUF holding the given byte strings. -/
def mem (l : List (Nat × Bytes)) : Memory := l.foldl (fun m p => Memory.putBytes m p.1 p.2) []

/-- A running command with snapshot `x` and BUF `m`, in the reference configuration. -/
def busy (x : Params) (m : Memory) : State :=
  { State.reset with latch := ⟨0, x, m, false⟩, buf := m, phase := .busy }

/-- RESULT of the next state. -/
def resultOf (o : Outcome) : Option Result :=
  match o with
  | .next t => some t.result
  | .fault _ => none
  | .refused _ => none

/-- Bytes of BUF in the next state. -/
def bytesAt (o : Outcome) (a n : Nat) : Bytes :=
  match o with
  | .next t => t.bufBytes ⟨a, n⟩
  | .fault _ => []
  | .refused _ => []

/-- A slot of the next state. -/
def slotAt (o : Outcome) (c : Nat) : Slot :=
  match o with
  | .next t => t.slot c
  | .fault _ => Slot.free
  | .refused _ => Slot.free

def encSlotA1 : Slot := ⟨true, .enc, 10, ekA1 ++ [0, 0, 0, 0]⟩
def decSlotA1 : Slot := ⟨true, .dec, 10, dkA1 ++ [0, 0, 0, 0]⟩

/-- Key A1 at 0x000; slot 0 an ENC slot of it, slot 1 a DEC slot; the plain block of A1 at 0x100 (95_test_vectors.md 2.3). -/
def blockState : State :=
  { busy { Params.zero with keyLen := 16, srcAddr := 0x100, dstAddr := 0x110 }
      (mem [(0, keyA1), (0x100, hex 16 0x00112233445566778899aabbccddeeff)]) with
    slots := [encSlotA1, decSlotA1, Slot.free, Slot.free] }

/-- The same state with the cipher block of A1 at 0x100. -/
def cipherBlockState : State :=
  { busy { Params.zero with keyLen := 16, srcAddr := 0x100, dstAddr := 0x110 }
      (mem [(0, keyA1), (0x100, hex 16 0x69c4e0d86a7b0430d8cdb78070b4c55a)]) with
    slots := [encSlotA1, decSlotA1, Slot.free, Slot.free] }

/-- B18, B19 and A11: the lowest free slot takes the schedule. -/
theorem test_blkInitEnc : slotAt (exec .blkInitEnc blockState) 2 = encSlotA1 := by decide +kernel
theorem test_blkInitEnc_result : resultOf (exec .blkInitEnc blockState) = some ⟨.ok, 2⟩ := by decide +kernel
/-- A12. -/
theorem test_blkInitDec : slotAt (exec .blkInitDec blockState) 2 = decSlotA1 := by decide +kernel
/-- B11: no free slot. -/
theorem test_blkInitDec_full :
    resultOf (exec .blkInitDec { blockState with slots := List.replicate 4 encSlotA1 })
      = some ⟨.allocationFailure, 0⟩ := by decide +kernel
/-- B3. -/
theorem test_blkEnc :
    bytesAt (exec (.blkEnc 0) blockState) 0x110 16 = hex 16 0x69c4e0d86a7b0430d8cdb78070b4c55a := by decide +kernel
/-- B5: partial overlap. -/
theorem test_blkEnc_overlap :
    resultOf (exec (.blkEnc 0) (busy { Params.zero with srcAddr := 0x100, dstAddr := 0x108 } [])) = some ⟨.contextError, 0⟩
    ∧ resultOf (exec (.blkEnc 0)
        { blockState with latch := ⟨3, { Params.zero with srcAddr := 0x100, dstAddr := 0x108 }, [], false⟩ })
      = some ⟨.parameterOutOfRange, 0⟩ := by decide +kernel
/-- The example of 41_block.md R123. -/
theorem test_blkDec :
    bytesAt (exec (.blkDec 1) cipherBlockState) 0x110 16 = hex 16 0x00112233445566778899aabbccddeeff := by decide +kernel
/-- B8: wrong direction. -/
theorem test_blkDec_direction : resultOf (exec (.blkDec 0) blockState) = some ⟨.contextError, 0⟩ := by decide +kernel
/-- B16. -/
theorem test_blkDeinit : slotAt (exec (.blkDeinit 0) blockState) 0 = Slot.free := by decide +kernel
/-- E6: slot 4 does not exist; E7: slot 15 with NUM_CTX = 16. -/
theorem test_blkDeinit_bounds :
    resultOf (exec (.blkDeinit 4) blockState) = some ⟨.contextError, 0⟩
    ∧ resultOf (exec (.blkDeinit 15)
        { blockState with cfg := ⟨16, 65536⟩, slots := List.replicate 16 encSlotA1 }) = some ⟨.ok, 0⟩ := by decide +kernel

def key2b : Bytes := hex 16 0x2b7e151628aed2a6abf7158809cf4f3c

/-- Key 2b7e… at 0x000, IV at 0x020, data at 0x100 (95_test_vectors.md 3). -/
def cbcState (data : Bytes) : State :=
  busy { Params.zero with keyLen := 16, ivAddr := 0x20, srcAddr := 0x100, dataLen := BitVec.ofNat 32 data.length }
    (mem [(0, key2b), (0x20, hex 16 0x000102030405060708090a0b0c0d0e0f), (0x100, data)])

/-- C2: two blocks. -/
theorem test_cbcEnc :
    bytesAt (exec .cbcEnc (cbcState (hex 32 0x6bc1bee22e409f96e93d7e117393172aae2d8a571e03ac9c9eb76fac45af8e51))) 0x100 32
      = hex 32 0x7649abac8119b246cee98e9b12e9197d5086cb9b507219ee95db113a917678b2 := by decide +kernel
/-- C6: length 20. -/
theorem test_cbcEnc_length :
    resultOf (exec .cbcEnc (cbcState (zeros 20))) = some ⟨.parameterOutOfRange, 0⟩ := by decide +kernel
/-- C3. -/
theorem test_cbcDec :
    bytesAt (exec .cbcDec (cbcState (hex 32 0x7649abac8119b246cee98e9b12e9197d5086cb9b507219ee95db113a917678b2))) 0x100 32
      = hex 32 0x6bc1bee22e409f96e93d7e117393172aae2d8a571e03ac9c9eb76fac45af8e51 := by decide +kernel

def msg40 : Bytes :=
  hex 40 0x6bc1bee22e409f96e93d7e117393172aae2d8a571e03ac9c9eb76fac45af8e5130c81c46a35ce411

/-- Key 2b7e… at 0x000, the descriptor table of program P4 at 0x080, the 40-byte message at 0x100 (95_test_vectors.md 4). -/
def cmacState (len segCount : Nat) : State :=
  busy
    { Params.zero with
      keyLen := 16
      srcAddr := 0x100
      dataLen := BitVec.ofNat 32 len
      tagAddr := 0x300
      segAddr := 0x80
      segCount := BitVec.ofNat 32 segCount }
    (mem [(0, key2b), (0x80, hex 24 0x000100000a000000f0ffffff000000000a0100001e000000), (0x100, msg40)])

/-- M1 and M2: the empty message, and one complete block. -/
theorem test_cmac_empty :
    bytesAt (exec .cmac (cmacState 0 0)) 0x300 16 = hex 16 0xbb1d6929e95937287fa37d129b756746 := by decide +kernel
theorem test_cmac_block :
    bytesAt (exec .cmac (cmacState 16 0)) 0x300 16 = hex 16 0x070a16b46b4d4144f79bdd9dd04a287c := by decide +kernel
/-- V1: segments of 10, 0 and 30 bytes. -/
theorem test_cmacVec :
    bytesAt (exec .cmacVec (cmacState 0 3)) 0x300 16 = hex 16 0xdfa66747de9ae63030ca32611497c827 := by decide +kernel
/-- 70_reset_and_hazards.md R236: a segment is raced although the key region is out of bounds and the command will fail. -/
theorem test_cmacVec_race_keyOutOfBounds :
    let s := cmacState 0 3
    let t := { s with latch := { s.latch with lcmd := 0x21, x := { s.latch.x with keyAddr := 0x10000 } } }
    t.isRaced 0x100 = true ∧ resultOf (exec .cmacVec t) = some ⟨.addressError, 0⟩ := by decide +kernel
/-- V6: the table length does not wrap. -/
theorem test_cmacVec_huge :
    resultOf (exec .cmacVec (cmacState 0 0x20000000)) = some ⟨.addressError, 0⟩ := by decide +kernel

/-- 95_test_vectors.md 5: the key and the nonce of N1 to N6, the AAD of N6; source at 0x100, destination at 0x200, tag at
0x300. -/
def ccmState (aadLen : Word) (src tag : Bytes) (tagLen : Word) : State :=
  busy
    { Params.zero with
      keyLen := 16
      ivAddr := 0x20
      aadAddr := 0x40
      aadLen := aadLen
      srcAddr := 0x100
      dstAddr := 0x200
      dataLen := BitVec.ofNat 32 src.length
      tagAddr := 0x300
      tagLen := tagLen }
    (mem [(0, hex 16 0xc0c1c2c3c4c5c6c7c8c9cacbcccdcecf), (0x20, hex 13 0x00000003020100a0a1a2a3a4a5),
      (0x40, hex 14 0x000102030405060708090a0b0c0d), (0x100, src), (0x300, tag)])

/-- N6: 14 bytes of AAD, one byte of data, M = 6. -/
theorem test_ccmEnc :
    bytesAt (exec .ccmEnc (ccmState 14 [0x00] [] 6)) 0x200 1 = [0x50]
    ∧ bytesAt (exec .ccmEnc (ccmState 14 [0x00] [] 6)) 0x300 6 = hex 6 0x7e015322b30e := by decide +kernel
/-- N13: odd M. -/
theorem test_ccmEnc_oddTag :
    resultOf (exec .ccmEnc (ccmState 14 [0x00] [] 5)) = some ⟨.parameterOutOfRange, 0⟩ := by decide +kernel
/-- N6, decrypted. -/
theorem test_ccmDec :
    bytesAt (exec .ccmDec (ccmState 14 [0x50] (hex 6 0x7e015322b30e) 6)) 0x200 1 = [0x00] := by decide +kernel
/-- N2's tag with its last bit flipped (as N8). -/
theorem test_ccmDec_mismatch :
    resultOf (exec .ccmDec (ccmState 0 [] (hex 4 0xfed369ab) 4)) = some ⟨.authMismatch, 0⟩ := by decide +kernel

/-- 95_test_vectors.md 6: a zero key at 0x000, IV at 0x020, AAD at 0x040, source 0x100, destination 0x200, tag 0x300. -/
def gcmState (iv aad src tag : Bytes) (tagLen : Word) : State :=
  busy
    { Params.zero with
      keyLen := 16
      ivAddr := 0x20
      ivLen := BitVec.ofNat 32 iv.length
      aadAddr := 0x40
      aadLen := BitVec.ofNat 32 aad.length
      srcAddr := 0x100
      dstAddr := 0x200
      dataLen := BitVec.ofNat 32 src.length
      tagAddr := 0x300
      tagLen := tagLen }
    (mem [(0, zeros 16), (0x20, iv), (0x40, aad), (0x100, src), (0x300, tag)])

/-- G2. -/
theorem test_gcmEnc :
    bytesAt (exec .gcmEnc (gcmState (zeros 12) [] (zeros 16) [] 16)) 0x200 16
      = hex 16 0x0388dace60b6a392f328c2b971b2fe78
    ∧ bytesAt (exec .gcmEnc (gcmState (zeros 12) [] (zeros 16) [] 16)) 0x300 16
      = hex 16 0xab6e47d42cec13bdf53a67b21257bddf := by decide +kernel
/-- G12: a 1-byte IV, one AAD byte, a 3-byte message. -/
theorem test_gcmEnc_partial :
    bytesAt (exec .gcmEnc (gcmState [1] [0xaa] (zeros 3) [] 16)) 0x200 3 = hex 3 0x90fb61
    ∧ bytesAt (exec .gcmEnc (gcmState [1] [0xaa] (zeros 3) [] 16)) 0x300 16
      = hex 16 0x56294e35e74d7b12b3cccec43f0b8186 := by decide +kernel
/-- G16 with G9's 4-byte tag. -/
theorem test_gcmDec :
    bytesAt (exec .gcmDec (gcmState (zeros 12) [] (hex 16 0x0388dace60b6a392f328c2b971b2fe78) (hex 4 0xab6e47d4) 4)) 0x200 16
      = zeros 16 := by decide +kernel
/-- G17. -/
theorem test_gcmDec_mismatch :
    resultOf (exec .gcmDec (gcmState (zeros 12) [] (hex 16 0x0388dace60b6a392f328c2b971b2fe78)
      (hex 16 0xab6e47d42cec13bdf53a67b21257bdde) 16)) = some ⟨.tagMismatch, 0⟩ := by decide +kernel
/-- G13: GMAC with an empty IV and one AAD byte. -/
theorem test_gmac :
    bytesAt (exec .gmac (gcmState [] [0] [] [] 16)) 0x300 16 = hex 16 0x807b4aaa0cffee7026d847173296e896 := by
  decide +kernel
/-- G20: TAG_LEN 3. -/
theorem test_gmac_tagLen :
    resultOf (exec .gmac (gcmState [] [0] [] [] 3)) = some ⟨.parameterOutOfRange, 0⟩ := by decide +kernel

/-! ### The host port (95_test_vectors.md 8) -/

/-- The port's response after one access. -/
def respOf (s : State) : Option BusResponse := s.bus

/-- H1, H2: little-endian lanes, and overlapping widths. -/
theorem test_buf_lanes :
    respOf ((State.reset.hostWrite 4 0x10100 0x44332211).hostRead 1 0x10102) = some ⟨false, 0x33⟩
    ∧ respOf (((State.reset.hostWrite 4 0x10100 0x44332211).hostWrite 2 0x10102 0xBEEF).hostRead 4 0x10100)
      = some ⟨false, 0xBEEF2211⟩ := by decide +kernel
/-- H3–H7. -/
theorem test_bus_errors :
    respOf (State.reset.hostWrite 4 0x10102 1) = some ⟨true, 0⟩ ∧ respOf (State.reset.hostRead 2 0x10101) = some ⟨true, 0⟩
    ∧ respOf (State.reset.hostWrite 1 0x008 1) = some ⟨true, 0⟩ ∧ respOf (State.reset.hostRead 4 0x00A) = some ⟨true, 0⟩
    ∧ respOf (State.reset.hostRead 4 0x01000) = some ⟨false, 0⟩
    ∧ respOf (State.reset.hostWrite 4 0x20000 1) = some ⟨false, 0⟩ := by decide +kernel
/-- 8.1: registers after reset. -/
theorem test_reset_registers :
    respOf (State.reset.hostRead 4 0x000) = some ⟨false, 0x41455347⟩
    ∧ respOf (State.reset.hostRead 4 0x004) = some ⟨false, 0x00100004⟩
    ∧ respOf (State.reset.hostRead 4 0x00C) = some ⟨false, 0⟩ ∧ respOf (State.reset.hostRead 4 0x0FC) = some ⟨false, 0⟩ := by
  decide +kernel
/-- 60_exceptions.md R205: the number of each result code, as a read of RESULT gives it. -/
theorem test_result_codes :
    [ResultCode.ok, .invalidKeyLength, .allocationFailure, .parameterOutOfRange, .authMismatch, .tagMismatch,
      .illegalCommand, .addressError, .contextError].map
        (fun k => respOf ({ State.reset with result := ⟨k, 3⟩ }.hostRead 4 0x010))
      = [0x300, 0x301, 0x302, 0x303, 0x304, 0x305, 0x306, 0x307, 0x308].map fun v => some ⟨false, v⟩ := by decide +kernel
/-- H10, H11. -/
theorem test_ctrl_writes :
    (State.reset.hostWrite 4 0x008 3).irqEn = false
    ∧ respOf ((State.reset.hostWrite 4 0x008 0xFFFFFFFD).hostRead 4 0x008) = some ⟨false, 1⟩ := by decide +kernel
/-- I1, I4, I5, I6: STATUS through acceptance, overrun, completion and acknowledgement. -/
theorem test_status_sequence :
    (State.reset.hostWrite 4 0x014 5).statusWord = 1
    ∧ ((State.reset.hostWrite 4 0x014 5).hostWrite 4 0x014 5).statusWord = 5
    ∧ (((State.reset.hostWrite 4 0x014 5).hostWrite 4 0x014 5).complete .contextError 0).statusWord = 6
    ∧ ((((State.reset.hostWrite 4 0x014 5).hostWrite 4 0x014 5).complete .contextError 0).hostWrite 4 0x00C 4).statusWord
      = 2 := by decide +kernel

/-- P6, statements 20 to 22, as three steps: a zero word is accepted and completes with ILLEGAL_COMMAND. -/
theorem test_step_illegal_word :
    resultOf (Host.Core.run Sys2Proof.core 2 { State.reset with agenda := [.host (.write 4 0x014 0)] })
      = some ⟨.illegalCommand, 0⟩ := by decide +kernel

/-- 30_encoding.md R80, R81. -/
theorem test_host_notation :
    programAccesses [.key 0 16, .bufw 0x100 [0xAA, 0x55], .cmd (.blkDec 1), .wait, .ack, .bufr 0xFFFF 1]
      = [.write 4 0x020 0, .write 4 0x024 16, .write 1 0x10100 0xAA, .write 1 0x10101 0x55, .write 4 0x014 0x104,
         .read 4 0x00C, .write 4 0x00C 2, .read 1 0x1FFFF] := by decide
/-- The offsets of the names are those the register map decodes. -/
theorem test_param_offsets (r : ParamReg) : paramAt r.offset.toNat = some r := by cases r <;> rfl
/-- 70_reset_and_hazards.md R246: after reset no run is under way. -/
theorem test_reset_runEnded : State.reset.RunEnded := ⟨rfl, fun _ h => nomatch h⟩
/-- The host's preparation of BLK_INIT_ENC: the key's address and length, and its bytes. -/
def prepareKey : List HostAccess := programAccesses [.key 0 16, .bufw 0 (zeros 16)]
/-- 70_reset_and_hazards.md R248: the reset state so prepared is a clean launch state for BLK_INIT_ENC. -/
theorem test_cleanLaunch : (prepareKey.foldl State.hostAccess State.reset).CleanLaunch 0x00000001 := by
  refine .of_reset ⟨by decide, rfl⟩ ?_ fun i hi => ?_
  · intro a ha
    simp only [show prepareKey = .write 4 0x020 0 :: .write 4 0x024 16
        :: (List.range 16).map (fun i => .write 1 (bufOffset i) 0) by decide +kernel,
      List.mem_cons, List.mem_map, List.mem_range] at ha
    rcases ha with rfl | rfl | ⟨i, hi, rfl⟩
    · exact .inl ⟨rfl, .keyAddr, rfl⟩
    · exact .inl ⟨rfl, .keyLen, rfl⟩
    · exact .inr (by simp [bufOffset]; omega)
  · rw [show decode 0x00000001 = .ok .blkInitEnc by decide] at hi
    cases hi
    refine ⟨?_, ?_⟩
    · intro r hr
      simp only [paramsRead, List.mem_cons, List.not_mem_nil, or_false] at hr
      rcases hr with rfl | rfl
      · exact ⟨0, by decide +kernel⟩
      · exact ⟨16, by decide +kernel⟩
    · have hin : ((prepareKey.foldl State.hostAccess State.reset).accept 1).inputs .blkInitEnc = [⟨0, 16⟩] := by
        decide +kernel
      have hall : ∀ a < 16, Memory.byte? (prepareKey.foldl State.hostAccess State.reset).buf a = some 0 := by
        decide +kernel
      intro r hr a ha _
      rw [hin, List.mem_singleton] at hr
      subst hr
      exact ⟨0, hall a (by have := ha.2; omega)⟩

/-! ### Witnesses: states and operands that meet the hypotheses of each statement -/

/-- The state after an outcome. -/
def after (o : Outcome) : State :=
  match o with
  | .next t => t
  | .fault _ => State.reset
  | .refused _ => State.reset

/-- A state ready to run a second command on what command `i` left in BUF. -/
def again (s : State) (i : Instr) : State :=
  let t := after (exec i s)
  { s with latch := { s.latch with buf := t.buf }, buf := t.buf }

/-- A state with latched word `w`, its command raced or not, and an agenda. -/
def running (w : Word) (raced : Bool) (agenda : List Event) : State :=
  { blockState with
    latch := ⟨w, blockState.latch.x, blockState.latch.buf, raced⟩
    agenda := agenda }

/-- The next state of a command, where its checks pass. -/
theorem next_after (i : Instr) (s : State) : exec i s = .next (after (exec i s)) := by
  obtain ⟨t, h⟩ := exec_next i s
  rw [h, after]

/-- A busy engine with a legal word has a next state. -/
theorem engineTurn_next {s : State} (hp : s.phase = .busy) {i : Instr} (hd : decode s.latch.lcmd = .ok i) :
    ∃ t, s.engineTurn = .next t := by
  obtain ⟨t, h⟩ := exec_next i s
  rw [State.engineTurn]
  simp only [hp, hd, State.runCommand, h]
  exact ⟨_, rfl⟩

theorem witness_StepRunsTheDecodedCommand :
    ((running 0x0003 false [.engine]).agenda = .engine :: [] ∧ (running 0x0003 false [.engine]).phase = .busy
      ∧ decode (running 0x0003 false [.engine]).latch.lcmd = .ok (.blkEnc 0))
    ∧ ((running 0x0003 true []).agenda = [] ∧ (running 0x0003 true []).latch.raced = true)
    ∧ State.reset.phase = .idle := by decide
theorem witness_StepRunsTheDecodedCommand_host :
    (running 0x0003 false [.host (.read 4 0x00C), .engine]).agenda = .host (.read 4 0x00C) :: [.engine] := rfl
theorem witness_StepRunsTheDecodedCommand_race : ∃ t, exec (.blkEnc 0) (running 0x0003 true []) = .next t :=
  ⟨_, next_after _ _⟩
theorem witness_IllegalWordCompletesWithIllegalCommand :
    (running 0x0000 false [.engine, .hardReset]).agenda = .engine :: [.hardReset]
    ∧ (running 0x0000 false [.engine, .hardReset]).phase = .busy
    ∧ ∀ i, decode (running 0x0000 false [.engine, .hardReset]).latch.lcmd ≠ .ok i := by
  refine ⟨rfl, rfl, fun i h => ?_⟩
  rw [show decode (running 0x0000 false [.engine, .hardReset]).latch.lcmd = .error .unknownOpcode by decide] at h
  cases h

/-- The empty agenda, for an illegal word and for a raced command. -/
theorem witness_IllegalWord_emptyAgenda :
    (running 0x0000 false []).agenda = [] ∧ (running 0x0000 false []).phase = .busy
    ∧ ∀ i, decode (running 0x0000 false []).latch.lcmd ≠ .ok i := by
  refine ⟨rfl, rfl, fun i h => ?_⟩
  rw [show decode (running 0x0000 false []).latch.lcmd = .error .unknownOpcode by decide] at h
  cases h
theorem witness_RacedCommand_emptyAgenda :
    (running 0x0003 true []).agenda = [] ∧ (running 0x0003 true []).latch.raced = true
    ∧ (∃ u, exec (.blkEnc 0) { running 0x0003 true [] with agenda := [] } = .next u)
    ∧ ∃ t, step (running 0x0003 true []) = .next t :=
  ⟨rfl, rfl, ⟨_, next_after _ _⟩, engineTurn_next (s := running 0x0003 true []) rfl (i := .blkEnc 0) (by decide)⟩

theorem ready_of {s : State} {i : Instr} (h : firstFailure (s.checks i) = none) : s.Ready i := (s.ready_iff i).mp h

/-! `State.Ready`, for the completion statement of each command. -/

theorem witness_BlkInitEnc : blockState.slots.length = blockState.cfg.numCtx ∧ blockState.Ready .blkInitEnc
    ∧ (blockState.slot 2).valid = false ∧ ∀ d < 2, (blockState.slot d).valid = true :=
  ⟨rfl, ready_of (by decide +kernel), rfl, by decide⟩
theorem witness_BlkInitDec : blockState.slots.length = blockState.cfg.numCtx ∧ blockState.Ready .blkInitDec
    ∧ (blockState.slot 2).valid = false ∧ ∀ d < 2, (blockState.slot d).valid = true :=
  ⟨rfl, ready_of (by decide +kernel), rfl, by decide⟩
theorem witness_BlkEnc : blockState.Ready (.blkEnc 0) := ready_of (by decide +kernel)
theorem witness_BlkDec : blockState.Ready (.blkDec 1) := ready_of (by decide +kernel)
theorem witness_BlkDeinit : blockState.Ready (.blkDeinit 1) := ready_of (by decide +kernel)
theorem witness_CbcEnc : (cbcState (zeros 32)).Ready .cbcEnc := ready_of (by decide +kernel)
theorem witness_CbcDec : (cbcState (zeros 32)).Ready .cbcDec := ready_of (by decide +kernel)
theorem witness_Cmac : (cmacState 40 0).Ready .cmac := ready_of (by decide +kernel)
theorem witness_CmacVec : (cmacState 0 3).Ready .cmacVec := ready_of (by decide +kernel)
theorem witness_CcmEnc : (ccmState 14 [0x00] [] 6).Ready .ccmEnc := ready_of (by decide +kernel)
/-- The verification passes on what CCM_ENC wrote (test_ccmDec), and fails on a wrong tag (test_ccmDec_mismatch). -/
theorem witness_CcmDec_verified :
    (ccmState 0 [] (hex 4 0xfed369aa) 4).Ready .ccmDec
    ∧ (ccmState 0 [] (hex 4 0xfed369aa) 4).ccmExpected
      = (ccmState 0 [] (hex 4 0xfed369aa) 4).memRead (ccmState 0 [] (hex 4 0xfed369aa) 4).latch.x.tagRegion :=
  ⟨ready_of (by decide +kernel), by decide +kernel⟩
theorem witness_CcmDec_mismatch :
    (ccmState 0 [] (hex 4 0xfed369ab) 4).Ready .ccmDec
    ∧ (ccmState 0 [] (hex 4 0xfed369ab) 4).ccmExpected
      ≠ (ccmState 0 [] (hex 4 0xfed369ab) 4).memRead (ccmState 0 [] (hex 4 0xfed369ab) 4).latch.x.tagRegion :=
  ⟨ready_of (by decide +kernel), by decide +kernel⟩
theorem witness_GcmEnc : (gcmState (zeros 12) [] (zeros 16) [] 16).Ready .gcmEnc := ready_of (by decide +kernel)
/-- G10's tag. -/
def gcmTagState (tag : Bytes) : State := gcmState [] [] [] tag 16
theorem witness_GcmDec_verified :
    (gcmTagState (hex 16 0x66e94bd4ef8a2c3b884cfa59ca342b2e)).Ready .gcmDec
    ∧ (gcmTagState (hex 16 0x66e94bd4ef8a2c3b884cfa59ca342b2e)).gcmExpected
      = (gcmTagState (hex 16 0x66e94bd4ef8a2c3b884cfa59ca342b2e)).memRead
        (gcmTagState (hex 16 0x66e94bd4ef8a2c3b884cfa59ca342b2e)).latch.x.tagRegion :=
  ⟨ready_of (by decide +kernel), by decide +kernel⟩
theorem witness_GcmDec_mismatch :
    (gcmTagState (zeros 16)).Ready .gcmDec
    ∧ (gcmTagState (zeros 16)).gcmExpected ≠ (gcmTagState (zeros 16)).memRead (gcmTagState (zeros 16)).latch.x.tagRegion :=
  ⟨ready_of (by decide +kernel), by decide +kernel⟩
theorem witness_Gmac : (gcmState [] [0] [] [] 16).Ready .gmac := ready_of (by decide +kernel)

/-! The checks, the frames and the functions of the inputs. -/

theorem not_ready_of {s : State} {i : Instr} {k : ResultCode} (h : firstFailure (s.checks i) = some k) : ¬ s.Ready i :=
  fun hr => by rw [(s.ready_iff i).mpr hr] at h; cases h

theorem witness_FailedCheckChangesNothing : ¬ blockState.Ready (.blkDec 0) :=
  not_ready_of (k := .contextError) (by decide +kernel)

/-- One state for each clause of FirstFailingCheckGivesTheCode: context, key length, scalars, bounds, overlap. -/
theorem witness_FirstFailingCheck_context : ¬ blockState.ContextLegal (.blkEnc 4) := by decide
theorem witness_FirstFailingCheck_key :
    (cmacState 0 0).ContextLegal .gmac
    ∧ ¬ ({ (cmacState 0 0).latch.x with keyLen := 17 } : Params).KeyLegal .gmac := by decide
theorem witness_FirstFailingCheck_scalars :
    (cbcState (zeros 20)).ContextLegal .cbcEnc ∧ (cbcState (zeros 20)).latch.x.KeyLegal .cbcEnc
    ∧ ¬ (cbcState (zeros 20)).latch.x.ScalarsLegal .cbcEnc := by decide
/-- 95_test_vectors.md V6: the table of 2^29 descriptors is out of bounds. -/
theorem witness_FirstFailingCheck_bounds :
    (cmacState 0 0x20000000).ContextLegal .cmacVec ∧ (cmacState 0 0x20000000).latch.x.KeyLegal .cmacVec
    ∧ (cmacState 0 0x20000000).latch.x.ScalarsLegal .cmacVec
    ∧ ¬ (cmacState 0 0x20000000).BoundsLegal .cmacVec :=
  ⟨trivial, by decide, trivial, fun h =>
    absurd (((cmacState 0 0x20000000).boundsOk_iff .cmacVec).mpr h) (by decide +kernel)⟩
/-- The destination block overlaps the source block in part (B5). -/
def overlapState : State :=
  { blockState with latch := ⟨3, { Params.zero with srcAddr := 0x100, dstAddr := 0x10F }, [], false⟩ }
theorem witness_FirstFailingCheck_overlap :
    overlapState.ContextLegal (.blkEnc 0) ∧ overlapState.latch.x.KeyLegal (.blkEnc 0)
    ∧ overlapState.latch.x.ScalarsLegal (.blkEnc 0) ∧ overlapState.BoundsLegal (.blkEnc 0)
    ∧ ¬ overlapState.OverlapLegal (.blkEnc 0) := by decide
/-- Every slot is in use (B11). -/
def fullState : State := { blockState with slots := List.replicate 4 encSlotA1 }
theorem witness_FirstFailingCheck_allocation :
    fullState.ContextLegal .blkInitEnc ∧ fullState.latch.x.KeyLegal .blkInitEnc
    ∧ fullState.latch.x.ScalarsLegal .blkInitEnc ∧ fullState.BoundsLegal .blkInitEnc
    ∧ fullState.OverlapLegal .blkInitEnc ∧ ¬ fullState.AllocLegal .blkInitEnc := by decide +kernel

theorem witness_OnlyOutputRegionsAreWritten : ∃ t, exec (.blkEnc 0) blockState = .next t := ⟨_, next_after _ _⟩
theorem witness_CommandsLeaveOtherSlotsAlone :
    blockState.cfg.Legal ∧ (∃ t, exec (.blkDeinit 1) blockState = .next t) ∧ ∃ t, exec .blkInitEnc blockState = .next t :=
  ⟨by decide, ⟨_, next_after _ _⟩, _, next_after _ _⟩
theorem witness_SlotsAreOpaqueAndZeroedOnRelease :
    (blockState.slot 0).valid = true
    ∧ ((after (step { blockState with agenda := [.hardReset] })).slot 0).valid = false
    ∧ (0x3 : Word).getLsbD 1 = true ∧ (0x1 : Word).getLsbD 1 = false := by decide +kernel
theorem witness_SlotsAreOpaque_command :
    (∀ c : Nat, (.cmac : Instr) ≠ .blkDeinit c) ∧ (.cmac : Instr) ≠ .blkInitEnc ∧ (.cmac : Instr) ≠ .blkInitDec
    ∧ ∃ t, exec .cmac (cmacState 0 0) = .next t :=
  ⟨(fun _ h => nomatch h), by decide, by decide, _, next_after _ _⟩
/-- Two states with one latch, all else different. -/
def otherCbcState : State := { cbcState (zeros 16) with slots := [], buf := [], done := true }
theorem witness_ModeCommandsAreFunctionsOfTheirInputs :
    (cbcState (zeros 16)).cfg = otherCbcState.cfg ∧ (cbcState (zeros 16)).epoch = otherCbcState.epoch
    ∧ (cbcState (zeros 16)).latch = otherCbcState.latch
    ∧ resultOf (exec .cbcEnc (cbcState (zeros 16))) = some ⟨.ok, 0⟩
    ∧ resultOf (exec .cbcEnc otherCbcState) = some ⟨.ok, 0⟩ :=
  ⟨rfl, rfl, rfl, by decide +kernel, by decide +kernel⟩

/-! The host port. -/

theorem witness_CommandWrite : State.reset.phase = .idle ∧ blockState.phase = .busy := ⟨rfl, rfl⟩
theorem witness_RegisterReads : (0x0FC : Nat) < 0x100 ∧ 0x0FC % 4 = 0 ∧ (0x020 : Nat) < 0x100 ∧ 0x020 % 4 = 0 := by decide
theorem witness_ReadOnlyAndReserved :
    (0x010 : Nat) < 0x020 ∧ 0x010 % 4 = 0 ∧ (0x050 : Nat) < 0x054 ∧ (0x0FC : Nat) < 0x100 := by decide
theorem witness_ControlWrite : (1 : Word).getLsbD 1 = false ∧ (2 : Word).getLsbD 1 = true := by decide
theorem witness_BadAccess :
    ((0x0FE : Word).toNat < 0x100 ∧ (2 ≠ 4 ∨ (0x0FE : Word).toNat % 4 ≠ 0))
    ∧ 0x10000 ≤ (0x1FFFF : Word).toNat ∧ (0x1FFFF : Word).toNat < 0x10000 + State.reset.cfg.bufSize
    ∧ ((0x1FFFF : Word).toNat - 0x10000) % 2 ≠ 0 := by decide
/-- Widths 3 and 8 at addresses that are multiples of them. -/
theorem witness_BadAccess_width :
    (0x10000 ≤ (0x10000 : Word).toNat ∧ (0x10000 : Word).toNat < 0x10000 + State.reset.cfg.bufSize ∧ 3 ∉ [1, 2, 4])
    ∧ (0x10000 ≤ (0x10008 : Word).toNat ∧ (0x10008 : Word).toNat < 0x10000 + State.reset.cfg.bufSize
      ∧ ((0x10008 : Word).toNat - 0x10000) % 8 = 0 ∧ 8 ∉ [1, 2, 4]) := by decide
theorem witness_Unmapped :
    (0x100 ≤ (0x100 : Word).toNat ∧ (0xFFFF : Word).toNat < 0x10000)
    ∧ 0x10000 + State.reset.cfg.bufSize ≤ (0x20000 : Word).toNat := by decide
/-- The last word of BUF, no command running; and a byte beside the running command's regions. -/
theorem witness_BufAccesses :
    State.reset.cfg.Legal ∧ (0xFFFC : Nat) % 4 = 0 ∧ 0xFFFC < State.reset.cfg.bufSize
    ∧ State.reset.runningRegions = []
    ∧ (running 0x0003 false []).runningRegions = [⟨0x100, 16⟩, ⟨0x110, 16⟩] := by decide +kernel
/-- A running BLK_ENC with its destination at 0x112, so that a 4-byte access at 0x110 is raced in its last two bytes only,
one at 0x114 in all four, a 2-byte one at 0x120 in both and a 1-byte one at 0x121 in its one. -/
def racedState : State :=
  { running 0x0003 false [] with
    latch := ⟨0x0003, { Params.zero with srcAddr := 0x100, dstAddr := 0x112 }, [], false⟩ }
theorem witness_RacedAccesses :
    racedState.cfg.Legal ∧ racedState.phase = .busy ∧ decode racedState.latch.lcmd = .ok (.blkEnc 0)
    ∧ 4 ∈ [1, 2, 4] ∧ 0x110 % 4 = 0 ∧ 0x110 < racedState.cfg.bufSize
    ∧ racedState.regions (.blkEnc 0) = [⟨0x100, 16⟩, ⟨0x112, 16⟩]
    ∧ ¬ (⟨0x100, 16⟩ : Region).Holds (0x110 + 1) ∧ ¬ (⟨0x112, 16⟩ : Region).Holds (0x110 + 1)
    ∧ (⟨0x112, 16⟩ : Region).Holds (0x110 + 2) ∧ (⟨0x112, 16⟩ : Region).Holds (0x114 + 0)
    ∧ (⟨0x112, 16⟩ : Region).Holds (0x120 + 1) ∧ (⟨0x112, 16⟩ : Region).Holds (0x121 + 0) := by decide +kernel
theorem witness_RacedCommand :
    (running 0x0003 true [.engine]).agenda = .engine :: [] ∧ (running 0x0003 true [.engine]).phase = .busy
    ∧ (running 0x0003 true [.engine]).latch.raced = true
    ∧ decode (running 0x0003 true [.engine]).latch.lcmd = .ok (.blkEnc 0)
    ∧ (∃ u, exec (.blkEnc 0) { running 0x0003 true [.engine] with agenda := [] } = .next u)
    ∧ ∃ t, step (running 0x0003 true [.engine]) = .next t := by
  refine ⟨rfl, rfl, rfl, by decide, ⟨_, next_after _ _⟩, ?_⟩
  exact engineTurn_next (s := running 0x0003 true []) rfl (i := .blkEnc 0) (by decide)

/-- A raced BLK_INIT_ENC that allocates slot 2. -/
theorem witness_RacedCommand_alloc :
    (running 0x0001 true [.engine]).latch.raced = true
    ∧ decode (running 0x0001 true [.engine]).latch.lcmd = .ok .blkInitEnc
    ∧ resultOf (exec .blkInitEnc { running 0x0001 true [.engine] with agenda := [] }) = some ⟨.ok, 2⟩
    ∧ (running 0x0001 true [.engine]).cfg.Legal
    ∧ (running 0x0001 true [.engine]).slots.length = (running 0x0001 true [.engine]).cfg.numCtx := by decide +kernel
/-- The command's turn in SlotsAreOpaqueAndZeroedOnRelease, raced. -/
theorem witness_SlotsAreOpaque_step :
    (∀ i, decode (running 0x0003 true [.engine]).latch.lcmd = .ok i →
      (∀ c, i ≠ .blkDeinit c) ∧ i ≠ .blkInitEnc ∧ i ≠ .blkInitDec)
    ∧ ∃ t, step (running 0x0003 true [.engine]) = .next t := by
  refine ⟨fun i h => ?_, engineTurn_next (s := running 0x0003 true []) rfl (i := .blkEnc 0) (by decide)⟩
  rw [show decode (running 0x0003 true [.engine]).latch.lcmd = .ok (.blkEnc 0) by decide] at h
  cases h
  exact ⟨nofun, nofun, nofun⟩

/-! Resets and the invariant. -/

theorem witness_SoftReset :
    (2 : Word).getLsbD 1 = true ∧ State.reset.phase = .idle
    ∧ (running 0x0003 false []).phase = .busy ∧ decode (running 0x0003 false []).latch.lcmd = .ok (.blkEnc 0)
    ∧ decode (running 0x0006 false []).latch.lcmd = .error .unknownOpcode := by decide
theorem witness_HardwareReset : (running 0x0003 false [.hardReset, .engine]).agenda = .hardReset :: [.engine] := rfl
/-- The smallest and the largest configuration. -/
theorem witness_InvariantHoldsAtReset : (⟨1, 256⟩ : Config).Legal ∧ (⟨16, 16777216⟩ : Config).Legal := by decide
theorem blockState_slots_legal : ∀ sl ∈ blockState.slots, sl.Legal := by
  have he : encSlotA1.Legal := Slot.ofSchedule_legal (rk := ekA1) (.inl rfl) rfl
  have hd : decSlotA1.Legal := Slot.ofSchedule_legal (rk := dkA1) (.inl rfl) rfl
  have hs : blockState.slots = [encSlotA1, decSlotA1, Slot.free, Slot.free] := rfl
  intro sl h
  simp only [hs, List.mem_cons, List.not_mem_nil, or_false] at h
  rcases h with rfl | rfl | rfl | rfl <;> first | exact he | exact hd | exact Slot.free_legal
/-- A running command in a state that meets the invariant, and its next state. -/
theorem witness_InvariantIsKeptByEveryStep :
    (running 0x0003 false [.engine]).Inv ∧ ∃ t, step (running 0x0003 false [.engine]) = .next t := by
  refine ⟨⟨by decide, by decide, blockState_slots_legal, by decide +kernel, by decide +kernel, fun _ => rfl,
    fun h => absurd h (by decide), fun _ => rfl, by decide, fun _ => rfl⟩, ?_⟩
  exact engineTurn_next (s := running 0x0003 false []) rfl (i := .blkEnc 0) (by decide)

/-! The modes, and the round trips. -/

theorem witness_CiphersAreInverse :
    KeyLengthLegal keyA1.length ∧ KeyLengthLegal keyA2.length ∧ KeyLengthLegal keyA3.length := by decide
/-- The state of the block commands with other slots: none in use, or slot 0 in use. -/
def initEncState : State := { blockState with slots := List.replicate 4 Slot.free }
def initDecState : State := { blockState with slots := [encSlotA1, Slot.free, Slot.free, Slot.free] }
theorem initEncState_inv : initEncState.Inv := by
  refine ⟨by decide, by decide, fun sl h => ?_, by decide +kernel, by decide +kernel, fun _ => rfl,
    fun h => absurd h (by decide), fun _ => rfl, by decide, fun _ => rfl⟩
  rw [List.eq_of_mem_replicate h]; exact Slot.free_legal
theorem initDecState_inv : initDecState.Inv := by
  have hs : initDecState.slots = [encSlotA1, Slot.free, Slot.free, Slot.free] := rfl
  refine ⟨by decide, by decide, fun sl h => ?_, by decide +kernel, by decide +kernel, fun _ => rfl,
    fun h => absurd h (by decide), fun _ => rfl, by decide, fun _ => rfl⟩
  simp only [hs, List.mem_cons, List.not_mem_nil, or_false] at h
  rcases h with rfl | rfl | rfl | rfl
  · exact Slot.ofSchedule_legal (rk := ekA1) (.inl rfl) rfl
  all_goals exact Slot.free_legal
theorem witness_BlockRoundTrip_inits :
    resultOf (exec .blkInitEnc initEncState) = some ⟨.ok, 0⟩ ∧ resultOf (exec .blkInitDec initDecState) = some ⟨.ok, 1⟩
    ∧ initDecState.key = initEncState.key
    ∧ blockState.slot 0 = slotAt (exec .blkInitEnc initEncState) 0
    ∧ cipherBlockState.slot 1 = slotAt (exec .blkInitDec initDecState) 1 := by decide +kernel
theorem witness_BlockRoundTrip_runs :
    resultOf (exec (.blkEnc 0) blockState) = some ⟨.ok, 0⟩ ∧ resultOf (exec (.blkDec 1) cipherBlockState) = some ⟨.ok, 0⟩
    ∧ cipherBlockState.snapBlock cipherBlockState.latch.x.srcAddr.toNat
      = (after (exec (.blkEnc 0) blockState)).bufBlock blockState.latch.x.dstAddr.toNat := by decide +kernel
theorem witness_CbcRoundTrip :
    let s := cbcState (zeros 32)
    let u := again s .cbcEnc
    (after (exec .cbcEnc s)).result.code = .ok ∧ u.key = s.key
      ∧ u.memRead u.latch.x.cbcIvRegion = s.memRead s.latch.x.cbcIvRegion
      ∧ u.latch.x.srcRegion = s.latch.x.srcRegion
      ∧ u.memRead u.latch.x.srcRegion = (after (exec .cbcEnc s)).bufBytes s.latch.x.srcRegion
      ∧ (after (exec .cbcDec u)).result.code = .ok :=
  ⟨by decide +kernel, by decide +kernel, by decide +kernel, rfl, rfl, by decide +kernel⟩
/-- V1's segments, and the 40-byte message they make. -/
theorem witness_CmacVecEqualsCmac :
    resultOf (exec .cmacVec (cmacState 0 3)) = some ⟨.ok, 0⟩ ∧ resultOf (exec .cmac (cmacState 40 0)) = some ⟨.ok, 0⟩
    ∧ (cmacState 40 0).key = (cmacState 0 3).key
    ∧ (cmacState 40 0).memRead (cmacState 40 0).latch.x.srcRegion
      = (cmacState 0 3).segments.flatMap (cmacState 0 3).memRead := by decide +kernel
theorem witness_CcmFirstBlock :
    (hex 13 0x00000003020100a0a1a2a3a4a5).length = 13 ∧ 16 ∈ [4, 6, 8, 10, 12, 14, 16] ∧ 65535 ≤ 65535 := by decide
/-- What CCM_ENC wrote at 0x200, moved by the registers to the source of CCM_DEC. -/
def ccmBack (s : State) : State :=
  let u := again s .ccmEnc
  { u with latch := { u.latch with x := { u.latch.x with srcAddr := 0x200, dstAddr := 0x400 } } }
theorem witness_CcmRoundTrip :
    let s := ccmState 14 [0x00] [] 6
    let u := ccmBack s
    (after (exec .ccmEnc s)).result.code = .ok ∧ firstFailure (u.checks .ccmDec) = none ∧ u.key = s.key
      ∧ u.memRead u.latch.x.nonceRegion = s.memRead s.latch.x.nonceRegion
      ∧ u.memRead u.latch.x.aadRegion = s.memRead s.latch.x.aadRegion ∧ u.latch.x.tagLen = s.latch.x.tagLen
      ∧ u.memRead u.latch.x.srcRegion = (after (exec .ccmEnc s)).bufBytes s.latch.x.dstRegion
      ∧ u.memRead u.latch.x.tagRegion = (after (exec .ccmEnc s)).bufBytes s.latch.x.tagRegion :=
  ⟨by decide +kernel, by decide +kernel, by decide +kernel, by decide +kernel, by decide +kernel, rfl, rfl, rfl⟩
/-- What GCM_ENC wrote at 0x200, moved by the registers to the source of GCM_DEC. -/
def gcmBack (s : State) : State :=
  let u := again s .gcmEnc
  { u with latch := { u.latch with x := { u.latch.x with srcAddr := 0x200, dstAddr := 0x400 } } }
theorem witness_GcmRoundTrip :
    let s := gcmState (zeros 12) [0xaa] (zeros 16) [] 16
    let u := gcmBack s
    (after (exec .gcmEnc s)).result.code = .ok ∧ firstFailure (u.checks .gcmDec) = none ∧ u.key = s.key
      ∧ u.memRead u.latch.x.ivRegion = s.memRead s.latch.x.ivRegion
      ∧ u.memRead u.latch.x.aadRegion = s.memRead s.latch.x.aadRegion ∧ u.latch.x.tagLen = s.latch.x.tagLen
      ∧ u.memRead u.latch.x.srcRegion = (after (exec .gcmEnc s)).bufBytes s.latch.x.dstRegion
      ∧ u.memRead u.latch.x.tagRegion = (after (exec .gcmEnc s)).bufBytes s.latch.x.tagRegion :=
  ⟨by decide +kernel, by decide +kernel, by decide +kernel, by decide +kernel, by decide +kernel, rfl, rfl, rfl⟩
/-- The second part of GcmRoundTrip: GMAC, and GCM_ENC with no data. -/
theorem witness_GmacAsGcmEnc :
    let s := gcmState [] [0] [] [] 16
    resultOf (exec .gmac s) = some ⟨.ok, 0⟩ ∧ s.latch.x.dataLen = 0 ∧ resultOf (exec .gcmEnc s) = some ⟨.ok, 0⟩ := by
  decide +kernel
theorem witness_CounterMode : 2 < (hex 3 0x000000).length := by decide

/-! The table's words as the first instruction after reset. -/

theorem test_withFetchWord :
    [0x01, 0x02, 0x03, 0x04, 0x05, 0x10, 0x11, 0x20, 0x21, 0x30, 0x31, 0x40, 0x41, 0x42].map
      (fun w => (resultOf (step (State.reset.withFetchWord 32 w))).map (·.code))
    = [some .invalidKeyLength, some .invalidKeyLength, some .contextError, some .contextError, some .contextError,
       some .invalidKeyLength, some .invalidKeyLength, some .invalidKeyLength, some .invalidKeyLength,
       some .invalidKeyLength, some .invalidKeyLength, some .invalidKeyLength, some .invalidKeyLength,
       some .invalidKeyLength] := by decide +kernel

end Sys2Proof.Tests
end

section
/-! PROOF. The engine's step and the commands as functions of their inputs (00_scope.md R14, R16). -/

namespace Sys2Proof.Machine

/-! ### The engine's turn, case by case -/

/-- 60_exceptions.md R229. -/
theorem State.engineTurn_of_idle {s : State} (hp : s.phase = .idle) : s.engineTurn = .next s := by
  rw [State.engineTurn, hp]

theorem State.engineTurn_of_decode {s : State} {i : Instr} (hp : s.phase = .busy) (hd : decode s.latch.lcmd = .ok i) :
    s.engineTurn = s.runCommand i := by
  simp only [State.engineTurn, hp, hd]

theorem State.runCommand_of_not_raced {s : State} (i : Instr) (hr : s.latch.raced = false) :
    s.runCommand i = exec i s := by
  obtain ⟨t, ht⟩ := exec_next i s
  simp [State.runCommand, ht, hr]

theorem State.runCommand_of_raced {s t : State} {i : Instr} (hr : s.latch.raced = true) (ht : exec i s = .next t) :
    s.runCommand i = .next (t.afterRace i s.latch.x) := by
  simp [State.runCommand, ht, hr]

/-- 20_memory.md R61. -/
theorem step_host {s : State} {rest : List Event} {a : HostAccess} (h : s.agenda = .host a :: rest) :
    step s = .next (State.hostAccess { s with agenda := rest } a) := by
  rw [step, State.advance, h]
  rfl

/-- Settles O4: the event picks the agent, and the engine's turn is the command's meaning with the race's trace. -/
theorem stepRunsTheDecodedCommand : Obligations.StepRunsTheDecodedCommand := by
  refine ⟨fun s rest he => ?_, fun s rest a he => step_host he, fun s w off v => ⟨rfl, rfl⟩⟩
  rw [step_engine he]
  refine ⟨fun i hp hd => ?_, fun hp => State.engineTurn_of_idle (s := { s with agenda := rest }) hp⟩
  rw [State.engineTurn_of_decode (s := { s with agenda := rest }) hp hd]
  exact ⟨fun hr => State.runCommand_of_not_raced i hr, fun hr t ht => State.runCommand_of_raced hr ht⟩

/-! ### Writing several byte strings -/

/-- Byte strings written to BUF, each at the start of its region, in order. -/
def State.writeAll (s : State) (ws : List (Region × Bytes)) : State := ws.foldl (fun t w => t.memWrite w.1.addr w.2) s

@[simp] theorem State.writeAll_nil (s : State) : s.writeAll [] = s := rfl

@[simp] theorem State.writeAll_cons (s : State) (w : Region × Bytes) (ws : List (Region × Bytes)) :
    s.writeAll (w :: ws) = (s.memWrite w.1.addr w.2).writeAll ws := rfl

@[simp] theorem State.writeAll_slots (s : State) (ws : List (Region × Bytes)) : (s.writeAll ws).slots = s.slots := by
  induction ws generalizing s with
  | nil => rfl
  | cons w ws ih => rw [State.writeAll_cons, ih, State.memWrite_slots]

/-- One byte string written to two states: the bytes agree where it lies, and where they agreed before. -/
theorem State.bufByte_memWrite_congr {s u : State} {a b : Nat} {bs : Bytes}
    (h : (a ≤ b ∧ b < a + bs.length) ∨ s.bufByte b = u.bufByte b) :
    (s.memWrite a bs).bufByte b = (u.memWrite a bs).bufByte b := by
  by_cases hb : a ≤ b ∧ b < a + bs.length
  · obtain ⟨j, rfl⟩ := Nat.exists_eq_add_of_le hb.1
    have hj : j < bs.length := by omega
    rw [s.memWrite_has a bs j hj, u.memWrite_has a bs j hj]
  · rw [s.memWrite_outside a bs b hb, u.memWrite_outside a bs b hb]
    exact h.resolve_left hb

/-- The same byte strings written to two states: the bytes agree in the regions that the strings fill. -/
theorem State.bufByte_writeAll_congr {s u : State} {ws : List (Region × Bytes)} {a : Nat}
    (hl : ∀ w ∈ ws, w.2.length = w.1.len) (h : (∃ w ∈ ws, w.1.Holds a) ∨ s.bufByte a = u.bufByte a) :
    (s.writeAll ws).bufByte a = (u.writeAll ws).bufByte a := by
  induction ws generalizing s u with
  | nil => simpa using h
  | cons w ws ih =>
    obtain ⟨hw, hws⟩ := List.forall_mem_cons.mp hl
    rw [State.writeAll_cons, State.writeAll_cons]
    refine ih hws ?_
    rw [List.exists_mem_cons_iff] at h
    rcases h with (h | h) | h
    · exact .inr (State.bufByte_memWrite_congr (.inl ⟨h.1, by rw [hw]; exact h.2⟩))
    · exact .inl h
    · exact .inr (State.bufByte_memWrite_congr (.inr h))

/-! ### States with the same inputs -/

/-- Two states in which a mode command finds the same inputs: the latch holds the parameter snapshot and BUF at
acceptance, and the number of the reset fixes what unwritten bytes read as. -/
structure State.SameInputs (s u : State) : Prop where
  cfg : s.cfg = u.cfg
  epoch : s.epoch = u.epoch
  latch : s.latch = u.latch

namespace State.SameInputs

theorem refl (s : State) : s.SameInputs s := ⟨rfl, rfl, rfl⟩

variable {s u : State} (h : s.SameInputs u)
include h

theorem memRead : u.memRead = s.memRead := by
  funext r
  simp only [State.memRead, State.snapByte, h.epoch, h.latch]

theorem key : u.key = s.key := by rw [State.key, State.key, h.memRead, h.latch]

theorem segments : u.segments = s.segments := by
  have hd : u.descriptor = s.descriptor := by
    funext j
    simp only [State.descriptor, h.memRead, h.latch]
  rw [State.segments, State.segments, hd, h.latch]

theorem otherInputs (i : Instr) : u.otherInputs i = s.otherInputs i := by
  have hr : u.readSegments = s.readSegments := by
    simp only [State.readSegments, State.tableReadable, h.segments, h.latch, h.cfg]
  cases i <;> simp only [State.otherInputs, hr, h.latch]

theorem boundsOk (i : Instr) : u.boundsOk i = s.boundsOk i := by
  simp only [State.boundsOk, State.regions, State.inputs, h.otherInputs, h.latch, h.cfg]

theorem overlapOk (i : Instr) : u.overlapOk i = s.overlapOk i := by
  simp only [State.overlapOk, h.otherInputs, h.latch]

theorem ccmExpected : u.ccmExpected = s.ccmExpected := by
  simp only [State.ccmExpected, h.key, h.memRead, h.latch]

theorem gcmExpected : u.gcmExpected = s.gcmExpected := by
  simp only [State.gcmExpected, h.key, h.memRead, h.latch]

end State.SameInputs

/-! ### The mode commands -/

/-- The nine mode commands (00_scope.md R14). -/
abbrev modeCommands : List Instr :=
  [.cbcEnc, .cbcDec, .cmac, .cmacVec, .ccmEnc, .ccmDec, .gcmEnc, .gcmDec, .gmac]

/-- A mode command has no context check and no allocation check (60_exceptions.md R207, R211). -/
theorem State.contextOk_allocOk_of_mode (s : State) {i : Instr} (hi : i ∈ modeCommands) :
    s.contextOk i = true ∧ s.allocOk i = true := by
  cases i <;> simp [State.contextOk, State.allocOk] at hi ⊢

theorem State.SameInputs.checks {s u : State} (h : s.SameInputs u) {i : Instr} (hi : i ∈ modeCommands) :
    u.checks i = s.checks i := by
  obtain ⟨hsc, hsa⟩ := s.contextOk_allocOk_of_mode hi
  obtain ⟨huc, hua⟩ := u.contextOk_allocOk_of_mode hi
  simp only [State.checks, hsc, hsa, huc, hua, h.boundsOk, h.overlapOk, h.latch]

theorem State.SameInputs.ready {s u : State} (h : s.SameInputs u) {i : Instr} (hi : i ∈ modeCommands)
    (hr : s.Ready i) : u.Ready i := by
  rwa [← State.ready_iff, h.checks hi, State.ready_iff]

/-- As many blocks as a region of whole blocks holds fill the region (42_cbc.md R135, R136). -/
theorem bytesOfBlocks_length_of_whole {s : State} {r : Region} {bs : List Block} (hr : r.len % 16 = 0)
    (hb : bs.length = (blocksOf (s.memRead r)).length) : (bytesOfBlocks bs).length = r.len := by
  rw [bytesOfBlocks_length, hb, blocksOf_length, State.memRead_length]
  omega

/-! The data and the tag that CCM and GCM write fill their regions. -/

theorem State.ccmCtr_fills (s : State) (E : Block → Block) (nonce : Bytes) :
    (ccmCtr E nonce (s.memRead s.latch.x.srcRegion)).length = s.latch.x.dstRegion.len :=
  (ccmCtr_length _ _ _).trans (s.memRead_length _)

theorem State.gcmCtr_fills (s : State) (E : Block → Block) (iv : Bytes) :
    (gcmCtr E iv (s.memRead s.latch.x.srcRegion)).length = s.latch.x.dstRegion.len :=
  (gcmCtr_length _ _ _).trans (s.memRead_length _)

theorem Params.ccmTag_fills {x : Params} (h : x.tagLen.toNat ≤ 16) (E : Block → Block) (nonce : Bytes) (auth : Block) :
    (ccmTag E nonce auth x.tagLen.toNat).length = x.tagRegion.len := ccmTag_length h

theorem Params.gcmTag_fills {x : Params} (h : x.tagLen.toNat ≤ 16) (E : Block → Block) (iv a c : Bytes) :
    (gcmTag E iv a c x.tagLen.toNat).length = x.tagRegion.len := gcmTag_length h

/-- Command `i` does one thing, fixed by the inputs it finds in `s`, in every state with those inputs: it fails with one
code, leaving the slots alone, or it fills its output regions with one list of byte strings. -/
def State.FixedByInputs (s : State) (i : Instr) : Prop :=
  (∃ k : ResultCode, k ≠ .ok ∧
      ∀ u, s.SameInputs u → ∃ t : State, exec i u = .next (t.complete k 0) ∧ t.slots = u.slots)
  ∨ ∃ ws : List (Region × Bytes), (∀ u, s.SameInputs u → exec i u = .next ((u.writeAll ws).complete .ok 0))
      ∧ ws.map (·.1) = s.latch.x.outputs i ∧ ∀ w ∈ ws, w.2.length = w.1.len

theorem State.FixedByInputs.of_write {s : State} {i : Instr} (r : Region) (bs : Bytes)
    (he : ∀ u, s.SameInputs u → exec i u = .next ((u.memWrite r.addr bs).complete .ok 0))
    (ho : s.latch.x.outputs i = [r]) (hl : bs.length = r.len) : s.FixedByInputs i :=
  .inr ⟨[(r, bs)], he, ho.symm, by simpa using hl⟩

theorem State.FixedByInputs.of_write_write {s : State} {i : Instr} (r q : Region) (bs cs : Bytes)
    (he : ∀ u, s.SameInputs u → exec i u = .next (((u.memWrite r.addr bs).memWrite q.addr cs).complete .ok 0))
    (ho : s.latch.x.outputs i = [r, q]) (hb : bs.length = r.len) (hc : cs.length = q.len) : s.FixedByInputs i :=
  .inr ⟨[(r, bs), (q, cs)], he, ho.symm, by simp [hb, hc]⟩

/-- 00_scope.md R14, one mode command at a time: what it answers names only the inputs. -/
theorem State.fixedByInputs (s : State) {i : Instr} (hi : i ∈ modeCommands) : s.FixedByInputs i := by
  by_cases hr : s.Ready i
  case neg =>
    obtain ⟨k, hk, hf, -⟩ := exec_of_not_ready hr
    exact .inl ⟨k, hk, fun u h => ⟨u, exec_of_firstFailure (by rwa [h.checks hi]), rfl⟩⟩
  have ready : ∀ u, s.SameInputs u → u.Ready i := fun u h => h.ready hi hr
  have ⟨_, _, hs, _⟩ := hr
  cases i
  case blkInitEnc | blkInitDec | blkEnc | blkDec | blkDeinit => simp at hi
  case cbcEnc =>
    exact .of_write s.latch.x.srcRegion _
      (fun u h => by rw [exec_cbcEnc (ready u h), h.key, h.memRead, ← h.latch]) rfl
      (bytesOfBlocks_length_of_whole hs (cbcEncrypt_length _ _ _))
  case cbcDec =>
    exact .of_write s.latch.x.srcRegion _
      (fun u h => by rw [exec_cbcDec (ready u h), h.key, h.memRead, ← h.latch]) rfl
      (bytesOfBlocks_length_of_whole hs (cbcDecrypt_length _ _ _))
  case cmac =>
    exact .of_write s.latch.x.macRegion _
      (fun u h => by rw [exec_cmac (ready u h), h.key, h.memRead, ← h.latch]; rfl) rfl (bytesOfBlock_length _)
  case cmacVec =>
    exact .of_write s.latch.x.macRegion _
      (fun u h => by rw [exec_cmacVec (ready u h), h.key, h.segments, h.memRead, ← h.latch]; rfl) rfl
      (bytesOfBlock_length _)
  case ccmEnc =>
    have ⟨⟨_, htag, _⟩, _⟩ := hs
    exact .of_write_write s.latch.x.dstRegion s.latch.x.tagRegion _ _
      (fun u h => by rw [exec_ccmEnc (ready u h), h.key, h.memRead, ← h.latch]) rfl
      (s.ccmCtr_fills _ _) (Params.ccmTag_fills htag _ _ _)
  case ccmDec =>
    by_cases ht : s.ccmExpected = s.memRead s.latch.x.tagRegion
    · exact .of_write s.latch.x.dstRegion _
        (fun u h => by
          have hu : u.ccmExpected = u.memRead u.latch.x.tagRegion := by rwa [h.ccmExpected, h.memRead, ← h.latch]
          rw [exec_ccmDec_pass (ready u h) hu, h.key, h.memRead, ← h.latch])
        rfl (s.ccmCtr_fills _ _)
    · exact .inl ⟨.authMismatch, by decide, fun u h =>
        ⟨_, exec_ccmDec_fail (ready u h) (by rwa [h.ccmExpected, h.memRead, ← h.latch]), rfl⟩⟩
  case gcmEnc =>
    have ⟨_, htag⟩ := hs
    exact .of_write_write s.latch.x.dstRegion s.latch.x.tagRegion _ _
      (fun u h => by rw [exec_gcmEnc (ready u h), h.key, h.memRead, ← h.latch]) rfl
      (s.gcmCtr_fills _ _) (Params.gcmTag_fills htag _ _ _ _)
  case gcmDec =>
    by_cases ht : s.gcmExpected = s.memRead s.latch.x.tagRegion
    · exact .of_write s.latch.x.dstRegion _
        (fun u h => by
          have hu : u.gcmExpected = u.memRead u.latch.x.tagRegion := by rwa [h.gcmExpected, h.memRead, ← h.latch]
          rw [exec_gcmDec_pass (ready u h) hu, h.key, h.memRead, ← h.latch])
        rfl (s.gcmCtr_fills _ _)
    · exact .inl ⟨.tagMismatch, by decide, fun u h =>
        ⟨_, exec_gcmDec_fail (ready u h) (by rwa [h.gcmExpected, h.memRead, ← h.latch]), rfl⟩⟩
  case gmac =>
    have ⟨_, htag⟩ := hs
    exact .of_write s.latch.x.tagRegion _
      (fun u h => by rw [exec_gmac (ready u h), h.key, h.memRead, ← h.latch]) rfl (Params.gcmTag_fills htag _ _ _ _)

/-- Settles O13: what a mode command does is fixed by its inputs, so two states with the same inputs see the same. -/
theorem modeCommandsAreFunctionsOfTheirInputs : Obligations.ModeCommandsAreFunctionsOfTheirInputs := by
  intro i s u s' u' hi hcfg hepoch hlatch hs hu
  have h : s.SameInputs u := ⟨hcfg, hepoch, hlatch⟩
  rcases s.fixedByInputs hi with ⟨k, hk, hfail⟩ | ⟨ws, hwrite, hout, hlen⟩
  · obtain ⟨t, ht, hslots⟩ := hfail s (.refl s)
    obtain ⟨v, hv, -⟩ := hfail u h
    cases hs.symm.trans ht
    cases hu.symm.trans hv
    exact ⟨hslots, rfl, fun hok => absurd hok hk⟩
  · cases hs.symm.trans (hwrite s (.refl s))
    cases hu.symm.trans (hwrite u h)
    refine ⟨State.writeAll_slots s ws, rfl, fun _ r hr a ha => ?_⟩
    rw [← hout] at hr
    obtain ⟨w, hw, rfl⟩ := List.mem_map.mp hr
    exact State.bufByte_writeAll_congr hlen (.inl ⟨w, hw, ha⟩)

end Sys2Proof.Machine
end

section
/-! PROOF. The invariant of the block: what each operation needs to keep it, that it holds at reset, and that every step
keeps it (10_state.md R25, R26, R30, R32, R35, R39; 20_memory.md R50). -/

namespace Sys2Proof

/-- The commands that take a slot (41_block.md R125). -/
abbrev Instr.Allocates (i : Instr) : Prop := i = .blkInitEnc ∨ i = .blkInitDec

end Sys2Proof

namespace Sys2Proof.Machine

/-! ### The completion of every command -/

/-- 60_exceptions.md R215: a command ends in one completion, with RESULT.CTX 0 unless it allocated a slot. -/
theorem exec_completed {i : Instr} {s t : State} (h : exec i s = .next t) :
    ∃ k c, Completed s t k c ∧ (c ≠ 0 → k = .ok ∧ i.Allocates) := by
  rcases exec_cases h with ⟨k, -, rfl⟩ | ⟨-, ⟨c, dir, rk, -, hi, -, rfl⟩ | ⟨c, -, rfl⟩ | ⟨r, bs, -, -, rfl⟩
    | ⟨r, q, bs, cs, -, -, -, rfl⟩ | ⟨r, k, -, -, rfl⟩⟩
  · exact ⟨k, 0, .of_complete .., fun h => absurd rfl h⟩
  · exact ⟨.ok, c, .of_setSlot .., fun _ => ⟨rfl, hi⟩⟩
  · exact ⟨.ok, 0, .of_setSlot .., fun h => absurd rfl h⟩
  · exact ⟨.ok, 0, .of_memWrite .., fun h => absurd rfl h⟩
  · exact ⟨.ok, 0, .of_memWrite_memWrite .., fun h => absurd rfl h⟩
  · exact ⟨k, 0, .of_freeRegion .., fun h => absurd rfl h⟩

/-- 60_exceptions.md R215: only a command that allocates leaves a slot index in RESULT.CTX. -/
theorem exec_resultCtx {i : Instr} {s t : State} (h : exec i s = .next t) (hi : ¬ i.Allocates) :
    t.result.ctx = 0 := by
  obtain ⟨k, c, hc, hctx⟩ := exec_completed h
  have h0 : c = 0 := by_contra fun hne => hi (hctx hne).2
  rw [hc.result, h0]
  rfl

/-- A command that allocates and completes with OK leaves the slot that RESULT.CTX names valid. -/
theorem exec_allocated_valid {i : Instr} {s t : State} (hs : s.Inv) (h : exec i s = .next t) (hi : i.Allocates)
    (hk : t.result.code = .ok) : (t.slot t.result.ctx.toNat).valid = true := by
  rcases exec_cases h with ⟨k, hf, rfl⟩ | ⟨-, ⟨c, dir, rk, hc, -, -, rfl⟩ | ⟨c, rfl, -⟩ | ⟨r, bs, ho, -⟩
    | ⟨r, q, bs, cs, ho, -⟩ | ⟨r, k, ho, -⟩⟩
  · exact absurd hk (State.firstFailure_ne_ok hf)
  · obtain ⟨hlt, -⟩ := State.lowestFree?_eq_some.mp hc
    have hctx : (BitVec.ofNat 4 c).toNat = c := by
      have := hs.cfg.2.1
      rw [BitVec.toNat_ofNat]
      omega
    rw [State.complete_result, hctx, State.slot_complete, State.slot_setSlot_self _ _ _ (hs.slotCount ▸ hlt)]
    rfl
  · exact absurd hi (by simp)
  all_goals rcases hi with rfl | rfl <;> simp [Params.outputs] at ho

/-- A region of a ready command fits BUF (60_exceptions.md R209). -/
theorem State.Ready.output_fits {s : State} {i : Instr} (h : s.Ready i) {r : Region} (hr : r ∈ s.latch.x.outputs i) :
    r.Fits s := by
  obtain ⟨-, -, -, hbounds, -⟩ := h
  exact hbounds r (List.mem_append_right _ hr)

/-- The key of a ready command that allocates has a legal length (60_exceptions.md R208). -/
theorem State.Ready.key_legal {s : State} {i : Instr} (h : s.Ready i) (hi : i.Allocates) :
    KeyLengthLegal s.key.length := by
  obtain ⟨-, hkey, -⟩ := h
  rw [State.key, State.memRead_length]
  rcases hi with rfl | rfl <;> exact hkey

/-! ### What one step does, event by event -/

theorem State.engineTurn_cases {s t : State} (h : s.engineTurn = .next t) :
    t = s ∨ (∃ i, s.phase = .busy ∧ decode s.latch.lcmd = .ok i ∧ s.runCommand i = .next t)
      ∨ t = s.complete .illegalCommand 0 := by
  unfold State.engineTurn at h
  split at h
  · cases h
    exact .inl rfl
  · split at h
    · exact .inr (.inl ⟨_, ‹_›, ‹_›, h⟩)
    · cases h
      exact .inr (.inr rfl)

/-- A step is an engine turn, a host access or a hardware reset, in the state with the event taken off the agenda. -/
theorem step_cases {s t : State} (h : step s = .next t) :
    ∃ es, State.engineTurn { s with agenda := es } = .next t
      ∨ (∃ a, t = State.hostAccess { s with agenda := es } a)
      ∨ t = State.hardReset { s with agenda := es } := by
  rcases he : s.agenda with _ | ⟨_ | _ | _, es⟩
  case nil => exact ⟨[], .inl (step_engine (.inr ⟨he, rfl⟩) ▸ h)⟩
  case cons.host a =>
    rw [step_host he] at h
    cases h
    exact ⟨es, .inr (.inl ⟨a, rfl⟩)⟩
  case cons.engine => exact ⟨es, .inl (step_engine (.inl he) ▸ h)⟩
  case cons.hardReset =>
    rw [step, State.advance, he] at h
    cases h
    exact ⟨es, .inr (.inr rfl)⟩

/-! ### The trace of a race -/

theorem State.raceSlot_of_allocates {t : State} {i : Instr} (hi : i.Allocates) :
    t.raceSlot i = if t.result.code = .ok then t.freeSlotKeys t.result.ctx.toNat else t := by
  rcases hi with rfl | rfl <;> rfl

theorem State.raceSlot_of_not_allocates {t : State} {i : Instr} (hi : ¬ i.Allocates) : t.raceSlot i = t := by
  cases i
  case blkInitEnc => exact absurd (.inl rfl) hi
  case blkInitDec => exact absurd (.inr rfl) hi
  all_goals rfl

@[simp] theorem State.raceSlot_result (t : State) (i : Instr) : (t.raceSlot i).result = t.result := by
  by_cases hi : i.Allocates
  · rw [raceSlot_of_allocates hi]
    split <;> rfl
  · rw [raceSlot_of_not_allocates hi]

/-- No verification decides the code of a command that allocates (20_memory.md R63). -/
theorem racedCode_of_allocates {i : Instr} (hi : i.Allocates) (k : ResultCode) (free : Bool) :
    racedCode k free i = k := by
  rcases hi with rfl | rfl <;> rfl

/-! ### What keeps the invariant: one rule per operation -/

theorem Memory.nil_legal (n : Nat) : Memory.Legal [] n := ⟨.nil, nofun⟩

theorem Slot.legal_of_mem_replicate {n : Nat} : ∀ sl ∈ List.replicate n Slot.free, sl.Legal := fun _ h =>
  List.eq_of_mem_replicate h ▸ Slot.free_legal

namespace State.Inv

variable {s : State} (h : s.Inv)
include h

/-- The fields that the invariant does not speak of may hold anything. -/
theorem outside (irqEn overrun : Bool) (params : Params) (epoch draws : Nat) (bus : Option BusResponse)
    (agenda : List Event) :
    Inv { s with
      irqEn := irqEn, overrun := overrun, params := params, epoch := epoch, draws := draws, bus := bus
      agenda := agenda } :=
  { h with }

theorem withBuf {m : Memory} (hm : Memory.Legal m s.cfg.bufSize) : Inv { s with buf := m } :=
  { h with buf := hm }

theorem memWrite {a : Nat} {bs : Bytes} (hb : bs.length = 0 ∨ a + bs.length ≤ s.cfg.bufSize) :
    (s.memWrite a bs).Inv := h.withBuf (memWrite_legal h.buf hb)

theorem freeRegion (r : Region) : (s.freeRegion r).Inv :=
  (h.withBuf (freeRegion_legal r h.buf)).outside _ _ _ _ _ _ _

omit h in
theorem freeRegions (rs : List Region) {s : State} (h : s.Inv) : (s.freeRegions rs).Inv := by
  induction rs generalizing s with
  | nil => exact h
  | cons r rs ih => exact ih (h.freeRegion r)

theorem setSlot (c : Nat) {sl : Slot} (hsl : sl.Legal) : (s.setSlot c sl).Inv :=
  { h with
    slotCount := by rw [setSlot_slots, List.length_set, h.slotCount, setSlot_cfg]
    slots := fun x hx => (List.mem_or_eq_of_mem_set hx).elim (h.slots x) (· ▸ hsl) }

theorem setCode {k : ResultCode} (hk : k ≠ .ok → s.result.ctx = 0) :
    Inv { s with result := ⟨k, s.result.ctx⟩ } :=
  { h with failureCtx := hk }

theorem clearDone (d : Bool) : Inv { s with done := s.done && d } :=
  { h with busyNotDone := fun hp => by rw [h.busyNotDone hp]; rfl }

/-- The mark of a race is set only while a command runs, so the latch of an idle engine stays empty. -/
theorem setRaced {b : Bool} (hb : s.phase = .idle → b = false) :
    Inv { s with latch := { s.latch with raced := s.latch.raced || b } } :=
  { h with idleLatch := fun hp => by rw [hb hp, Bool.or_false]; exact h.idleLatch hp }

theorem accept (w : Word) : (s.accept w).Inv :=
  { h with
    snapBuf := h.buf
    busyNotDone := fun _ => rfl
    idleLatch := nofun
    idleTransient := nofun }

theorem complete {k : ResultCode} {c : Nat} (hc : c < s.cfg.numCtx) (hk : k ≠ .ok → c = 0) : (s.complete k c).Inv :=
  { h with
    snapBuf := Memory.nil_legal _
    busyNotDone := nofun
    idleLatch := fun _ => rfl
    idleTransient := fun _ => rfl
    resultCtx := (BitVec.toNat_ofNat c 4 ▸ Nat.mod_le c (2 ^ 4)).trans_lt hc
    failureCtx := fun hne => by rw [complete_result, hk hne]; rfl }

theorem numCtx_pos : 0 < s.cfg.numCtx := h.cfg.1

theorem complete_zero (k : ResultCode) : (s.complete k 0).Inv := h.complete h.numCtx_pos fun _ => rfl

theorem clearAll : s.clearAll.Inv :=
  { h with
    slotCount := List.length_replicate
    slots := Slot.legal_of_mem_replicate
    snapBuf := Memory.nil_legal _
    busyNotDone := nofun
    idleLatch := fun _ => rfl
    idleTransient := fun _ => rfl
    resultCtx := h.numCtx_pos
    failureCtx := fun _ => rfl }

theorem softReset : s.softReset.Inv := (h.freeRegions _).clearAll

theorem hardReset : s.hardReset.Inv := (h.clearAll.withBuf (Memory.nil_legal _)).outside _ _ _ _ _ _ _

/-! ### Host accesses -/

/-- An aligned access that starts in BUF ends in BUF, because BUF_SIZE is a multiple of 16 (00_scope.md R8). -/
theorem access_fits {w a : Nat} (ha : a < s.cfg.bufSize) (hw : w = 1 ∨ w = 2 ∨ w = 4) (hm : a % w = 0) :
    a + w ≤ s.cfg.bufSize := by
  obtain ⟨-, -, h16, -⟩ := h.cfg
  rcases hw with rfl | rfl | rfl <;> omega

theorem writeBuf {w a : Nat} (v : Word) (hb : a + w ≤ s.cfg.bufSize) : (s.writeBuf w a v).Inv := by
  have hraced : s.phase = .idle → s.anyRaced w a = false := fun hp => by
    rw [anyRaced_eq_false, runningRegions_of_idle hp]
    nofun
  obtain ⟨d, hd⟩ := s.writeBuf_eq w a v
  rw [hd]
  exact ((h.setRaced hraced).memWrite (.inr (by rwa [racedBytes_length]))).outside _ _ _ _ _ _ _

theorem hostWrite (w : Nat) (off v : Word) : (s.hostWrite w off v).Inv := by
  rcases s.hostWrite_cases w off v with ⟨-, -, -, he⟩ | he | he | ⟨-, he⟩ | he | ⟨p, he⟩ | ⟨a, ha, hw, hm, he⟩
    | ⟨e, he⟩ <;> rw [he]
  · exact h.softReset.outside _ _ _ _ _ _ _
  · exact h.outside _ _ _ _ _ _ _
  · exact (h.clearDone _).outside _ _ _ _ _ _ _
  · exact (h.accept v).outside _ _ _ _ _ _ _
  · exact h.outside _ _ _ _ _ _ _
  · exact h.outside _ _ _ _ _ _ _
  · exact h.writeBuf v (h.access_fits ha hw hm)
  · exact h.outside _ _ _ _ _ _ _

theorem hostAccess (a : HostAccess) : (s.hostAccess a).Inv := by
  cases a with
  | read w off =>
    obtain ⟨b, d, he⟩ := s.hostRead_eq w off
    rw [State.hostAccess, he]
    exact h.outside _ _ _ _ _ _ _
  | write w off v => exact h.hostWrite w off v

/-! ### The engine's turn -/

theorem exec {i : Instr} {t : State} (he : exec i s = .next t) : t.Inv := by
  rcases exec_cases he with ⟨k, -, rfl⟩ | ⟨hr, ⟨c, dir, rk, hc, hi, hrk, rfl⟩ | ⟨c, -, rfl⟩ | ⟨r, bs, ho, hb, rfl⟩
    | ⟨r, q, bs, cs, ho, hb, hq, rfl⟩ | ⟨r, k, -, -, rfl⟩⟩
  · exact h.complete_zero k
  · have hsl := Slot.ofSchedule_legal (dir := dir) (roundCount_of_legal (hr.key_legal hi)) hrk
    exact (h.setSlot c hsl).complete (lowestFree?_eq_some.mp hc).1 fun hne => absurd rfl hne
  · exact (h.setSlot c Slot.free_legal).complete_zero _
  · have hfit : r.Fits s := hr.output_fits (by simp [ho])
    exact (h.memWrite (hb ▸ hfit)).complete_zero _
  · have hfit : r.Fits s := hr.output_fits (by simp [ho])
    have hfit' : q.Fits s := hr.output_fits (by simp [ho])
    exact ((h.memWrite (hb ▸ hfit)).memWrite (hq ▸ hfit')).complete_zero _
  · exact (h.freeRegion r).complete_zero _

/-- Free round keys in a valid slot: the slot still holds a schedule of its own length. -/
theorem freeSlotKeys {c : Nat} (hv : (s.slot c).valid = true) : (s.freeSlotKeys c).Inv := by
  obtain ⟨-, hsl⟩ := slot_legal h.slots c
  rw [if_pos hv] at hsl
  have hnew := Slot.ofSchedule_legal (dir := (s.slot c).dir) hsl.1
    (rk := (List.range ((s.slot c).nr + 1)).map fun j => blockOfFn fun i => Config.freeByte (s.draws + 16 * j + i))
    (by simp)
  rw [Slot.ofSchedule, List.length_map, List.length_range, ← hv] at hnew
  exact (h.setSlot c hnew).outside _ _ _ _ _ _ _

theorem raceSlot {i : Instr}
    (hv : i.Allocates → s.result.code = .ok → (s.slot s.result.ctx.toNat).valid = true) : (s.raceSlot i).Inv := by
  by_cases hi : i.Allocates
  · rw [raceSlot_of_allocates hi]
    split
    · exact h.freeSlotKeys (hv hi ‹_›)
    · exact h
  · rwa [raceSlot_of_not_allocates hi]

/-- The code that a race leaves keeps RESULT.CTX legal: it is the command's own code where CTX may be nonzero. -/
theorem afterRace {i : Instr} (x : Params)
    (hv : i.Allocates → s.result.code = .ok → (s.slot s.result.ctx.toNat).valid = true)
    (hctx : ¬ i.Allocates → s.result.ctx = 0) : (s.afterRace i x).Inv := by
  have hr : ((s.freeRegions (x.outputs i)).raceSlot i).result = s.result := by
    rw [raceSlot_result, freeRegions_result]
  have ht : ((s.freeRegions (x.outputs i)).raceSlot i).Inv := by
    refine (h.freeRegions _).raceSlot fun hi hk => ?_
    rw [freeRegions_result] at hk ⊢
    rw [State.slot, freeRegions_slots]
    exact hv hi hk
  have hcode : ∀ free, racedCode s.result.code free i ≠ .ok → s.result.ctx = 0 := fun free hne => by
    by_cases hi : i.Allocates
    · rw [racedCode_of_allocates hi] at hne
      exact h.failureCtx hne
    · exact hctx hi
  rw [← hr] at hcode
  exact (ht.setCode (hcode _)).outside _ _ _ _ _ _ _

theorem runCommand {i : Instr} {t : State} (ht : s.runCommand i = .next t) : t.Inv := by
  obtain ⟨u, hu⟩ := exec_next i s
  cases hrace : s.latch.raced
  · rw [runCommand_of_not_raced i hrace] at ht
    exact h.exec ht
  · rw [runCommand_of_raced hrace hu] at ht
    cases ht
    exact (h.exec hu).afterRace _ (exec_allocated_valid h hu) (exec_resultCtx hu)

theorem engineTurn {t : State} (ht : s.engineTurn = .next t) : t.Inv := by
  rcases engineTurn_cases ht with rfl | ⟨i, -, -, he⟩ | rfl
  · exact h
  · exact h.runCommand he
  · exact h.complete_zero _

end State.Inv

/-! ### The invariant at reset and at every step -/

theorem State.resetOf_inv {cfg : Config} (hc : cfg.Legal) : (State.resetOf cfg).Inv where
  cfg := hc
  slotCount := List.length_replicate
  slots := Slot.legal_of_mem_replicate
  buf := Memory.nil_legal _
  snapBuf := Memory.nil_legal _
  busyNotDone := nofun
  idleLatch := fun _ => rfl
  idleTransient := fun _ => rfl
  resultCtx := hc.1
  failureCtx := fun _ => rfl

/-- Settles O30: at reset every slot is free and every other field of the invariant is zero. -/
theorem invariantHoldsAtReset : Obligations.InvariantHoldsAtReset :=
  ⟨State.resetOf_inv (by decide), fun _ => State.resetOf_inv⟩

/-- Settles O31: an engine turn, a host access and a hardware reset each keep the invariant. -/
theorem invariantIsKeptByEveryStep : Obligations.InvariantIsKeptByEveryStep := by
  intro s t h ht
  obtain ⟨es, he⟩ := step_cases ht
  have hs : State.Inv { s with agenda := es } := h.outside _ _ _ _ _ _ _
  rcases he with he | ⟨a, rfl⟩ | rfl
  · exact hs.engineTurn he
  · exact hs.hostAccess a
  · exact hs.hardReset

end Sys2Proof.Machine
end

section
/-! PROOF. The context slots: opaque to the host, changed only by the commands that name or take one, and zeroed on
release (10_state.md R32). -/

namespace Sys2Proof.Machine

/-! ### Host accesses and the slots -/

/-- The regions that a race is judged by do not depend on the slots (20_memory.md R63). -/
theorem State.runningRegions_withSlots (s : State) (sl : List Slot) :
    State.runningRegions { s with slots := sl } = s.runningRegions := by
  have h : s.SameInputs { s with slots := sl } := ⟨rfl, rfl, rfl⟩
  have hr : State.regions { s with slots := sl } = s.regions := by
    funext i
    rw [State.regions, State.inputs, h.otherInputs]
    rfl
  rw [State.runningRegions, hr]
  rfl

theorem State.readBuf_bus_withSlots (s : State) (sl : List Slot) (w a : Nat) :
    (State.readBuf { s with slots := sl } w a).bus = (s.readBuf w a).bus := by
  simp only [State.readBuf, State.racedBytes, State.isRaced, s.runningRegions_withSlots]
  rfl

@[simp] theorem State.writeBuf_slots (s : State) (w a : Nat) (v : Word) : (s.writeBuf w a v).slots = s.slots := by
  obtain ⟨d, h⟩ := s.writeBuf_eq w a v
  rw [h]

/-- The port's answer to a host access does not depend on the slots. -/
theorem State.hostAccess_bus_withSlots (s : State) (sl : List Slot) (a : HostAccess) :
    (State.hostAccess { s with slots := sl } a).bus = (s.hostAccess a).bus := by
  cases a with
  | read w off =>
    have ht : State.portTarget { s with slots := sl } = s.portTarget := rfl
    simp only [State.hostAccess, State.hostRead, ht]
    cases s.portTarget off.toNat with
    | csr o => dsimp only; split <;> rfl
    | buf b =>
      dsimp only
      split
      · exact s.readBuf_bus_withSlots sl w b
      · rfl
    | unmapped => rfl
  | write w off v =>
    have ht : State.portTarget { s with slots := sl } = s.portTarget := rfl
    simp only [State.hostAccess, State.hostWrite, ht]
    cases s.portTarget off.toNat with
    | csr o => dsimp only; split <;> rfl
    | buf b => dsimp only; split <;> rfl
    | unmapped => rfl

/-- A host access leaves the slots alone, soft reset apart. -/
theorem State.hostAccess_slots (s : State) (a : HostAccess) :
    (s.hostAccess a).slots = s.slots
      ∨ ∃ v, a = .write 4 0x008 v ∧ v.getLsbD 1 = true ∧ s.hostAccess a = s.softReset.respond false 0 := by
  cases a with
  | read w off =>
    obtain ⟨b, d, he⟩ := s.hostRead_eq w off
    exact .inl (by rw [State.hostAccess, he])
  | write w off v =>
    rw [State.hostAccess]
    rcases s.hostWrite_cases w off v with ⟨rfl, rfl, hv, he⟩ | he | he | ⟨-, he⟩ | he | ⟨p, he⟩
      | ⟨a, -, -, -, he⟩ | ⟨e, he⟩
    case inl => exact .inr ⟨v, rfl, hv, he⟩
    all_goals exact .inl (by rw [he]; simp)

/-! ### Commands and the slots -/

theorem State.slot_of_slots_eq {s t : State} (h : t.slots = s.slots) (c : Nat) : t.slot c = s.slot c := by
  rw [State.slot, State.slot, h]

/-- A valid slot exists. -/
theorem State.lt_length_of_valid {s : State} {c : Nat} (h : (s.slot c).valid = true) : c < s.slots.length := by
  by_contra hc
  rw [State.slot, List.getD_eq_default _ _ (by omega)] at h
  cases h

/-- All that a command can do to the slots: nothing, filling the lowest free one, or zeroing the one it frees. -/
theorem exec_slots_cases {i : Instr} {s t : State} (h : exec i s = .next t) :
    t.slots = s.slots
      ∨ (∃ c sl, i.Allocates ∧ s.lowestFree? = some c ∧ t.slots = (s.setSlot c sl).slots)
      ∨ ∃ c, i = .blkDeinit c ∧ t.slots = (s.setSlot c Slot.free).slots := by
  rcases exec_cases h with ⟨k, -, rfl⟩ | ⟨-, ⟨c, dir, rk, hc, hi, -, rfl⟩ | ⟨c, hc, rfl⟩ | ⟨r, bs, -, -, rfl⟩
    | ⟨r, q, bs, cs, -, -, -, rfl⟩ | ⟨r, k, -, -, rfl⟩⟩
  case inr.inl => exact .inr (.inl ⟨c, _, hi, hc, rfl⟩)
  case inr.inr.inl => exact .inr (.inr ⟨c, hc, rfl⟩)
  all_goals exact .inl (by simp)

/-- A command that neither takes nor frees a slot changes none (41_block.md R126). -/
theorem exec_slots {i : Instr} {s t : State} (hd : ∀ c, i ≠ .blkDeinit c) (hi : ¬ i.Allocates)
    (h : exec i s = .next t) : t.slots = s.slots := by
  rcases exec_slots_cases h with he | ⟨c, sl, ha, -⟩ | ⟨c, hc, -⟩
  · exact he
  · exact absurd ha hi
  · exact absurd hc (hd c)

/-- What a command leaves of a valid slot: a slot still valid, or, freed by BLK_DEINIT, one all zero. -/
theorem exec_valid_slot {i : Instr} {s t : State} (h : exec i s = .next t) {c : Nat} (hc : (s.slot c).valid = true) :
    (t.slot c).valid = true ∨ (t.slot c = Slot.free ∧ ∃ d, i = .blkDeinit d) := by
  rcases exec_slots_cases h with he | ⟨d, sl, -, hd, he⟩ | ⟨d, hi, he⟩ <;> rw [State.slot_of_slots_eq he]
  · exact .inl hc
  · obtain ⟨-, hfree, -⟩ := State.lowestFree?_eq_some.mp hd
    have hne : c ≠ d := by
      rintro rfl
      simp [hc] at hfree
    rw [State.slot_setSlot_ne _ _ hne]
    exact .inl hc
  · by_cases hcd : c = d
    · subst hcd
      exact .inr ⟨State.slot_setSlot_self _ _ _ (State.lt_length_of_valid hc), c, hi⟩
    · rw [State.slot_setSlot_ne _ _ hcd]
      exact .inl hc

/-! ### The engine's turn and the slots -/

/-- Freeing the round keys of a slot frees no slot. -/
theorem State.valid_freeSlotKeys (s : State) (n c : Nat) : ((s.freeSlotKeys n).slot c).valid = (s.slot c).valid := by
  by_cases hcn : c = n
  · subst hcn
    by_cases hc : c < s.slots.length
    · have hs : (s.freeSlotKeys c).slot c = _ := s.slot_setSlot_self c _ hc
      rw [hs]
    · have hs : (s.freeSlotKeys c).slots = s.slots := List.set_eq_of_length_le (by omega)
      rw [State.slot_of_slots_eq hs]
  · rw [s.slot_freeSlotKeys_ne hcn]

theorem State.valid_afterRace (t : State) (i : Instr) (x : Params) (c : Nat) :
    ((t.afterRace i x).slot c).valid = (t.slot c).valid := by
  by_cases hi : i.Allocates ∧ t.result.code = .ok
  · have hs : (t.freeRegions (x.outputs i)).slots = t.slots := t.freeRegions_slots _
    rw [State.slot_of_slots_eq (State.slots_afterRace_alloc x hi.1 hi.2), State.valid_freeSlotKeys,
      State.slot_of_slots_eq hs]
  · have hn : i ≠ .blkInitEnc ∧ i ≠ .blkInitDec ∨ t.result.code ≠ .ok := by tauto
    rw [State.slot_of_slots_eq (State.slots_afterRace x hn)]

/-- A command's whole turn, raced or not, changes no slot where the command itself changes none. -/
theorem State.runCommand_slots {s t : State} {i : Instr} (hd : ∀ c, i ≠ .blkDeinit c) (hi : ¬ i.Allocates)
    (h : s.runCommand i = .next t) : t.slots = s.slots := by
  obtain ⟨u, hu⟩ := exec_next i s
  cases hrace : s.latch.raced
  · rw [State.runCommand_of_not_raced i hrace] at h
    exact exec_slots hd hi h
  · rw [State.runCommand_of_raced hrace hu] at h
    cases h
    rw [State.slots_afterRace _ (.inl (not_or.mp hi)), exec_slots hd hi hu]

/-- A command's whole turn, raced or not, leaves a valid slot valid or all zero. -/
theorem State.runCommand_valid_slot {s t : State} {i : Instr} (h : s.runCommand i = .next t) {c : Nat}
    (hc : (s.slot c).valid = true) : (t.slot c).valid = true ∨ t.slot c = Slot.free := by
  obtain ⟨u, hu⟩ := exec_next i s
  cases hrace : s.latch.raced
  · rw [State.runCommand_of_not_raced i hrace] at h
    exact (exec_valid_slot h hc).imp_right And.left
  · rw [State.runCommand_of_raced hrace hu] at h
    cases h
    rcases exec_valid_slot hu hc with hv | ⟨hfree, d, rfl⟩
    · exact .inl ((State.valid_afterRace ..).trans hv)
    · refine .inr (Eq.trans ?_ hfree)
      exact State.slot_of_slots_eq (State.slots_afterRace _ (.inl (by simp))) c

theorem State.engineTurn_valid_slot {s t : State} (h : s.engineTurn = .next t) {c : Nat}
    (hc : (s.slot c).valid = true) : (t.slot c).valid = true ∨ t.slot c = Slot.free := by
  rcases State.engineTurn_cases h with rfl | ⟨i, -, -, he⟩ | rfl
  · exact .inl hc
  · exact State.runCommand_valid_slot he hc
  · exact .inl hc

/-! ### Release -/

/-- 10_state.md R32: a step leaves a valid slot valid or all zero. -/
theorem step_valid_slot {s t : State} (h : step s = .next t) {c : Nat} (hc : (s.slot c).valid = true) :
    (t.slot c).valid = true ∨ t.slot c = Slot.free := by
  obtain ⟨es, he | ⟨a, rfl⟩ | rfl⟩ := step_cases h
  · exact State.engineTurn_valid_slot (s := { s with agenda := es }) he hc
  · rcases State.hostAccess_slots { s with agenda := es } a with he | ⟨v, -, -, he⟩
    · rw [State.slot_of_slots_eq he]
      exact .inl hc
    · rw [he]
      exact .inr (State.slot_of_replicate (State.clearAll_slots _) c)
  · exact .inr (State.slot_of_replicate (State.hardReset_slots _) c)

/-- Settles O12: no access looks at a slot, and only BLK_DEINIT and the resets free one, by writing the free slot. -/
theorem slotsAreOpaqueAndZeroedOnRelease : Obligations.SlotsAreOpaqueAndZeroedOnRelease := by
  refine ⟨State.hostAccess_bus_withSlots, fun s a ha => ?_, fun i s t hd he hi => ?_, fun s t rest hg hcmd ht => ?_,
    fun s t c ht hc hv => ?_⟩
  · rcases s.hostAccess_slots a with he | ⟨v, hav, hv, -⟩
    · exact he
    · rw [ha v hav] at hv
      cases hv
  · exact exec_slots hd (not_or.mpr ⟨he, hi⟩)
  · rw [step_engine hg] at ht
    rcases State.engineTurn_cases ht with rfl | ⟨i, hp, hi, hr⟩ | rfl
    · rfl
    · obtain ⟨hd, hinit⟩ := hcmd i hp hi
      exact State.runCommand_slots (s := { s with agenda := rest }) hd (not_or.mpr hinit) hr
    · rfl
  · exact (step_valid_slot ht hc).resolve_left (by simp [hv])

end Sys2Proof.Machine
end

section
/-! PROOF. The register interface, the interrupt output and the reset values (10_state.md R21–R29, R38, R39). -/

namespace Sys2Proof.Machine

/-! ### Accesses of the CSR window -/

section CsrWindow

variable (s : State) {off : Nat} (hlt : off < 0x100) (h4 : off % 4 = 0)
include hlt

/-- A CSR offset leads to that CSR (20_memory.md R51). -/
theorem State.portTarget_csr : s.portTarget (BitVec.ofNat 32 off).toNat = .csr off := by
  have hoff : (BitVec.ofNat 32 off).toNat = off := by
    rw [BitVec.toNat_ofNat]
    omega
  rw [hoff, State.portTarget, if_pos hlt]

include h4

theorem State.hostRead_csr : s.hostRead 4 (BitVec.ofNat 32 off) = s.respond false (s.readCsr off) := by
  rw [State.hostRead, s.portTarget_csr hlt]
  exact if_pos (by simpa [csrAccessOk] using h4)

theorem State.hostWrite_csr (v : Word) :
    s.hostWrite 4 (BitVec.ofNat 32 off) v = (s.writeCsr off v).respond false 0 := by
  rw [State.hostWrite, s.portTarget_csr hlt]
  exact if_pos (by simpa [csrAccessOk] using h4)

end CsrWindow

/-! The writes of CTRL, STATUS and CMD. -/

theorem State.hostWrite_ctrl (s : State) (v : Word) :
    s.hostWrite 4 0x008 v = (if v.getLsbD 1 then s.softReset else s.writeIrqEn v).respond false 0 := rfl

theorem State.hostWrite_status (s : State) (v : Word) :
    s.hostWrite 4 0x00C v = (s.writeStatus v).respond false 0 := rfl

theorem State.hostWrite_cmd (s : State) (v : Word) : s.hostWrite 4 0x014 v = (s.writeCmd v).respond false 0 := rfl

theorem State.writeCmd_of_idle {s : State} (h : s.phase = .idle) (w : Word) : s.writeCmd w = s.accept w := by
  rw [State.writeCmd, h]

theorem State.writeCmd_of_busy {s : State} (h : s.phase = .busy) (w : Word) :
    s.writeCmd w = { s with overrun := true } := by
  rw [State.writeCmd, h]

@[simp] theorem State.softReset_done (s : State) : s.softReset.done = false := rfl

@[simp] theorem State.softReset_irqEn (s : State) : s.softReset.irqEn = false := rfl

/-! ### Parameter registers -/

theorem Params.get_set (p : Params) (v : Word) (r q : ParamReg) :
    (p.set v r).get q = if q = r then v else p.get q := by
  cases r <;> cases q <;> rfl

theorem Params.get_set_self (p : Params) (v : Word) (r : ParamReg) : (p.set v r).get r = v := by
  rw [Params.get_set, if_pos rfl]

theorem State.hostRead_param (s : State) (r : ParamReg) :
    s.hostRead 4 r.offset = s.respond false (s.params.get r) := by
  cases r <;> rfl

/-- The parameter registers fill the offsets from 0x020 to 0x050 (10_state.md R21). -/
theorem paramAt_eq_some {off : Nat} (h4 : off % 4 = 0) (h : 0x020 ≤ off ∧ off ≤ 0x050) : ∃ r, paramAt off = some r := by
  obtain ⟨k, rfl⟩ := Nat.dvd_of_mod_eq_zero h4
  have hlo : 8 ≤ k := by omega
  have hhi : k ≤ 20 := by omega
  interval_cases k <;> exact ⟨_, rfl⟩

theorem paramAt_eq_none {off : Nat} (h : off < 0x020 ∨ 0x050 < off) : paramAt off = none := by
  unfold paramAt
  split
  case h_14 => rfl
  all_goals omega

/-! ### The register interface -/

/-- Settles O14: a CMD write is the acceptance when IDLE, and sets OVERRUN when BUSY. -/
theorem commandWriteIsAcceptedOrOverruns : Obligations.CommandWriteIsAcceptedOrOverruns := by
  intro s w
  rw [State.hostWrite_cmd]
  refine ⟨fun hp => ?_, fun hp => ?_, rfl⟩
  · rw [State.writeCmd_of_idle hp]
    exact ⟨_, rfl, rfl, rfl, fun _ => rfl, rfl, rfl⟩
  · rw [State.writeCmd_of_busy hp]
    rfl

/-- Settles O15: the offset names the register, and its write sets that register alone. -/
theorem parameterRegistersHoldWhatIsWritten : Obligations.ParameterRegistersHoldWhatIsWritten := by
  intro s v p hp
  have hoff : BitVec.ofNat 32 p.1 = p.2.offset := by
    fin_cases hp <;> rfl
  rw [hoff, State.hostWrite_param]
  refine ⟨_, rfl, Params.get_set_self .., fun q hq => by rw [Params.get_set, if_neg hq], rfl, ?_⟩
  rw [State.hostRead_param, Params.get_set_self]
  rfl

/-- Settles O17: at such an offset the map has no register that a write changes. -/
theorem readOnlyAndReservedOffsetsIgnoreWrites : Obligations.ReadOnlyAndReservedOffsetsIgnoreWrites := by
  intro s off v hlt h4 hctrl hstatus hcmd hparam
  have hw : s.writeCsr off v = s := by
    unfold State.writeCsr
    split
    · contradiction
    · contradiction
    · contradiction
    · rw [paramAt_eq_none hparam]
  rw [s.hostWrite_csr hlt h4, hw]
  rfl

/-- Settles O19: bit 1 of the value picks the soft reset or the write of IRQ_EN. -/
theorem controlWriteSetsInterruptEnable : Obligations.ControlWriteSetsInterruptEnable := by
  intro s v
  simp only [State.hostWrite_ctrl]
  refine ⟨fun h => ?_, fun h => ?_, rfl⟩
  · rw [h]; rfl
  · rw [h]; exact ⟨rfl, rfl⟩

/-- A bit of a word as arithmetic on its value. -/
theorem getLsbD_eq_toNat_div (v : Word) (n : Nat) : v.getLsbD n = decide (v.toNat / 2 ^ n % 2 = 1) := by
  rw [← BitVec.testBit_toNat, Nat.testBit_eq_decide_div_mod_eq]

/-- Settles O20: the bits that the flags are masked with, read as arithmetic. -/
theorem statusWriteClearsWhereOne : Obligations.StatusWriteClearsWhereOne := by
  intro s v
  rw [State.hostWrite_status]
  refine ⟨_, rfl, rfl, ?_, ?_⟩
  · simp only [State.respond_done, State.writeStatus_done, getLsbD_eq_toNat_div]
    split <;> simp [*]
  · simp only [State.respond_overrun, State.writeStatus_overrun, getLsbD_eq_toNat_div]
    split <;> simp [*]

/-- Settles O21: a completion sets DONE and keeps IRQ_EN; acknowledging, acceptance and the resets clear DONE. -/
theorem interruptIsDoneAndEnabled : Obligations.InterruptIsDoneAndEnabled := by
  refine ⟨fun s => by simp [State.irq], fun i s t ht => ?_, fun s hd => ?_, fun s => ?_, fun s w hp => ?_,
    fun s => ⟨?_, rfl⟩⟩
  · obtain ⟨k, c, hc, -⟩ := exec_completed ht
    rw [State.irq, hc.done, hc.irqEn, Bool.true_and]
  · rw [State.hostWrite_ctrl, State.irq]
    simp [hd]
  · rw [State.hostWrite_status, State.irq]
    simp
  · rw [State.hostWrite_cmd, State.writeCmd_of_idle hp, State.irq]
    simp
  · rw [State.hostWrite_ctrl, State.irq]
    simp

/-! ### Reads by the map -/

theorem toNat_bitWord (b : Bool) : (bitWord b).toNat = b.toNat := by
  cases b <;> rfl

/-- 10_state.md R25. -/
theorem State.toNat_statusWord (s : State) :
    s.statusWord.toNat = (if s.phase = .busy then 1 else 0) + 2 * s.done.toNat + 4 * s.overrun.toNat := by
  have hbits : ∀ b d o,
      (bitWord b ||| bitWord d <<< 1 ||| bitWord o <<< 2).toNat = b.toNat + 2 * d.toNat + 4 * o.toNat := by
    decide
  rw [State.statusWord, hbits]
  cases hp : s.phase <;> simp [State.isBusy, hp]

/-- The codes by number (60_exceptions.md R205). -/
abbrev codeNumbers : List (ResultCode × Nat) :=
  [(.ok, 0), (.invalidKeyLength, 1), (.allocationFailure, 2), (.parameterOutOfRange, 3), (.authMismatch, 4),
    (.tagMismatch, 5), (.illegalCommand, 6), (.addressError, 7), (.contextError, 8)]

theorem value_mem_codeNumbers (k : ResultCode) : (k, k.value.toNat) ∈ codeNumbers := by
  cases k <;> decide

/-- 10_state.md R26: the fields of RESULT do not share a bit. -/
theorem State.toNat_resultWord (s : State) :
    s.resultWord.toNat = s.result.code.value.toNat + 256 * s.result.ctx.toNat := by
  have hfields : ∀ (k : ResultCode) (c : BitVec 4),
      (k.value ||| c.setWidth 32 <<< 8).toNat = k.value.toNat + 256 * c.toNat := by
    intro k
    cases k <;> decide
  exact hfields _ _

/-- Above RESULT a read gives the parameter register of the offset, 0 where it has none (10_state.md R27, R29). -/
theorem State.readCsr_of_gt (s : State) {off : Nat} (h : 0x010 < off) :
    s.readCsr off = (paramAt off).elim 0 s.params.get := by
  unfold State.readCsr
  split
  case h_6 => cases paramAt off <;> rfl
  all_goals omega

/-- Settles O16: each offset of the map in turn. -/
theorem registerReadsFollowTheMap : Obligations.RegisterReadsFollowTheMap := by
  intro s off hlt h4
  refine ⟨s.readCsr off, s.hostRead_csr hlt h4, ?_⟩
  split
  · subst off; rfl
  split
  · subst off; rfl
  split
  · subst off; exact toNat_bitWord s.irqEn
  split
  · subst off; exact s.toNat_statusWord
  split
  · subst off; exact ⟨_, value_mem_codeNumbers s.result.code, s.toNat_resultWord⟩
  rw [s.readCsr_of_gt (by omega)]
  split
  case isTrue hparam =>
    obtain ⟨r, hr⟩ := paramAt_eq_some h4 hparam
    exact ⟨r, hr, by rw [hr]; rfl⟩
  case isFalse hparam =>
    rw [paramAt_eq_none (by omega)]
    rfl

/-! ### Reset values -/

/-- Settles O29: every field is a literal of the reset state, and every slot, existing or not, reads as free. -/
theorem resetValues : Obligations.ResetValues := by
  intro cfg
  refine ⟨_, rfl, rfl, rfl, rfl, rfl, rfl, rfl, fun r => ?_, fun r => ?_, fun c => ?_, rfl, rfl, rfl⟩
  · cases r <;> rfl
  · cases r <;> rfl
  · rw [State.slot_of_replicate (n := cfg.numCtx) rfl]
    exact ⟨rfl, rfl, rfl, rfl⟩

end Sys2Proof.Machine
end

section
/-! PROOF. Host accesses of the memory map, and the races of BUF accesses with a running command (20_memory.md R51–R63). -/

namespace Sys2Proof.Machine

/-! ### Accesses that start outside both windows -/

theorem State.portTarget_unmapped {s : State} {off : Nat}
    (h : (0x100 ≤ off ∧ off < 0x10000) ∨ 0x10000 + s.cfg.bufSize ≤ off) : s.portTarget off = .unmapped := by
  rw [State.portTarget, if_neg (by omega), if_neg (by omega)]

/-- Settles O23: an access that starts outside both windows is answered and does nothing else. -/
theorem unmappedOffsetsReadZeroAndIgnoreWrites : Obligations.UnmappedOffsetsReadZeroAndIgnoreWrites := by
  intro s w off v h
  rw [State.hostWrite, State.hostRead, State.portTarget_unmapped h]
  exact ⟨rfl, rfl⟩

/-! ### The draws of a read -/

/-- When IDLE no access uses a draw, because no command has a region. -/
theorem State.useDraws_of_idle {s : State} (h : s.phase = .idle) (w a : Nat) : s.useDraws w a = s :=
  State.useDraws_of_not_raced (State.anyRaced_eq_false.mpr (by rw [State.runningRegions_of_idle h]; nofun))

theorem State.hostRead_draws_of_idle {s : State} (h : s.phase = .idle) (w : Nat) (off : Word) :
    (s.hostRead w off).draws = s.draws := by
  rw [State.hostRead]
  cases s.portTarget off.toNat with
  | csr o => dsimp only; split <;> rfl
  | buf a =>
    dsimp only
    split
    · rw [State.readBuf, State.useDraws_of_idle h, State.respond_draws]
    · rfl
  | unmapped => rfl

/-- Settles O18: a read answers and may use draws, but none when IDLE. -/
theorem hostReadsHaveNoSideEffect : Obligations.HostReadsHaveNoSideEffect := by
  intro s w off
  obtain ⟨b, d, he⟩ := s.hostRead_eq w off
  refine ⟨b, d, he, fun hp => ?_⟩
  have hd := State.hostRead_draws_of_idle hp w off
  rwa [he] at hd

/-! ### The bytes that a BUF access moves -/

theorem width_le_four {w : Nat} (hw : w ∈ [1, 2, 4]) : w ≤ 4 := by
  simp only [List.mem_cons, List.not_mem_nil, or_false] at hw
  omega

/-- At most four bytes fit the data lines, so the word on them is the little-endian value of the bytes. -/
theorem toNat_ofNat_leNat {bs : Bytes} (h : bs.length ≤ 4) : (BitVec.ofNat 32 (leNat bs)).toNat = leNat bs := by
  have hlt : leNat bs < 256 ^ 4 := (leNat_lt bs).trans_le (Nat.pow_le_pow_right (by decide) h)
  rw [BitVec.toNat_ofNat]
  omega

theorem toNat_extractByte (v : Word) (i : Nat) : (v.extractLsb' (8 * i) 8).toNat = v.toNat / 2 ^ (8 * i) % 256 := by
  rw [BitVec.extractLsb'_toNat, Nat.shiftRight_eq_div_pow]

/-- A byte is raced exactly where some region of the running command holds it. -/
theorem State.isRaced_iff_running (s : State) (a : Nat) : s.isRaced a = true ↔ ∃ r ∈ s.runningRegions, r.Holds a := by
  simp only [State.isRaced, List.any_eq_true, Region.has_iff]

/-- Byte `i` of an access moves as `own i` says, or is free where it is raced. -/
def State.MovedByte (s : State) (a : Nat) (own : Nat → Byte) (i : Nat) (b : Byte) : Prop :=
  ((∃ r ∈ s.runningRegions, r.Holds (a + i)) → ∃ n, b = Config.freeByte n)
    ∧ ((∀ r ∈ s.runningRegions, ¬ r.Holds (a + i)) → b = own i)

theorem State.racedBytes_moved (s : State) (w a : Nat) (own : Nat → Byte) {i : Nat}
    (h : i < (s.racedBytes w a own).length) : s.MovedByte a own i (s.racedBytes w a own)[i] := by
  rw [s.getElem_racedBytes w a own h]
  refine ⟨fun hr => ⟨_, if_pos ((s.isRaced_iff_running _).mpr hr)⟩, fun hn => if_neg fun hr => ?_⟩
  obtain ⟨r, hmem, hr⟩ := (s.isRaced_iff_running _).mp hr
  exact hn r hmem hr

/-- A BUF read of at most four bytes: the answer is the bytes moved, little-endian, zero above. -/
theorem State.readBuf_moved (s : State) {w : Nat} (a : Nat) (hw : w ≤ 4) :
    ∃ d : Word, s.readBuf w a = (s.useDraws w a).respond false d ∧ d.toNat < 2 ^ (8 * w)
      ∧ ∀ i < w, ∃ b : Byte, d.toNat / 2 ^ (8 * i) % 256 = b.toNat
          ∧ s.MovedByte a (fun i => s.bufByte (a + i)) i b := by
  refine ⟨_, rfl, ?_, fun i hi => ?_⟩ <;> rw [toNat_ofNat_leNat (by rwa [State.racedBytes_length])]
  · refine (leNat_lt _).trans_eq ?_
    rw [State.racedBytes_length, Nat.pow_mul]
  · have hlen : i < (s.racedBytes w a fun i => s.bufByte (a + i)).length := by rwa [State.racedBytes_length]
    exact ⟨_, leNat_digit _ hlen, s.racedBytes_moved w a _ hlen⟩

/-- A BUF write puts the bytes moved at their addresses and keeps every other byte. -/
theorem State.writeBuf_moved (s : State) (w a : Nat) (v : Word) :
    (∀ i < w, s.MovedByte a (fun i => v.extractLsb' (8 * i) 8) i ((s.writeBuf w a v).bufByte (a + i)))
      ∧ BufKeptOutside s (s.writeBuf w a v) [⟨a, w⟩] := by
  obtain ⟨d, he⟩ := s.writeBuf_eq w a v
  rw [he]
  refine ⟨fun i hi => ?_, fun b hb => Memory.read_putBytes_outside _ _ _ _ _ ?_⟩
  · have hlen : i < (s.racedBytes w a fun i => v.extractLsb' (8 * i) 8).length := by rwa [State.racedBytes_length]
    rw [State.bufByte, Memory.read_putBytes_inside _ _ _ _ _ hlen]
    exact s.racedBytes_moved w a _ hlen
  · rw [State.racedBytes_length]
    exact hb _ List.mem_cons_self

/-! ### BUF accesses beside and inside the running command's regions -/

/-- Settles O24: beside the running command's regions every byte moved is the access's own. -/
theorem bufAccessesAreLittleEndian : Obligations.BufAccessesAreLittleEndian := by
  intro s w a v hc hw hm ha hn
  have hraced : s.anyRaced w a = false := State.anyRaced_eq_false.mpr hn
  have hdraws : s.useDraws w a = s := State.useDraws_of_not_raced hraced
  rw [State.hostWrite_buf v hc ha hw hm, State.hostRead_buf hc ha hw hm]
  constructor
  · obtain ⟨hmoved, hkept⟩ := s.writeBuf_moved w a v
    refine ⟨_, rfl, ?_, fun i hi => ?_, hkept⟩
    · rw [State.writeBuf, hdraws, hraced, Bool.or_false]
      rfl
    · rw [(hmoved i hi).2 fun r hr => hn r hr i hi, toNat_extractByte]
  · obtain ⟨d, he, hd, hmoved⟩ := s.readBuf_moved a (width_le_four hw)
    refine ⟨d, by rw [he, hdraws]; rfl, fun i hi => ?_, hd⟩
    obtain ⟨b, hb, -, hown⟩ := hmoved i hi
    rw [hb, hown fun r hr => hn r hr i hi]

/-- Settles O25: inside them each byte moved is free where it is raced and the access's own elsewhere. -/
theorem racedAccessesGiveFreeBytes : Obligations.RacedAccessesGiveFreeBytes := by
  intro s k w a v hc hp hd hw hm ha hr
  have hregions : s.runningRegions = s.regions k := State.runningRegions_of_busy hp hd
  have hraced : s.anyRaced w a = true := by
    rw [← Bool.not_eq_false, State.anyRaced_eq_false, hregions]
    obtain ⟨i, hi, r, hmem, hr⟩ := hr
    exact fun hn => hn r hmem i hi hr
  rw [State.hostWrite_buf v hc ha hw hm, State.hostRead_buf hc ha hw hm]
  constructor
  · obtain ⟨d, he, hlt, hmoved⟩ := s.readBuf_moved a (width_le_four hw)
    obtain ⟨n, hn⟩ := s.useDraws_eq w a
    refine ⟨d, n, by rw [he, hn]; rfl, hlt, fun i hi => ?_⟩
    obtain ⟨b, hb, hfree, hown⟩ := hmoved i hi
    rw [hregions] at hfree hown
    rw [hb]
    exact ⟨fun h => (hfree h).imp fun _ hn => by rw [hn], fun h => by rw [hown h]⟩
  · obtain ⟨hmoved, hkept⟩ := s.writeBuf_moved w a v
    refine ⟨_, rfl, ?_, fun i hi => ?_, hkept⟩
    · obtain ⟨n, he⟩ := s.writeBuf_eq w a v
      rw [he, hraced, Bool.or_true]
    · obtain ⟨hfree, hown⟩ := hmoved i hi
      rw [hregions] at hfree hown
      exact ⟨hfree, fun h => by rw [hown h, toNat_extractByte]⟩

/-! ### What a command leaves, and what a race leaves of it -/

/-- 70_reset_and_hazards.md R247: a command writes no BUF byte outside its output regions. -/
theorem exec_bufKeptOutside {i : Instr} {s t : State} (h : exec i s = .next t) :
    BufKeptOutside s t (s.latch.x.outputs i) := by
  intro a ha
  have hwrite : ∀ {r : Region} {bs : Bytes} (u : State), ¬ r.Holds a → bs.length = r.len →
      (u.memWrite r.addr bs).bufByte a = u.bufByte a := fun u hr hb =>
    u.memWrite_outside _ _ _ (by rwa [hb])
  rcases exec_cases h with ⟨k, -, rfl⟩ | ⟨-, ⟨c, dir, rk, -, -, -, rfl⟩ | ⟨c, -, rfl⟩ | ⟨r, bs, ho, hb, rfl⟩
    | ⟨r, q, bs, cs, ho, hb, hq, rfl⟩ | ⟨r, k, ho, -, rfl⟩⟩
  · rfl
  · rfl
  · rfl
  · rw [State.bufByte_complete, hwrite s (ha r (by simp [ho])) hb]
  · rw [State.bufByte_complete, hwrite _ (ha q (by simp [ho])) hq, hwrite s (ha r (by simp [ho])) hb]
  · rw [State.bufByte_complete, s.freeRegion_outside r a (ha r (by simp [ho]))]

/-- A command that allocates and completes with OK has filled the slot that RESULT.CTX names, with NR at most 14,
and no other slot (41_block.md R125). -/
theorem exec_allocated_slot {i : Instr} {s t : State} {c : Nat} (h : exec i s = .next t) (hi : i.Allocates)
    (hk : t.result.code = .ok) (hctx : t.result.ctx.toNat = c) (hc : s.cfg.Legal)
    (hs : s.slots.length = s.cfg.numCtx) :
    c < t.slots.length ∧ (∀ d, d ≠ c → t.slot d = s.slot d) ∧ (t.slot c).valid = true ∧ (t.slot c).nr ≤ 14 := by
  rcases exec_cases h with ⟨k, hf, rfl⟩ | ⟨hready, ⟨n, dir, rk, hfree, -, -, rfl⟩ | ⟨n, rfl, -⟩ | ⟨r, bs, ho, -⟩
    | ⟨r, q, bs, cs, ho, -⟩ | ⟨r, k, ho, -⟩⟩
  · exact absurd hk (State.firstFailure_ne_ok hf)
  · obtain ⟨hlt, -⟩ := State.lowestFree?_eq_some.mp hfree
    obtain rfl : n = c := by
      have := hc.2.1
      rw [State.complete_result, BitVec.toNat_ofNat] at hctx
      omega
    have hnr := roundCount_of_legal (hready.key_legal hi)
    simp only [State.slot_complete, s.slot_setSlot_self n _ (hs ▸ hlt)]
    refine ⟨by simpa [hs] using hlt, fun d hd => s.slot_setSlot_ne _ hd, rfl, ?_⟩
    simp only [Slot.ofSchedule]
    omega
  · exact absurd hi (by simp)
  all_goals rcases hi with rfl | rfl <;> simp [Params.outputs] at ho

/-- A race changes a result code only where verification decides it, to one that verification can give
(20_memory.md R63). -/
theorem racedCode_cases (k : ResultCode) (free : Bool) (i : Instr) :
    racedCode k free i = k
      ∨ (i = .ccmDec ∧ k ∈ [.ok, .authMismatch] ∧ racedCode k free i ∈ [.ok, .authMismatch])
      ∨ (i = .gcmDec ∧ k ∈ [.ok, .tagMismatch] ∧ racedCode k free i ∈ [.ok, .tagMismatch]) := by
  cases i
  case ccmDec => cases k <;> cases free <;> simp [racedCode]
  case gcmDec => cases k <;> cases free <;> simp [racedCode]
  all_goals exact .inl rfl

namespace State

variable (t : State) (i : Instr) (x : Params)

theorem afterRace_result :
    ∃ free, (t.afterRace i x).result = ⟨racedCode t.result.code free i, t.result.ctx⟩ := by
  simp only [afterRace, raceSlot_result, freeRegions_result]
  exact ⟨_, rfl⟩

theorem afterRace_cfg : (t.afterRace i x).cfg = t.cfg := by
  obtain ⟨m, d, sl, k, he⟩ := t.afterRace_eq i x
  rw [he]

/-- The trace of a race keeps the completion record but for the code. -/
theorem afterRace_completed {s : State} {k : ResultCode} {c : Nat} (h : Completed s t k c) :
    Completed s (t.afterRace i x) (t.afterRace i x).result.code (t.afterRace i x).result.ctx.toNat := by
  obtain ⟨m, d, sl, k, he⟩ := t.afterRace_eq i x
  rw [he]
  exact { h with result := by simp }

theorem afterRace_bufFree {r : Region} (hr : r ∈ x.outputs i) : (t.afterRace i x).BufFree r := by
  intro a ha hlt
  rw [afterRace_cfg] at hlt
  rw [bufByte_afterRace]
  exact t.freeRegions_inside _ a hlt (.inl ⟨r, hr, ha⟩)

theorem afterRace_bufKeptOutside : BufKeptOutside t (t.afterRace i x) (x.outputs i) := fun a ha => by
  rw [bufByte_afterRace, freeRegions_outside _ _ _ ha]

/-- The trace of a race on a command that allocated slot `c`, of NR at most 14: the slot keeps VALID, DIR and NR, its
round keys are free, and every other slot stays. -/
theorem afterRace_allocated_slot {t : State} {i : Instr} {c : Nat} (hi : i.Allocates) (hk : t.result.code = .ok)
    (hctx : t.result.ctx.toNat = c) (hc : c < t.slots.length) (hn : (t.slot c).nr ≤ 14) :
    (∀ d, d ≠ c → (t.afterRace i x).slot d = t.slot d)
      ∧ ((t.afterRace i x).slot c).valid = (t.slot c).valid ∧ ((t.afterRace i x).slot c).dir = (t.slot c).dir
      ∧ ((t.afterRace i x).slot c).nr = (t.slot c).nr ∧ ((t.afterRace i x).slot c).KeysFree := by
  have hslot : ∀ d, (t.freeRegions (x.outputs i)).slot d = t.slot d := slot_of_slots_eq (freeRegions_slots _ _)
  have hafter := slot_of_slots_eq (hctx ▸ slots_afterRace_alloc x hi hk)
  simp only [hafter, ← hslot]
  exact ⟨fun d hd => slot_freeSlotKeys_ne _ hd,
    slot_freeSlotKeys_self _ (by rwa [freeRegions_slots]) (by rwa [hslot])⟩

end State

/-- Settles O26: the command's own completion, and then the trace of the race over it. -/
theorem racedCommandLeavesFreeOutputs : Obligations.RacedCommandLeavesFreeOutputs := by
  intro s t u i rest hg hp hd hr hu ht
  obtain rfl : u.afterRace i s.latch.x = t := by
    rw [step_engine hg, State.engineTurn_of_decode (s := { s with agenda := rest }) hp hd,
      State.runCommand_of_raced (s := { s with agenda := rest }) hr hu] at ht
    exact Host.Outcome.next.inj ht
  obtain ⟨k, c, hcompleted, -⟩ := exec_completed hu
  obtain ⟨free, hresult⟩ := u.afterRace_result i s.latch.x
  refine ⟨fun o ho => u.afterRace_bufFree i _ ho, fun a ha => ?_, u.afterRace_completed i _ hcompleted,
    by rw [hresult], ?_, fun h => State.slots_afterRace _ (by tauto), fun hi hk hc hs => ?_⟩
  · exact (u.afterRace_bufKeptOutside i _ a ha).trans (exec_bufKeptOutside hu a ha)
  · rw [hresult]
    exact (racedCode_cases u.result.code free i).imp_left fun h => by rw [h]
  · obtain ⟨hlt, hothers, hvalid, hnr⟩ := exec_allocated_slot hu hi hk rfl hc hs
    obtain ⟨hkept, hv, hself⟩ := State.afterRace_allocated_slot s.latch.x hi hk rfl hlt hnr
    exact ⟨fun d hd => (hkept d hd).trans (hothers d hd), hv.trans hvalid, hself⟩

end Sys2Proof.Machine
end

section
/-! PROOF. Decoding and encoding of command words (30_encoding.md R70 to R73). -/

namespace Sys2Proof

/-! ### Encoding -/

/-- A word encodes a command exactly when its three fields are the command's (30_encoding.md R70, R71). -/
theorem encode_eq_iff (i : Instr) (w : Word) :
    encode i = w ↔ rsvOf w = 0 ∧ ctxOf w = i.ctxField ∧ opcOf w = i.opc := by
  constructor
  · rintro rfl
    exact ⟨rsvOf_encode i, ctxOf_encode i, opcOf_encode i⟩
  · rintro ⟨hrsv, hctx, hopc⟩
    rw [word_of_fields w, hrsv, hctx, hopc, encode]

/-! ### The opcode map -/

/-- The opcode map's command, its CTX rule met, is well formed and has the fields that it was read from. -/
theorem fields_of_commandOf {o : BitVec 8} {c : BitVec 4} {i : Instr} (h : commandOf o c.toNat = some i)
    (hn : i.format = .n → c = 0) : i.wf = true ∧ c = i.ctxField ∧ o = i.opc := by
  unfold commandOf at h
  split at h <;> cases h
  case h_3 ho | h_4 ho | h_5 ho =>
    exact ⟨decide_eq_true c.isLt, BitVec.eq_of_toNat_eq (by simp [Instr.ctxField]), BitVec.eq_of_toNat_eq ho⟩
  all_goals
    rename_i ho
    exact ⟨rfl, hn rfl, BitVec.eq_of_toNat_eq ho⟩

/-- The opcode map gives back a well-formed command from its own fields. -/
theorem commandOf_fields {i : Instr} (h : i.wf = true) : commandOf i.opc i.ctxField.toNat = some i := by
  cases i with
  | blkEnc ctx | blkDec ctx | blkDeinit ctx =>
    have hctx : ctx % 16 = ctx := Nat.mod_eq_of_lt (of_decide_eq_true h)
    simp [commandOf, Instr.opc, Instr.ctxField, hctx]
  | _ => rfl

theorem Instr.ctxField_of_format_n {i : Instr} (h : i.format = .n) : i.ctxField = 0 := by
  cases i with
  | blkEnc | blkDec | blkDeinit => cases h
  | _ => rfl

/-- Settles O1: both sides say that RSV is zero and that OPC and CTX are those of the command. -/
theorem decodeAndEncodeAgree : Obligations.DecodeAndEncodeAgree := by
  intro w i
  rw [decode_eq_ok_iff, encode_eq_iff]
  constructor
  · rintro ⟨hrsv, hcommand, hn⟩
    obtain ⟨hwf, hctx, hopc⟩ := fields_of_commandOf hcommand hn
    exact ⟨hwf, hrsv, hctx, hopc⟩
  · rintro ⟨hwf, hrsv, hctx, hopc⟩
    rw [hctx, hopc]
    exact ⟨hrsv, commandOf_fields hwf, Instr.ctxField_of_format_n⟩

/-! ### The fields as naturals (30_encoding.md R70), and the legal words -/

theorem toNat_rsvOf (w : Word) : (rsvOf w).toNat = w.toNat / 2 ^ 12 := by
  rw [rsvOf, BitVec.extractLsb'_toNat, Nat.shiftRight_eq_div_pow]
  exact Nat.mod_eq_of_lt (Nat.div_lt_of_lt_mul w.isLt)

theorem toNat_ctxOf (w : Word) : (ctxOf w).toNat = w.toNat / 2 ^ 8 % 16 := by
  rw [ctxOf, BitVec.extractLsb'_toNat, Nat.shiftRight_eq_div_pow]

theorem toNat_opcOf (w : Word) : (opcOf w).toNat = w.toNat % 256 := by
  rw [opcOf, BitVec.extractLsb'_toNat, Nat.shiftRight_zero]

/-- The rows of the opcode map, and those of them in format C, where CTX is free (30_encoding.md R71, R72). -/
theorem exists_commandOf_iff (o : BitVec 8) (c : BitVec 4) :
    (∃ i, commandOf o c.toNat = some i ∧ (i.format = .n → c = 0)) ↔
      o.toNat ∈ [0x01, 0x02, 0x03, 0x04, 0x05, 0x10, 0x11, 0x20, 0x21, 0x30, 0x31, 0x40, 0x41, 0x42]
        ∧ (c.toNat = 0 ∨ o.toNat ∈ [0x03, 0x04, 0x05]) := by
  unfold commandOf
  split
  -- OPC is in no row: neither side holds.
  case h_15 => simp_all
  all_goals
    rename_i ho
    simp [ho, Instr.format, ← BitVec.toNat_inj]

/-- Settles O2: decoding's three tests, each on the field's natural. -/
theorem legalWordsAreThoseOfTheRule : Obligations.LegalWordsAreThoseOfTheRule := by
  intro w
  simp only [decode_eq_ok_iff, exists_and_left]
  rw [exists_commandOf_iff, ← BitVec.toNat_inj, toNat_rsvOf, toNat_ctxOf, toNat_opcOf]
  rfl

/-- Settles O3: seven rows of the opcode map, evaluated. -/
theorem commandWordsDecode : Obligations.CommandWordsDecode := by
  unfold Obligations.CommandWordsDecode
  decide

end Sys2Proof
end

section
/-! PROOF. The S-box tables against their definition, and the two ciphers as inverses (40_aes_core.md R91–R110). -/

namespace Sys2Proof.Machine

/-! ### The S-boxes (R91–R93) -/

/-- The table is 256 literals, so it is compared with its rule entry by entry. -/
theorem sbox_eq_sboxAffine_gf8Inv (a : Byte) : sbox a = sboxAffine (gf8Inv a) := by
  revert a
  decide +kernel

theorem gf8Mul_gf8Inv (a : Byte) : gf8Mul a (gf8Inv a) = if a = 0 then 0 else 1 := by
  revert a
  decide +kernel

/-- A left inverse on the finite type of words of one width is a right inverse too. -/
theorem rightInverse_of_leftInverse {w : Nat} {f g : BitVec w → BitVec w} (h : Function.LeftInverse f g) :
    Function.RightInverse f g := h.rightInverse_of_card_le le_rfl

theorem sbox_invSbox (a : Byte) : sbox (invSbox a) = a := rightInverse_of_leftInverse invSbox_sbox a

/-- Settles O32: the definition is evaluated at every byte, and the table that undoes the S-box is undone by it. -/
theorem sboxTablesAgreeWithTheirDefinition : Obligations.SboxTablesAgreeWithTheirDefinition := fun a =>
  ⟨sbox_eq_sboxAffine_gf8Inv a, invSbox_sbox a, sbox_invSbox a, gf8Mul_gf8Inv a⟩

/-! ### One round and its inverse (R103, R107) -/

@[simp] theorem addRoundKey_addRoundKey (s k : Block) : addRoundKey (addRoundKey s k) k = s := by
  rw [addRoundKey, addRoundKey, BitVec.xor_assoc, BitVec.xor_self, BitVec.xor_zero]

theorem invMixColumns_addRoundKey (s k : Block) :
    invMixColumns (addRoundKey s k) = addRoundKey (invMixColumns s) (invMixColumns k) := invMixColumns_xor s k

theorem invShiftRows_invSubBytes_shiftRows_subBytes (s : Block) :
    invShiftRows (invSubBytes (shiftRows (subBytes s))) = s := by
  rw [invSubBytes_shiftRows, invSubBytes_subBytes, invShiftRows_shiftRows]

/-- An inverse round with the mixed round key undoes a round, seen through the byte substitution and row shift that
begin the next round: this is why the decryption schedule is mixed (R108). -/
theorem invCipherRound_cipherRound (k s : Block) :
    invCipherRound (invMixColumns k) (shiftRows (subBytes (cipherRound k s))) = shiftRows (subBytes s) := by
  rw [invCipherRound, invShiftRows_invSubBytes_shiftRows_subBytes, cipherRound, invMixColumns_addRoundKey,
    addRoundKey_addRoundKey, invMixColumns_mixColumns]

/-! ### The decryption schedule (R108) -/

theorem getD_decryptSchedule {nr r : Nat} (ek : List Block) (h : r ≤ nr) :
    (decryptSchedule nr ek).getD r 0
      = if r = 0 ∨ r = nr then ek.getD (nr - r) 0 else invMixColumns (ek.getD (nr - r) 0) := by
  have hr : r < (decryptSchedule nr ek).length := by rw [decryptSchedule_length]; omega
  rw [← List.getElem_eq_getD (h := hr)]
  simp [decryptSchedule]

theorem getD_decryptSchedule_zero (nr : Nat) (ek : List Block) :
    (decryptSchedule nr ek).getD 0 0 = ek.getD nr 0 := by
  rw [getD_decryptSchedule ek (Nat.zero_le nr), if_pos (.inl rfl), Nat.sub_zero]

theorem getD_decryptSchedule_last (nr : Nat) (ek : List Block) :
    (decryptSchedule nr ek).getD nr 0 = ek.getD 0 0 := by
  rw [getD_decryptSchedule ek le_rfl, if_pos (.inr rfl), Nat.sub_self]

theorem getD_decryptSchedule_middle {nr r : Nat} (ek : List Block) (h0 : 0 < r) (h : r < nr) :
    (decryptSchedule nr ek).getD r 0 = invMixColumns (ek.getD (nr - r) 0) := by
  rw [getD_decryptSchedule ek h.le, if_neg (by omega)]

/-! ### The ciphers (R103, R107, R110) -/

/-- The last `m` of `n + m` rounds, undone by the first `m` inverse rounds. -/
theorem runRounds_invCipherRound_cipherRound (ek : List Block) (n m : Nat) (s : Block) :
    runRounds invCipherRound (decryptSchedule (n + m + 1) ek) m 1
        (shiftRows (subBytes (runRounds cipherRound ek (n + m) 1 s)))
      = shiftRows (subBytes (runRounds cipherRound ek n 1 s)) := by
  induction m generalizing n with
  | zero => rfl
  | succ m ih =>
    have hkey : (decryptSchedule (n + 1 + m + 1) ek).getD (1 + m) 0 = invMixColumns (ek.getD (1 + n) 0) := by
      rw [getD_decryptSchedule_middle ek (by omega) (by omega), show n + 1 + m + 1 - (1 + m) = 1 + n by omega]
    rw [show n + (m + 1) = n + 1 + m by omega, runRounds_succ, ih, runRounds_succ, hkey,
      invCipherRound_cipherRound]

/-- With at least one round, the equivalent inverse cipher on the decryption schedule undoes the cipher. -/
theorem invCipher_cipher (n : Nat) (ek : List Block) (b : Block) :
    invCipher (decryptSchedule (n + 1) ek) (n + 1) (cipher ek (n + 1) b) = b := by
  have hrounds := runRounds_invCipherRound_cipherRound ek 0 n (addRoundKey b (ek.getD 0 0))
  rw [Nat.zero_add] at hrounds
  simp only [invCipher, cipher, Nat.add_sub_cancel, getD_decryptSchedule_zero, getD_decryptSchedule_last,
    addRoundKey_addRoundKey, hrounds]
  rw [invShiftRows_invSubBytes_shiftRows_subBytes, runRounds, addRoundKey_addRoundKey]

theorem decryptBlock_encryptBlock (key : Bytes) : Function.LeftInverse (decryptBlock key) (encryptBlock key) :=
  invCipher_cipher (keyWords key.length + 5) (keyExpansion key)

/-- Settles O33: decryption undoes encryption round by round, and on the finite type of blocks a left inverse is a right
inverse. No step of the rounds looks at the length of the key. -/
theorem ciphersAreInverse : Obligations.CiphersAreInverse := fun key b _ =>
  ⟨decryptBlock_encryptBlock key b, rightInverse_of_leftInverse (decryptBlock_encryptBlock key) b⟩

end Sys2Proof.Machine
end

section
/-! PROOF. The block commands: which slot each of them changes, the schedules that the two BLK_INITs store, the block that
BLK_ENC and BLK_DEC write, and the round trip (41_block.md R120–R127). -/

namespace Sys2Proof.Machine

/-! ### The slot that a key fills (R120, R121) -/

/-- The slot that BLK_INIT_ENC stores for a key. -/
abbrev encSlot (key : Bytes) : Slot := .ofSchedule .enc (roundCount key.length) (keyExpansion key)

/-- The slot that BLK_INIT_DEC stores for a key. -/
abbrev decSlot (key : Bytes) : Slot :=
  .ofSchedule .dec (roundCount key.length) (decryptSchedule (roundCount key.length) (keyExpansion key))

section Schedule

variable {dir : Dir} {nr : Nat} {rk : List Block}

theorem Slot.ofSchedule_rk_length (h : rk.length ≤ 15) : (Slot.ofSchedule dir nr rk).rk.length = 15 := by
  simp only [Slot.ofSchedule, List.length_append, List.length_replicate]
  omega

theorem Slot.getD_ofSchedule_rk {r : Nat} (h : r < rk.length) :
    (Slot.ofSchedule dir nr rk).rk.getD r 0 = rk.getD r 0 := List.getD_append _ _ _ _ h

theorem Slot.getD_ofSchedule_rk_of_length_le {r : Nat} (h : rk.length ≤ r) :
    (Slot.ofSchedule dir nr rk).rk.getD r 0 = 0 := by
  rw [Slot.ofSchedule, List.getD_append_right _ _ _ _ h]
  simp only [List.getD_eq_getElem?_getD, List.getElem?_replicate]
  split <;> rfl

end Schedule

/-- The round count of the running command's key, from KEY_LEN (40_aes_core.md R99). -/
theorem State.roundCount_key (s : State) : roundCount s.key.length = s.latch.x.keyLen.toNat / 4 + 6 := by
  rw [State.key, State.memRead_length]
  rfl

/-- The schedule of a ready allocation has at most fifteen round keys (40_aes_core.md R99). -/
theorem State.Ready.roundCount_le {s : State} {i : Instr} (h : s.Ready i) (hi : i.Allocates) :
    roundCount s.key.length ≤ 14 := by
  have := roundCount_of_legal (h.key_legal hi)
  omega

/-! ### The ciphers under a stored schedule -/

/-- Rounds look at no round key but their own. -/
theorem runRounds_congr (round : Block → Block → Block) {rk rk' : List Block} {n r : Nat} (b : Block)
    (h : ∀ j, r ≤ j → j < r + n → rk.getD j 0 = rk'.getD j 0) :
    runRounds round rk n r b = runRounds round rk' n r b := by
  induction n generalizing r b with
  | zero => rfl
  | succ n ih =>
    rw [runRounds, runRounds, h r le_rfl (by omega)]
    exact ih _ fun j hj hlt => h j (by omega) (by omega)

section Ciphers

variable {rk rk' : List Block} {nr : Nat} (b : Block) (h : ∀ j ≤ nr, rk.getD j 0 = rk'.getD j 0)
include h

theorem runRounds_congr_of_le (round : Block → Block → Block) :
    runRounds round rk (nr - 1) 1 b = runRounds round rk' (nr - 1) 1 b :=
  runRounds_congr round b fun j h1 hlt => h j (by omega)

theorem cipher_congr : cipher rk nr b = cipher rk' nr b := by
  simp only [cipher, h 0 (Nat.zero_le nr), h nr le_rfl, runRounds_congr_of_le _ h]

theorem invCipher_congr : invCipher rk nr b = invCipher rk' nr b := by
  simp only [invCipher, h 0 (Nat.zero_le nr), h nr le_rfl, runRounds_congr_of_le _ h]

end Ciphers

/-- BLK_ENC under a slot that BLK_INIT_ENC filled is `E_K` (40_aes_core.md R105). -/
theorem cipher_encSlot (key : Bytes) (b : Block) : cipher (encSlot key).rk (encSlot key).nr b = encryptBlock key b :=
  cipher_congr b fun _ hj => Slot.getD_ofSchedule_rk (by rw [keyExpansion_length]; exact Nat.lt_succ_of_le hj)

/-- BLK_DEC under a slot that BLK_INIT_DEC filled is `D_K` (40_aes_core.md R110). -/
theorem invCipher_decSlot (key : Bytes) (b : Block) :
    invCipher (decSlot key).rk (decSlot key).nr b = decryptBlock key b :=
  invCipher_congr b fun _ hj => Slot.getD_ofSchedule_rk (by rw [decryptSchedule_length]; exact Nat.lt_succ_of_le hj)

/-! ### Allocation (R125) -/

/-- All that a command that allocates can do: fail without effect, or store the key's slot in the lowest free place. -/
theorem exec_allocates_cases {i : Instr} {s t : State} (hi : i.Allocates) (h : exec i s = .next t) :
    (∃ k, k ≠ .ok ∧ t = s.complete k 0)
      ∨ ∃ c sl, s.lowestFree? = some c ∧ (i = .blkInitEnc ∧ sl = encSlot s.key ∨ i = .blkInitDec ∧ sl = decSlot s.key)
          ∧ t = (s.setSlot c sl).complete .ok c := by
  by_cases hr : s.Ready i
  · obtain ⟨c, hc⟩ := State.lowestFree?_of_ready hi hr
    rcases hi with rfl | rfl
    · rw [exec_blkInitEnc hr hc] at h
      exact .inr ⟨c, _, hc, .inl ⟨rfl, rfl⟩, (Host.Outcome.next.inj h).symm⟩
    · rw [exec_blkInitDec hr hc] at h
      exact .inr ⟨c, _, hc, .inr ⟨rfl, rfl⟩, (Host.Outcome.next.inj h).symm⟩
  · obtain ⟨k, hk, -, he⟩ := exec_of_not_ready hr
    exact .inl ⟨k, hk, Host.Outcome.next.inj (h.symm.trans he)⟩

/-- RESULT.CTX has room for the index of every slot (00_scope.md R8). -/
theorem State.toNat_ctx_of_lowestFree {s : State} (hs : s.cfg.Legal) {c : Nat} (hc : s.lowestFree? = some c) :
    (BitVec.ofNat 4 c).toNat = c := by
  obtain ⟨hlt, -⟩ := State.lowestFree?_eq_some.mp hc
  obtain ⟨-, hmax, -⟩ := hs
  rw [BitVec.toNat_ofNat]
  omega

/-- A command that allocates changes no slot but the one that RESULT.CTX names (41_block.md R126). -/
theorem exec_allocates_slot_ne {i : Instr} {s t : State} (hs : s.cfg.Legal) (hi : i.Allocates)
    (h : exec i s = .next t) {d : Nat} (hd : d ≠ t.result.ctx.toNat) : t.slot d = s.slot d := by
  rcases exec_allocates_cases hi h with ⟨k, -, rfl⟩ | ⟨c, sl, hc, -, rfl⟩
  · exact s.slot_complete k 0 d
  · rw [State.complete_result, State.toNat_ctx_of_lowestFree hs hc] at hd
    rw [State.slot_complete, State.slot_setSlot_ne _ _ hd]

/-- Where a command that allocates completes with OK, the slot that RESULT.CTX names is the key's. -/
theorem exec_allocates_slot_self {i : Instr} {s t : State} (hs : s.Inv) (hi : i.Allocates) (h : exec i s = .next t)
    (hk : t.result.code = .ok) :
    i = .blkInitEnc ∧ t.slot t.result.ctx.toNat = encSlot s.key
      ∨ i = .blkInitDec ∧ t.slot t.result.ctx.toNat = decSlot s.key := by
  rcases exec_allocates_cases hi h with ⟨k, hne, rfl⟩ | ⟨c, sl, hc, hsl, rfl⟩
  · exact absurd hk hne
  · obtain ⟨hlt, -⟩ := State.lowestFree?_eq_some.mp hc
    rw [State.complete_result, State.toNat_ctx_of_lowestFree hs.cfg hc, State.slot_complete,
      State.slot_setSlot_self _ _ _ (hs.slotCount ▸ hlt)]
    exact hsl

theorem exec_blkInitEnc_slot {s t : State} (hs : s.Inv) (h : exec .blkInitEnc s = .next t)
    (hk : t.result.code = .ok) : t.slot t.result.ctx.toNat = encSlot s.key := by
  rcases exec_allocates_slot_self hs (.inl rfl) h hk with ⟨-, he⟩ | ⟨hi, -⟩
  · exact he
  · cases hi

theorem exec_blkInitDec_slot {s t : State} (hs : s.Inv) (h : exec .blkInitDec s = .next t)
    (hk : t.result.code = .ok) : t.slot t.result.ctx.toNat = decSlot s.key := by
  rcases exec_allocates_slot_self hs (.inr rfl) h hk with ⟨hi, -⟩ | ⟨-, he⟩
  · cases hi
  · exact he

/-! ### The slot frame (R126) -/

/-- BLK_DEINIT changes no slot but the one it names. -/
theorem exec_blkDeinit_slot_ne {s t : State} {c d : Nat} (h : exec (.blkDeinit c) s = .next t) (hd : d ≠ c) :
    t.slot d = s.slot d := by
  rcases exec_slots_cases h with he | ⟨_, _, ha, -⟩ | ⟨n, hn, he⟩
  · exact State.slot_of_slots_eq he d
  · exact absurd ha (by simp)
  · cases hn
    rw [State.slot_of_slots_eq he, State.slot_setSlot_ne _ _ hd]

/-- Settles O11: no slot changes but the one that BLK_DEINIT names or that an allocation reports in RESULT.CTX. -/
theorem commandsLeaveOtherSlotsAlone : Obligations.CommandsLeaveOtherSlotsAlone := by
  intro i s t hs h
  refine ⟨fun hd he hi => exec_slots hd (not_or.mpr ⟨he, hi⟩) h, ?_, fun d hi hd => exec_allocates_slot_ne hs hi h hd⟩
  rintro c d rfl hd
  exact exec_blkDeinit_slot_ne h hd

/-! ### BLK_INIT_ENC and BLK_INIT_DEC (R120, R121) -/

/-- Storing a slot and completing: the slot holds it, and BUF, the draws and every other slot stay. -/
theorem State.setSlot_complete_spec {s t : State} {c : Nat} {sl : Slot} {k : ResultCode} {n : Nat}
    (ht : (s.setSlot c sl).complete k n = t) (hc : c < s.slots.length) :
    Completed s t k n ∧ t.buf = s.buf ∧ t.draws = s.draws ∧ t.slot c = sl ∧ ∀ d, d ≠ c → t.slot d = s.slot d := by
  subst ht
  exact ⟨.of_setSlot .., rfl, rfl, s.slot_setSlot_self c sl hc, fun _ => s.slot_setSlot_ne sl⟩

/-- Settles O34: the round keys 0 to NR of the stored slot are the expansion's own, the padding is zero. -/
theorem blkInitEncStoresTheSchedule : Obligations.BlkInitEncStoresTheSchedule := by
  intro s c hlen hr hc hfree hlow
  have hexec := exec_blkInitEnc hr (State.lowestFree?_eq_some.mpr ⟨hc, hfree, hlow⟩)
  have hnr := hr.roundCount_le (.inl rfl)
  have hrk := keyExpansion_length s.key
  refine ⟨_, hexec, ?_⟩
  obtain ⟨hdone, hbuf, hdraws, hself, hne⟩ := State.setSlot_complete_spec rfl (hlen ▸ hc)
  refine ⟨hdone, hbuf, hdraws, ?_⟩
  rw [hself]
  exact ⟨rfl, rfl, s.roundCount_key, Slot.ofSchedule_rk_length (by omega),
    fun r hle => Slot.getD_ofSchedule_rk (hrk ▸ Nat.lt_succ_of_le hle),
    fun r hlt => Slot.getD_ofSchedule_rk_of_length_le (hrk ▸ hlt), hne⟩

/-- Settles O35: the round keys 0 to NR of the stored slot are those of the decryption schedule, the padding is zero. -/
theorem blkInitDecStoresTheSchedule : Obligations.BlkInitDecStoresTheSchedule := by
  intro s c hlen hr hc hfree hlow
  have hexec := exec_blkInitDec hr (State.lowestFree?_eq_some.mpr ⟨hc, hfree, hlow⟩)
  have hnr := hr.roundCount_le (.inr rfl)
  have hrk := decryptSchedule_length (roundCount s.key.length) (keyExpansion s.key)
  have hget : ∀ r ≤ (decSlot s.key).nr, (decSlot s.key).rk.getD r 0
      = (decryptSchedule (roundCount s.key.length) (keyExpansion s.key)).getD r 0 := fun r hle =>
    Slot.getD_ofSchedule_rk (hrk ▸ Nat.lt_succ_of_le hle)
  refine ⟨_, hexec, ?_⟩
  obtain ⟨hdone, hbuf, hdraws, hself, hne⟩ := State.setSlot_complete_spec rfl (hlen ▸ hc)
  refine ⟨hdone, hbuf, hdraws, ?_⟩
  rw [hself]
  refine ⟨rfl, rfl, s.roundCount_key, Slot.ofSchedule_rk_length (by omega), ?_, fun r h0 hlt => ?_, ?_,
    fun r hlt => Slot.getD_ofSchedule_rk_of_length_le (hrk ▸ hlt), hne⟩
  · exact (hget 0 (Nat.zero_le _)).trans (getD_decryptSchedule_zero ..)
  · exact (hget r hlt.le).trans (getD_decryptSchedule_middle _ h0 hlt)
  · exact (hget _ le_rfl).trans (getD_decryptSchedule_last ..)

/-! ### BLK_ENC and BLK_DEC (R122, R123) -/

/-- Writing a block and completing: the block stands at its address, and the rest of BUF, the slots and the draws
stay. -/
theorem State.memWrite_block_complete_spec {s t : State} {a : Nat} {b : Block} {k : ResultCode} {n : Nat}
    (ht : (s.memWrite a (bytesOfBlock b)).complete k n = t) :
    Completed s t k n ∧ t.slots = s.slots ∧ t.draws = s.draws ∧ t.bufBlock a = b ∧ BufKeptOutside s t [⟨a, 16⟩] := by
  subst ht
  refine ⟨.of_memWrite .., by simp, by simp, by rw [State.bufBlock_complete, State.bufBlock_memWrite], fun x hx => ?_⟩
  rw [State.bufByte_complete, State.memWrite_outside]
  rw [bytesOfBlock_length]
  exact hx _ List.mem_cons_self

/-- Settles O36: the block written is the cipher of the source block in the snapshot. -/
theorem blkEncWritesTheCipherBlock : Obligations.BlkEncWritesTheCipherBlock := fun _ _ hr =>
  ⟨_, exec_blkEnc hr, State.memWrite_block_complete_spec rfl⟩

/-- Settles O37: the block written is the inverse cipher of the source block in the snapshot. -/
theorem blkDecWritesThePlainBlock : Obligations.BlkDecWritesThePlainBlock := fun _ _ hr =>
  ⟨_, exec_blkDec hr, State.memWrite_block_complete_spec rfl⟩

/-! ### BLK_DEINIT (R124) -/

/-- A command whose context check fails completes with CONTEXT_ERROR and does nothing else (60_exceptions.md R207). -/
theorem exec_of_contextOk_false {i : Instr} {s : State} (h : s.contextOk i = false) :
    exec i s = .next (s.complete .contextError 0) :=
  exec_of_firstFailure (by rw [State.checks, h]; rfl)

/-- Settles O38: the slot named is zero, so a BLK_DEINIT of it that follows fails its context check. -/
theorem blkDeinitFreesTheSlot : Obligations.BlkDeinitFreesTheSlot := by
  intro s c hr
  have ⟨⟨_, hvalid⟩, _⟩ := hr
  refine ⟨_, exec_blkDeinit hr, ?_⟩
  obtain ⟨hdone, hbuf, hdraws, hself, hne⟩ := State.setSlot_complete_spec rfl (State.lt_length_of_valid hvalid)
  refine ⟨hdone, hbuf, hdraws, hself, hne, fun w => ⟨_, exec_of_contextOk_false ?_, rfl, rfl⟩⟩
  rw [State.contextOk, State.slot_accept, hself]
  exact Bool.and_false _

/-! ### The round trip (R127) -/

/-- A command that completes with OK has passed its checks (60_exceptions.md R213). -/
theorem State.Ready.of_ok {i : Instr} {s t : State} (h : exec i s = .next t) (hk : t.result.code = .ok) :
    s.Ready i := by
  by_contra hr
  obtain ⟨k, hne, -, he⟩ := exec_of_not_ready hr
  cases h.symm.trans he
  exact hne hk

theorem bufBlock_of_blkEnc {s t : State} {c : Nat} (h : exec (.blkEnc c) s = .next t) (hk : t.result.code = .ok) :
    t.bufBlock s.latch.x.dstAddr.toNat
      = cipher (s.slot c).rk (s.slot c).nr (s.snapBlock s.latch.x.srcAddr.toNat) := by
  obtain ⟨t', ht, -, -, -, hblock, -⟩ := blkEncWritesTheCipherBlock s c (.of_ok h hk)
  cases h.symm.trans ht
  exact hblock

theorem bufBlock_of_blkDec {s t : State} {c : Nat} (h : exec (.blkDec c) s = .next t) (hk : t.result.code = .ok) :
    t.bufBlock s.latch.x.dstAddr.toNat
      = invCipher (s.slot c).rk (s.slot c).nr (s.snapBlock s.latch.x.srcAddr.toNat) := by
  obtain ⟨t', ht, -, -, -, hblock, -⟩ := blkDecWritesThePlainBlock s c (.of_ok h hk)
  cases h.symm.trans ht
  exact hblock

/-- Settles O39: the two slots hold the key's two schedules, so the block goes through `E_K` and then `D_K`. -/
theorem blockRoundTrip : Obligations.BlockRoundTrip := by
  intro a a' b b' s s' u u' ha hb hea hka heb hkb hkey hs hu hes hks hsrc heu hku
  have henc : s'.bufBlock s.latch.x.dstAddr.toNat = encryptBlock a.key (s.snapBlock s.latch.x.srcAddr.toNat) := by
    rw [bufBlock_of_blkEnc hes hks, hs, exec_blkInitEnc_slot ha hea hka, cipher_encSlot]
  have hdec : u'.bufBlock u.latch.x.dstAddr.toNat = decryptBlock a.key (u.snapBlock u.latch.x.srcAddr.toNat) := by
    rw [bufBlock_of_blkDec heu hku, hu, exec_blkInitDec_slot hb heb hkb, invCipher_decSlot, hkey]
  rw [hdec, hsrc, henc, decryptBlock_encryptBlock]

end Sys2Proof.Machine
end

section
/-! PROOF. The CBC commands: the blocks that CBC_ENC and CBC_DEC write in place, and the round trip (42_cbc.md
R135–R137). -/

namespace Sys2Proof.Machine

/-- Decryption undoes encryption under one chain value: the chain of both is the ciphertext. -/
theorem cbcDecrypt_cbcEncrypt {D E : Block → Block} (h : Function.LeftInverse D E) (c : Block) (ps : List Block) :
    cbcDecrypt D c (cbcEncrypt E c ps) = ps := by
  induction ps generalizing c with
  | nil => rfl
  | cons p ps ih =>
    have hp : D (E (c ^^^ p)) ^^^ c = p := by
      rw [h, BitVec.xor_comm, ← BitVec.xor_assoc, BitVec.xor_self, BitVec.zero_xor]
    rw [cbcEncrypt, cbcDecrypt, hp, ih]

/-- Filling a region with as many blocks as it holds and completing: each block stands at its address, and the rest of
BUF, the slots and the draws stay. -/
theorem State.memWrite_blocks_complete_spec {s t : State} {r : Region} {bs : List Block} {k : ResultCode} {n : Nat}
    (hr : r.len % 16 = 0) (hb : bs.length = (blocksOf (s.memRead r)).length)
    (ht : (s.memWrite r.addr (bytesOfBlocks bs)).complete k n = t) :
    Completed s t k n ∧ t.slots = s.slots ∧ t.draws = s.draws
      ∧ (∀ i (h : i < bs.length), t.bufBlock (r.addr + 16 * i) = bs[i]) ∧ BufKeptOutside s t [r] := by
  subst ht
  refine ⟨.of_memWrite .., by simp, by simp, fun i h => ?_, fun a ha => ?_⟩
  · rw [State.bufBlock_complete, State.bufBlock_memWrite_blocks]
  · rw [State.bufByte_complete, State.memWrite_outside]
    rw [bytesOfBlocks_length_of_whole hr hb]
    exact ha r List.mem_cons_self

/-! ### CBC_ENC and CBC_DEC (R135, R136) -/

/-- The ciphertext blocks of the running CBC_ENC. -/
abbrev State.cbcEncOut (s : State) : List Block :=
  cbcEncrypt (encryptBlock s.key) (blockOfBytes (s.memRead s.latch.x.cbcIvRegion))
    (blocksOf (s.memRead s.latch.x.srcRegion))

/-- The plaintext blocks of the running CBC_DEC. -/
abbrev State.cbcDecOut (s : State) : List Block :=
  cbcDecrypt (decryptBlock s.key) (blockOfBytes (s.memRead s.latch.x.cbcIvRegion))
    (blocksOf (s.memRead s.latch.x.srcRegion))

theorem State.cbcEncOut_length (s : State) : s.cbcEncOut.length = s.latch.x.dataLen.toNat / 16 := by
  rw [cbcEncrypt_length, blocksOf_length, State.memRead_length]; rfl

theorem State.cbcDecOut_length (s : State) : s.cbcDecOut.length = s.latch.x.dataLen.toNat / 16 := by
  rw [cbcDecrypt_length, blocksOf_length, State.memRead_length]; rfl

/-- Settles O40: block `n` written is block `n` of the encryption, whose chain value is the block written before it. -/
theorem cbcEncChainsTheBlocks : Obligations.CbcEncChainsTheBlocks := by
  intro s hr
  have ⟨_, _, hwhole, _⟩ := hr
  refine ⟨_, exec_cbcEnc hr, ?_⟩
  obtain ⟨hdone, hslots, hdraws, hblock, hkept⟩ :=
    State.memWrite_blocks_complete_spec (r := s.latch.x.srcRegion) hwhole (cbcEncrypt_length ..) rfl
  refine ⟨hdone, hslots, hdraws, fun n hn => ?_, hkept⟩
  rw [← State.cbcEncOut_length] at hn
  refine (hblock n hn).trans ((getElem_cbcEncrypt _ _ _ hn).trans ?_)
  rw [State.getElem_blocksOf_memRead]
  congr 2
  split
  · rfl
  · exact (hblock (n - 1) ((Nat.sub_le n 1).trans_lt hn)).symm

/-- Settles O41: block `n` written is block `n` of the decryption, whose chain value is the block before it in the
snapshot. -/
theorem cbcDecChainsTheBlocks : Obligations.CbcDecChainsTheBlocks := by
  intro s hr
  have ⟨_, _, hwhole, _⟩ := hr
  refine ⟨_, exec_cbcDec hr, ?_⟩
  obtain ⟨hdone, hslots, hdraws, hblock, hkept⟩ :=
    State.memWrite_blocks_complete_spec (r := s.latch.x.srcRegion) hwhole (cbcDecrypt_length ..) rfl
  refine ⟨hdone, hslots, hdraws, fun n hn => ?_, hkept⟩
  rw [← State.cbcDecOut_length] at hn
  refine (hblock n hn).trans ((getElem_cbcDecrypt _ _ _ hn).trans ?_)
  simp only [State.getElem_blocksOf_memRead]
  rfl

/-! ### The round trip (R137) -/

theorem bufBytes_of_cbcEnc {s t : State} (h : exec .cbcEnc s = .next t) (hk : t.result.code = .ok) :
    t.bufBytes s.latch.x.srcRegion = bytesOfBlocks s.cbcEncOut := by
  have hr : s.Ready .cbcEnc := .of_ok h hk
  have ⟨_, _, hwhole, _⟩ := hr
  cases h.symm.trans (exec_cbcEnc hr)
  exact State.bufBytes_memWrite _ _ _ (bytesOfBlocks_length_of_whole hwhole (cbcEncrypt_length ..))

theorem bufBytes_of_cbcDec {s t : State} (h : exec .cbcDec s = .next t) (hk : t.result.code = .ok) :
    t.bufBytes s.latch.x.srcRegion = bytesOfBlocks s.cbcDecOut := by
  have hr : s.Ready .cbcDec := .of_ok h hk
  have ⟨_, _, hwhole, _⟩ := hr
  cases h.symm.trans (exec_cbcDec hr)
  exact State.bufBytes_memWrite _ _ _ (bytesOfBlocks_length_of_whole hwhole (cbcDecrypt_length ..))

/-- Settles O42: CBC_DEC finds CBC_ENC's ciphertext blocks and chains them from the same IV, which gives the plaintext
blocks, and these are all of the region. -/
theorem cbcRoundTrip : Obligations.CbcRoundTrip := by
  intro s s' u u' hes hks hkey hiv _ hdata heu hku
  have ⟨_, _, hwhole, _⟩ : s.Ready .cbcEnc := .of_ok hes hks
  have hplain : u.cbcDecOut = blocksOf (s.memRead s.latch.x.srcRegion) := by
    rw [State.cbcDecOut, hkey, hiv, hdata, bufBytes_of_cbcEnc hes hks, blocksOf_bytesOfBlocks, State.cbcEncOut,
      cbcDecrypt_cbcEncrypt (decryptBlock_encryptBlock s.key)]
  rw [bufBytes_of_cbcDec heu hku, hplain, bytesOfBlocks_blocksOf]
  rw [State.memRead_length]
  exact hwhole

end Sys2Proof.Machine
end

section
/-! PROOF. The CBC-MAC engine: doubling by bytes, and the tags that CMAC and CMAC_VEC write (43_cmac.md R145–R153). -/

namespace Sys2Proof.Machine

/-! ### Doubling in GF(2^128) (R145) -/

/-- Bit `k` of byte `i` of a block, in the block's own count of bits. -/
theorem getLsbD_blockByte (b : Block) (i : Nat) {k : Nat} (hk : k < 8) :
    (blockByte b i).getLsbD k = b.getLsbD (8 * (15 - i) + k) := by
  simp [blockByte, hk]

/-- The bit that doubling drops is bit 7 of byte 0. -/
theorem msb_eq_getLsbD_blockByte (b : Block) : b.msb = (blockByte b 0).getLsbD 7 := by
  rw [getLsbD_blockByte b 0 (by decide), BitVec.msb_eq_getLsbD_last]

/-- A shift of the whole block by one gives bit `k + 1` of a byte the bit below it. -/
theorem getLsbD_blockByte_shiftLeft_one_succ (b : Block) (i : Nat) {k : Nat} (hk : k + 1 < 8) :
    (blockByte (b <<< 1) i).getLsbD (k + 1) = (blockByte b i).getLsbD k := by
  have hlt : 8 * (15 - i) + (k + 1) < 128 := by omega
  rw [getLsbD_blockByte _ _ hk, getLsbD_blockByte _ _ (Nat.lt_of_succ_lt hk), BitVec.getLsbD_shiftLeft]
  simp [hlt]

/-- A shift of the whole block by one gives bit 0 of a byte bit 7 of the byte after it. -/
theorem getLsbD_blockByte_shiftLeft_one_zero (b : Block) {i : Nat} (hi : i < 15) :
    (blockByte (b <<< 1) i).getLsbD 0 = (blockByte b (i + 1)).getLsbD 7 := by
  have hlt : 8 * (15 - i) < 128 := by omega
  have hpos : 15 - i ≠ 0 := by omega
  have hbit : 8 * (15 - i) - 1 = 8 * (15 - (i + 1)) + 7 := by omega
  rw [getLsbD_blockByte _ _ (by decide), getLsbD_blockByte _ _ (by decide), BitVec.getLsbD_shiftLeft]
  simp [hlt, hpos, hbit]

theorem blockByte_shiftLeft_one (b : Block) {i : Nat} (hi : i < 15) :
    blockByte (b <<< 1) i = blockByte b i <<< 1 ||| blockByte b (i + 1) >>> 7 := by
  refine BitVec.eq_of_getLsbD_eq fun k hk => ?_
  cases k with
  | zero => simpa using getLsbD_blockByte_shiftLeft_one_zero b hi
  | succ k =>
    have hpast : (blockByte b (i + 1)).getLsbD (7 + (k + 1)) = false := BitVec.getLsbD_of_ge _ _ (by omega)
    rw [getLsbD_blockByte_shiftLeft_one_succ b i hk, BitVec.getLsbD_or, BitVec.getLsbD_shiftLeft,
      BitVec.getLsbD_ushiftRight, hpast]
    simp [hk]

theorem blockByte_shiftLeft_one_last (b : Block) : blockByte (b <<< 1) 15 = blockByte b 15 <<< 1 := by
  refine BitVec.eq_of_getLsbD_eq fun k hk => ?_
  cases k with
  | zero => rw [getLsbD_blockByte _ _ hk, BitVec.getLsbD_shiftLeft, BitVec.getLsbD_shiftLeft]; rfl
  | succ k => rw [getLsbD_blockByte_shiftLeft_one_succ b 15 hk, BitVec.getLsbD_shiftLeft]; simp [hk]

/-- The reduction constant lies in byte 15 alone. -/
theorem blockByte_reduction {i : Nat} (hi : i < 15) (c : Bool) : blockByte (if c then 0x87 else 0) i = 0#8 := by
  have hbyte : ∀ i < 15, blockByte 0x87 i = 0 ∧ blockByte 0 i = 0 := by decide
  obtain ⟨hred, hzero⟩ := hbyte i hi
  cases c
  · exact hzero
  · exact hred

theorem blockByte_reduction_last (c : Bool) : blockByte (if c then 0x87 else 0) 15 = if c then 0x87 else 0 := by
  cases c <;> rfl

/-- Settles O43: doubling is the shift of the whole block, and the constant enters at byte 15. -/
theorem doublingShiftsByBytes : Obligations.DoublingShiftsByBytes := by
  refine fun b => ⟨fun i hi => ?_, ?_⟩
  · rw [dbl, blockByte_xor, blockByte_reduction hi, BitVec.xor_zero, blockByte_shiftLeft_one b hi]
  · rw [dbl, blockByte_xor, blockByte_reduction_last, blockByte_shiftLeft_one_last, msb_eq_getLsbD_blockByte]

/-! ### CMAC and CMAC_VEC (R150, R153) -/

/-- Settles O44: the block written is the tag of the message region in the snapshot. -/
theorem cmacWritesTheTag : Obligations.CmacWritesTheTag := fun _ hr =>
  ⟨_, exec_cmac hr, State.memWrite_block_complete_spec rfl⟩

/-- Settles O45: the block written is the tag of the segments in the snapshot, joined in their order. -/
theorem cmacVecWritesTheTag : Obligations.CmacVecWritesTheTag := fun _ hr =>
  ⟨_, exec_cmacVec hr, State.memWrite_block_complete_spec rfl⟩

/-! ### Any split gives the same tag (R151) -/

theorem bufBlock_of_cmac {s t : State} (h : exec .cmac s = .next t) (hk : t.result.code = .ok) :
    t.bufBlock s.latch.x.tagAddr.toNat = cmacTag (encryptBlock s.key) (s.memRead s.latch.x.srcRegion) := by
  obtain ⟨t', ht, -, -, -, htag, -⟩ := cmacWritesTheTag s (.of_ok h hk)
  cases h.symm.trans ht
  exact htag

theorem bufBlock_of_cmacVec {s t : State} (h : exec .cmacVec s = .next t) (hk : t.result.code = .ok) :
    t.bufBlock s.latch.x.tagAddr.toNat = cmacTag (encryptBlock s.key) (s.segments.flatMap s.memRead) := by
  obtain ⟨t', ht, -, -, -, htag, -⟩ := cmacVecWritesTheTag s (.of_ok h hk)
  cases h.symm.trans ht
  exact htag

/-- Settles O46: both tags are the CMAC of the joined segments under the one key. -/
theorem cmacVecEqualsCmacOfTheConcatenation : Obligations.CmacVecEqualsCmacOfTheConcatenation := by
  intro s s' u u' hes hks hkey hmsg heu hku
  rw [bufBlock_of_cmacVec hes hks, bufBlock_of_cmac heu hku, hkey, hmsg]

end Sys2Proof.Machine
end

section
/-! PROOF. The CCM combiner: block B0, what CCM_ENC and CCM_DEC write, and the round trip (44_ccm.md R162–R171). -/

namespace Sys2Proof.Machine

/-! ### Block B0 (R162) -/

/-- A legal M keeps the sum of the flags byte below 256. -/
theorem toNat_ccmFlags {m : Nat} (hm : m ≤ 16) (a : Nat) :
    (ccmFlags m a).toNat = (if 0 < a then 0x40 else 0) + 8 * ((m - 2) / 2) + 1 := by
  rw [ccmFlags, BitVec.toNat_ofNat]
  split <;> omega

/-- The two bytes of a big-endian length, read back. -/
theorem toNat_beBytes_two {l : Nat} (hl : l ≤ 65535) :
    ((beBytes 2 l)[0]'(by simp)).toNat * 256 + ((beBytes 2 l)[1]'(by simp)).toNat = l := by
  simp only [beBytes, List.getElem_map, List.getElem_range, BitVec.toNat_ofNat]
  omega

/-- The bytes of a block that is one byte, a nonce and two more bytes, as B0 is (R162). -/
theorem blockByte_flags_nonce_length {f : Byte} {nonce v : Bytes} (hn : nonce.length = 13) (hv : v.length = 2) :
    blockByte (blockOfBytes ([f] ++ nonce ++ v)) 0 = f
      ∧ (∀ j, (h : j < nonce.length) → blockByte (blockOfBytes ([f] ++ nonce ++ v)) (1 + j) = nonce[j])
      ∧ blockByte (blockOfBytes ([f] ++ nonce ++ v)) 14 = v[0]
      ∧ blockByte (blockOfBytes ([f] ++ nonce ++ v)) 15 = v[1] := by
  have hlen : ([f] ++ nonce ++ v).length = 16 := by simp [hn, hv]
  refine ⟨?_, fun j h => ?_, ?_, ?_⟩
  · rw [blockByte_blockOfBytes hlen (by decide)]; rfl
  · rw [blockByte_blockOfBytes hlen (by omega)]; simp [h, Nat.add_comm 1 j]
  · rw [blockByte_blockOfBytes hlen (by decide)]; simp [hn]
  · rw [blockByte_blockOfBytes hlen (by decide)]; simp [hn]

/-- Settles O47: the fields are the pieces that B0 joins, and each number fits its bytes. -/
theorem ccmFirstBlockHasItsFields : Obligations.CcmFirstBlockHasItsFields := by
  intro nonce m a l hn hm hl
  have hm16 : m ≤ 16 := by
    simp only [List.mem_cons, List.not_mem_nil, or_false] at hm
    omega
  obtain ⟨hflags, hnonce, hhigh, hlow⟩ := blockByte_flags_nonce_length (f := ccmFlags m a) hn (beBytes_length 2 l)
  rw [ccmB0, hflags, hhigh, hlow]
  exact ⟨toNat_ccmFlags hm16 a, hnonce, toNat_beBytes_two hl⟩

/-! ### Two output regions -/

/-- The bytes of a region written first stand after a write to a region that it does not meet. -/
theorem State.bufBytes_memWrite_memWrite (s : State) {r q : Region} {bs cs : Bytes} (hb : bs.length = r.len)
    (hc : cs.length = q.len) (hrq : ¬ r.Meets q) : ((s.memWrite r.addr bs).memWrite q.addr cs).bufBytes r = bs := by
  rw [State.bufBytes_memWrite_of_disjoint _ _ _ _ (by omega), State.bufBytes_memWrite _ _ _ hb]

/-- The output regions of a ready command with two of them do not meet (60_exceptions.md R210). -/
theorem State.Ready.outputs_disjoint {s : State} {i : Instr} {r q : Region} (h : s.Ready i)
    (ho : s.latch.x.outputs i = [r, q]) : ¬ r.Meets q := by
  obtain ⟨-, -, -, -, ⟨-, hpair⟩, -⟩ := h
  rw [ho] at hpair
  exact List.pairwise_pair.mp hpair

/-! ### CCM_ENC (R167) -/

/-- Settles O48: the data and the tag fill two regions that do not meet, so both stand. -/
theorem ccmEncWritesCiphertextAndTag : Obligations.CcmEncWritesCiphertextAndTag := by
  intro s hr
  have ⟨_, _, ⟨⟨_, htag, _⟩, _⟩, _⟩ := hr
  have he := exec_ccmEnc hr
  refine ⟨_, he, .of_memWrite_memWrite .., by simp, by simp, ?_, ?_, exec_bufKeptOutside he⟩
  · rw [State.bufBytes_complete, State.bufBytes_memWrite_memWrite _ (s.ccmCtr_fills _ _)
      (Params.ccmTag_fills htag _ _ _) (hr.outputs_disjoint rfl)]
  · rw [State.bufBytes_complete, State.bufBytes_memWrite _ _ _ (Params.ccmTag_fills htag _ _ _)]

/-! ### CCM_DEC (R168, R169) -/

/-- Settles O49: the tags agree, so the plaintext is written. -/
theorem ccmDecWritesThePlaintextWhenVerified : Obligations.CcmDecWritesThePlaintextWhenVerified := by
  intro s hr _ _ _ _ _ hverified
  have he := exec_ccmDec_pass hr hverified
  refine ⟨_, he, .of_memWrite .., by simp, by simp, ?_, exec_bufKeptOutside he⟩
  rw [State.bufBytes_complete, State.bufBytes_memWrite _ _ _ (s.ccmCtr_fills _ _)]

/-- Settles O50: the tags differ, so the output region is freed. -/
theorem ccmDecMismatchLeavesFreeOutput : Obligations.CcmDecMismatchLeavesFreeOutput := by
  intro s hr _ _ _ _ _ hmismatch
  have he := exec_ccmDec_fail hr hmismatch
  exact ⟨_, he, .of_freeRegion .., by simp, s.freeRegion_bufFree _, exec_bufKeptOutside he⟩

/-! ### The round trip (R171) -/

/-- Settles O51: CCM_DEC's transform undoes CCM_ENC's, so both authenticate the same plaintext and the tag verifies. -/
theorem ccmRoundTrip : Obligations.CcmRoundTrip := by
  intro s s' u hes hks hru hkey hnonce haad htaglen hdata htag
  obtain ⟨t, ht, -, -, -, hcipher, htagBytes, -⟩ := ccmEncWritesCiphertextAndTag s (.of_ok hes hks)
  cases hes.symm.trans ht
  have hplain : ccmCtr (encryptBlock u.key) (u.memRead u.latch.x.nonceRegion) (u.memRead u.latch.x.srcRegion)
      = s.memRead s.latch.x.srcRegion := by
    rw [hkey, hnonce, hdata, hcipher, ccmCtr_ccmCtr]
  have hverified : u.ccmExpected = u.memRead u.latch.x.tagRegion := by
    rw [htag, htagBytes, State.ccmExpected, hplain, hkey, hnonce, haad, htaglen]
  obtain ⟨u', hu, hdone, -, -, hout, -⟩ := ccmDecWritesThePlaintextWhenVerified u hru hverified
  exact ⟨u', hu, hdone.result, hout.trans hplain⟩

end Sys2Proof.Machine
end

section
/-! PROOF. The GCM counter-mode encryptor and the GHASH multiplier: the field laws of the product, the counter, the key
stream, what GCM_ENC, GCM_DEC and GMAC write, and the round trip (45_gcm.md R181–R196). -/

namespace Sys2Proof.Machine

/-! ### The GHASH multiplier (R181)

The double-and-add loop only doubles and adds, so every additive map that commutes with doubling passes through it.
Doubling is such a map, hence so is `gfmul x`, hence two of these maps commute; with the unit on the right, that is the
commutativity of the product. -/

theorem ghashDouble_eq (v : Block) : ghashDouble v = (v >>> 1) ^^^ (if v.getLsbD 0 then ghashPoly else 0) := by
  rw [ghashDouble]
  split
  · rfl
  · exact BitVec.xor_zero.symm

/-- Doubling is additive: the shift is, and two reductions cancel. -/
theorem ghashDouble_xor (v w : Block) : ghashDouble (v ^^^ w) = ghashDouble v ^^^ ghashDouble w := by
  have hreduce : ∀ a b : Bool, (if a ^^ b then ghashPoly else 0)
      = (if a then ghashPoly else 0) ^^^ (if b then ghashPoly else 0) := by decide
  rw [ghashDouble_eq, ghashDouble_eq, ghashDouble_eq, BitVec.ushiftRight_xor_distrib, BitVec.getLsbD_xor, hreduce]
  ac_rfl

/-- The loop is additive in its accumulator and multiple together. -/
theorem gfmulLoop_xor (x : Block) (n : Nat) (z z' v v' : Block) :
    gfmulLoop x n (z ^^^ z') (v ^^^ v') = gfmulLoop x n z v ^^^ gfmulLoop x n z' v' := by
  induction n generalizing z z' v v' with
  | zero => rfl
  | succ n ih =>
    simp only [gfmulLoop, ghashDouble_xor, ← ih]
    split
    · congr 1; ac_rfl
    · rfl

/-- An additive map that commutes with doubling passes through the loop. -/
theorem gfmulLoop_map {L : Block → Block} (hadd : ∀ v w, L (v ^^^ w) = L v ^^^ L w)
    (hdouble : ∀ v, L (ghashDouble v) = ghashDouble (L v)) (x : Block) (n : Nat) (z v : Block) :
    L (gfmulLoop x n z v) = gfmulLoop x n (L z) (L v) := by
  induction n generalizing z v with
  | zero => rfl
  | succ n ih => rw [gfmulLoop, gfmulLoop, ih, hdouble, apply_ite L, hadd]

theorem gfmul_xor (x y z : Block) : gfmul x (y ^^^ z) = gfmul x y ^^^ gfmul x z := gfmulLoop_xor x 128 0 0 y z

@[simp] theorem gfmul_zero (x : Block) : gfmul x 0 = 0 := by
  simpa using gfmul_xor x 0 0

theorem gfmul_ghashDouble (x y : Block) : gfmul x (ghashDouble y) = ghashDouble (gfmul x y) :=
  (gfmulLoop_map ghashDouble_xor (fun _ => rfl) x 128 0 y).symm

theorem gfmul_left_comm (x y z : Block) : gfmul x (gfmul y z) = gfmul y (gfmul x z) :=
  calc gfmul x (gfmulLoop y 128 0 z) = gfmulLoop y 128 (gfmul x 0) (gfmul x z) :=
        gfmulLoop_map (gfmul_xor x) (gfmul_ghashDouble x) y 128 0 z
    _ = gfmulLoop y 128 0 (gfmul x z) := by rw [gfmul_zero]

/-- Doubling moves a single set bit one place down. -/
theorem ghashDouble_twoPow {n : Nat} (h : n + 1 < 128) :
    ghashDouble (BitVec.twoPow 128 (n + 1)) = BitVec.twoPow 128 n := by
  have hlow : (BitVec.twoPow 128 (n + 1)).getLsbD 0 = false := by simp
  rw [ghashDouble, hlow, if_neg Bool.false_ne_true]
  refine BitVec.eq_of_getLsbD_eq fun j _ => ?_
  rw [BitVec.getLsbD_ushiftRight, BitVec.getLsbD_twoPow, BitVec.getLsbD_twoPow, Bool.eq_iff_iff]
  simp only [Bool.and_eq_true, decide_eq_true_eq]
  omega

/-- A round whose multiple is bit `n` alone adds bit `n` of the factor. -/
theorem getLsbD_ite_xor_twoPow (x z : Block) {n : Nat} (h : n < 128) (j : Nat) :
    (if x.getLsbD n then z ^^^ BitVec.twoPow 128 n else z).getLsbD j
      = (z.getLsbD j ^^ (decide (j = n) && x.getLsbD j)) := by
  by_cases hj : j = n
  · subst hj
    cases hx : x.getLsbD j <;> simp [h]
  · have hne : n ≠ j := Ne.symm hj
    cases x.getLsbD n <;> simp [hj, hne]

/-- From the multiple that is bit `n` alone, the last `n + 1` rounds add the low `n + 1` bits of the factor. -/
theorem getLsbD_gfmulLoop_twoPow (x z : Block) {n : Nat} (h : n < 128) (j : Nat) :
    (gfmulLoop x (n + 1) z (BitVec.twoPow 128 n)).getLsbD j
      = (z.getLsbD j ^^ (decide (j ≤ n) && x.getLsbD j)) := by
  induction n generalizing z with
  | zero => rw [gfmulLoop, gfmulLoop, getLsbD_ite_xor_twoPow x z h]; simp only [Nat.le_zero]
  | succ n ih =>
    rw [gfmulLoop, ghashDouble_twoPow h, ih _ (by omega), getLsbD_ite_xor_twoPow x z h]
    rcases Nat.lt_trichotomy j (n + 1) with hj | rfl | hj
    · simp [hj.ne, hj.le, Nat.le_of_lt_succ hj]
    · simp
    · simp [hj.ne', hj.not_ge, show ¬ j ≤ n by omega]

theorem gfmul_one (x : Block) : gfmul x 0x80000000000000000000000000000000 = x := by
  have hone : (0x80000000000000000000000000000000 : Block) = BitVec.twoPow 128 127 := by decide
  refine BitVec.eq_of_getLsbD_eq fun j hj => ?_
  rw [hone, gfmul, getLsbD_gfmulLoop_twoPow x 0 (by decide)]
  simp [Nat.le_of_lt_succ hj]

theorem gfmul_comm (x y : Block) : gfmul x y = gfmul y x :=
  calc gfmul x y = gfmul x (gfmul y 0x80000000000000000000000000000000) := by rw [gfmul_one]
    _ = gfmul y (gfmul x 0x80000000000000000000000000000000) := gfmul_left_comm ..
    _ = gfmul y x := by rw [gfmul_one]

/-- Settles O53: the maps `gfmul z` and `gfmul x` commute, and the product is commutative. -/
theorem ghashMultiplierCommutesAndAssociates : Obligations.GhashMultiplierCommutesAndAssociates := fun x y z =>
  ⟨gfmul_comm x y, calc gfmul (gfmul x y) z = gfmul z (gfmul x y) := gfmul_comm ..
    _ = gfmul x (gfmul z y) := gfmul_left_comm ..
    _ = gfmul x (gfmul y z) := by rw [gfmul_comm z]⟩

/-- Settles O52: each law on the right is the loop's, and on the left its mirror image by commutativity. -/
theorem ghashMultiplierIsBilinear : Obligations.GhashMultiplierIsBilinear := by
  refine fun x y z => ⟨?_, gfmul_xor x y z, ?_, gfmul_one x, ?_, gfmul_zero x⟩
  · rw [gfmul_comm, gfmul_xor, gfmul_comm z x, gfmul_comm z y]
  · rw [gfmul_comm, gfmul_one]
  · rw [gfmul_comm, gfmul_zero]

/-! ### The counter (R186) -/

theorem toNat_inc32 (cb : Block) :
    (inc32 cb).toNat = cb.toNat / 2 ^ 32 * 2 ^ 32 + (cb.toNat % 2 ^ 32 + 1) % 2 ^ 32 := by
  have hcb := cb.isLt
  have hhigh : (cb.extractLsb' 32 96).toNat = cb.toNat / 2 ^ 32 := by
    rw [BitVec.extractLsb'_toNat, Nat.shiftRight_eq_div_pow, Nat.mod_eq_of_lt (by omega)]
  have hlow : (cb.extractLsb' 0 32 + 1).toNat = (cb.toNat % 2 ^ 32 + 1) % 2 ^ 32 := by
    rw [BitVec.toNat_add, BitVec.extractLsb'_toNat, Nat.shiftRight_zero]
    rfl
  rw [inc32, BitVec.toNat_append, ← Nat.shiftLeft_add_eq_or_of_lt (BitVec.isLt _), hhigh, hlow, Nat.shiftLeft_eq]

/-- Settles O54: the increment is below `2 ^ 32`, so it carries nothing into the upper bits. -/
theorem counterIncrementStaysInTheLowWord : Obligations.CounterIncrementStaysInTheLowWord := by
  intro cb
  rw [toNat_inc32]
  omega

/-! ### The key stream (R187) -/

/-- Byte `j` of the key stream lies in the block of the counter incremented `j / 16` times. -/
theorem getElem_gctrStream (E : Block → Block) (n : Nat) (cb : Block) {j : Nat}
    (h : j < (gctrStream E n cb).length) :
    (gctrStream E n cb)[j] = blockByte (E (inc32^[j / 16] cb)) (j % 16) := by
  induction n generalizing cb j with
  | zero => exact absurd h (Nat.not_lt_zero j)
  | succ n ih =>
    simp only [gctrStream]
    by_cases hj : j < 16
    · rw [List.getElem_append_left (by simpa using hj), getElem_bytesOfBlock, Nat.div_eq_of_lt hj,
        Nat.mod_eq_of_lt hj, Function.iterate_zero_apply]
    · have hdiv : j / 16 = (j - 16) / 16 + 1 := by omega
      have hmod : (j - 16) % 16 = j % 16 := by omega
      rw [List.getElem_append_right (by simpa using hj), ih, hdiv, Function.iterate_succ_apply, bytesOfBlock_length,
        hmod]

/-- Settles O55: GCTR is the XOR with the key stream, which covers the last partial block too. -/
theorem counterModeUsesConsecutiveCounters : Obligations.CounterModeUsesConsecutiveCounters := by
  refine fun E icb x => ⟨gctr_length E icb x, fun j h => ?_⟩
  have hj : j < (gctr E icb x).length := by rwa [gctr_length]
  rw [← List.getElem_eq_getD (h := hj)]
  simp only [gctr, getElem_xorBytes, getElem_gctrStream]

/-! ### GCM_ENC (R190) -/

/-- Settles O56: the data and the tag fill two regions that do not meet, so both stand. -/
theorem gcmEncWritesCiphertextAndTag : Obligations.GcmEncWritesCiphertextAndTag := by
  intro s hr
  have ⟨_, _, ⟨_, htag⟩, _⟩ := hr
  have he := exec_gcmEnc hr
  refine ⟨_, he, .of_memWrite_memWrite .., by simp, by simp, ?_, ?_, exec_bufKeptOutside he⟩
  · rw [State.bufBytes_complete, State.bufBytes_memWrite_memWrite _ (s.gcmCtr_fills _ _)
      (Params.gcmTag_fills htag _ _ _ _) (hr.outputs_disjoint rfl), gcmCtr]
  · rw [State.bufBytes_complete, State.bufBytes_memWrite _ _ _ (Params.gcmTag_fills htag _ _ _ _), gcmCtr]

/-! ### GCM_DEC (R191, R194) -/

/-- Settles O57: the tags agree, so the plaintext is written. -/
theorem gcmDecWritesThePlaintextWhenVerified : Obligations.GcmDecWritesThePlaintextWhenVerified := by
  intro s hr _ _ _ _ hverified
  have he := exec_gcmDec_pass hr hverified
  refine ⟨_, he, .of_memWrite .., by simp, by simp, ?_, exec_bufKeptOutside he⟩
  exact (State.bufBytes_complete ..).trans (State.bufBytes_memWrite _ _ _ (s.gcmCtr_fills _ _))

/-- Settles O58: the tags differ, so the output region is freed. -/
theorem gcmDecMismatchLeavesFreeOutput : Obligations.GcmDecMismatchLeavesFreeOutput := by
  intro s hr _ _ _ _ hmismatch
  have he := exec_gcmDec_fail hr hmismatch
  exact ⟨_, he, .of_freeRegion .., by simp, s.freeRegion_bufFree _, exec_bufKeptOutside he⟩

/-! ### GMAC (R192) -/

/-- Settles O59: the tag fills its region. -/
theorem gmacWritesTheTag : Obligations.GmacWritesTheTag := by
  intro s hr
  have ⟨_, _, ⟨_, htag⟩, _⟩ := hr
  have he := exec_gmac hr
  refine ⟨_, he, .of_memWrite .., by simp, by simp, ?_, exec_bufKeptOutside he⟩
  rw [State.bufBytes_complete, State.bufBytes_memWrite _ _ _ (Params.gcmTag_fills htag _ _ _ _)]

/-! ### The round trip, and GMAC as GCM_ENC with no data (R196) -/

/-- What a GCM_ENC that completed with OK left in its two output regions. -/
theorem bufBytes_of_gcmEnc {s t : State} (h : exec .gcmEnc s = .next t) (hk : t.result.code = .ok) :
    t.bufBytes s.latch.x.dstRegion
        = gcmCtr (encryptBlock s.key) (s.memRead s.latch.x.ivRegion) (s.memRead s.latch.x.srcRegion)
      ∧ t.bufBytes s.latch.x.tagRegion
        = gcmTag (encryptBlock s.key) (s.memRead s.latch.x.ivRegion) (s.memRead s.latch.x.aadRegion)
          (t.bufBytes s.latch.x.dstRegion) s.latch.x.tagLen.toNat := by
  obtain ⟨t', ht, -, -, -, hcipher, htag, -⟩ := gcmEncWritesCiphertextAndTag s (.of_ok h hk)
  cases h.symm.trans ht
  exact ⟨hcipher, hcipher ▸ htag⟩

/-- What a GMAC that completed with OK left in its output region. -/
theorem bufBytes_of_gmac {s t : State} (h : exec .gmac s = .next t) (hk : t.result.code = .ok) :
    t.bufBytes s.latch.x.tagRegion
      = gcmTag (encryptBlock s.key) (s.memRead s.latch.x.ivRegion) (s.memRead s.latch.x.aadRegion) []
        s.latch.x.tagLen.toNat := by
  obtain ⟨t', ht, -, -, -, htag, -⟩ := gmacWritesTheTag s (.of_ok h hk)
  cases h.symm.trans ht
  exact htag

/-- With no data, GCM_ENC's output region is empty. -/
theorem State.bufBytes_dstRegion_of_no_data (t : State) {x : Params} (h : x.dataLen = 0) :
    t.bufBytes x.dstRegion = [] := by
  have hlen : x.dstRegion.len = 0 := congrArg BitVec.toNat h
  rw [State.bufBytes, hlen, List.range_zero, List.map_nil]

/-- Settles O60: both commands compute the tag over the ciphertext, so it verifies, and the transform undoes itself; the
ciphertext of no data is empty, as GMAC has it. -/
theorem gcmRoundTrip : Obligations.GcmRoundTrip := by
  refine ⟨?_, ?_⟩
  · intro s s' u hes hks hru hkey hiv haad htaglen hdata htag
    obtain ⟨hcipher, htagBytes⟩ := bufBytes_of_gcmEnc hes hks
    have hverified : u.gcmExpected = u.memRead u.latch.x.tagRegion := by
      rw [htag, htagBytes, State.gcmExpected, hkey, hiv, haad, hdata, htaglen]
    obtain ⟨u', hu, hdone, -, -, hout, -⟩ := gcmDecWritesThePlaintextWhenVerified u hru hverified
    refine ⟨u', hu, hdone.result, hout.trans ?_⟩
    rw [hkey, hiv, hdata, hcipher, gcmCtr, gctr_gctr]
  · intro s s' u u' hes hks hkey hiv haad htaglen hempty heu hku
    obtain ⟨-, htagBytes⟩ := bufBytes_of_gcmEnc heu hku
    rw [bufBytes_of_gmac hes hks, htagBytes, State.bufBytes_dstRegion_of_no_data _ hempty, hkey, hiv, haad, htaglen]

end Sys2Proof.Machine
end

section
/-! PROOF. Checks, errors and completions: the code of the first failing check, the illegal word, the bad host access, and
that no step traps (60_exceptions.md R206–R220). -/

namespace Sys2Proof.Machine

/-! ### The checks in order (R207–R213) -/

open Classical in
/-- 60_exceptions.md R213: the order of the checks and the code of each, on the rules' own propositions. -/
theorem State.firstFailure_checks (s : State) (i : Instr) :
    firstFailure (s.checks i) =
      if s.ContextLegal i then
        if s.latch.x.KeyLegal i then
          if s.latch.x.ScalarsLegal i then
            if s.BoundsLegal i then
              if s.OverlapLegal i then
                if s.AllocLegal i then none else some .allocationFailure
              else some .parameterOutOfRange
            else some .addressError
          else some .parameterOutOfRange
        else some .invalidKeyLength
      else some .contextError := by
  simp only [State.checks, firstFailure, State.contextOk_iff, Params.keyOk_iff, Params.scalarsOk_iff, State.boundsOk_iff,
    State.overlapOk_iff, State.allocOk_iff]

/-- 60_exceptions.md R216: a failed check leaves its code and slot index 0 in RESULT. -/
theorem exec_result_of_firstFailure {i : Instr} {s t : State} {k : ResultCode} (h : exec i s = .next t)
    (hk : firstFailure (s.checks i) = some k) : t.result = ⟨k, 0⟩ := by
  rw [exec_of_firstFailure hk] at h
  cases h
  rfl

/-- 60_exceptions.md R214: a command that passes its checks completes with OK unless verification fails. -/
theorem exec_result_of_ready {i : Instr} {s t : State} (h : exec i s = .next t) (hr : s.Ready i) :
    t.result.code = .ok ∨ (i = .ccmDec ∧ t.result = ⟨.authMismatch, 0⟩)
      ∨ (i = .gcmDec ∧ t.result = ⟨.tagMismatch, 0⟩) := by
  rcases exec_cases h with ⟨k, hk, -⟩ | ⟨-, ⟨c, dir, rk, -, -, -, rfl⟩ | ⟨c, -, rfl⟩ | ⟨r, bs, -, -, rfl⟩
    | ⟨r, q, bs, cs, -, -, -, rfl⟩ | ⟨r, k, -, ⟨hi, rfl⟩ | ⟨hi, rfl⟩, rfl⟩⟩
  · rw [(s.ready_iff i).mpr hr] at hk
    cases hk
  · exact .inl rfl
  · exact .inl rfl
  · exact .inl rfl
  · exact .inl rfl
  · exact .inr (.inl ⟨hi, rfl⟩)
  · exact .inr (.inr ⟨hi, rfl⟩)

/-- Settles O7: every command answers, and every answer is a completion. -/
theorem everyCommandEndsInACompletion : Obligations.EveryCommandEndsInACompletion := by
  intro i s
  obtain ⟨t, ht⟩ := exec_next i s
  obtain ⟨k, c, hc⟩ := exec_completed ht
  exact ⟨t, k, c, ht, hc⟩

/-- Settles O8: a failed check's completion is all that the command does. -/
theorem failedCheckChangesNothing : Obligations.FailedCheckChangesNothing := by
  intro i s hr
  obtain ⟨k, hk, -, he⟩ := exec_of_not_ready hr
  exact ⟨_, k, he, hk, .of_complete .., rfl, rfl, rfl⟩

/-- Settles O9: the checks that pass are skipped in order up to the first that fails. -/
theorem firstFailingCheckGivesTheCode : Obligations.FirstFailingCheckGivesTheCode := by
  intro i s
  obtain ⟨t, ht⟩ := exec_next i s
  have hcode : ∀ {k}, firstFailure (s.checks i) = some k → t.result = ⟨k, 0⟩ := exec_result_of_firstFailure ht
  rw [State.firstFailure_checks] at hcode
  refine ⟨t, ht, fun hc => hcode ?_, fun hc hk => hcode ?_, fun hc hk hs => hcode ?_, fun hc hk hs hb => hcode ?_,
    fun hc hk hs hb ho => hcode ?_, fun hc hk hs hb ho ha => hcode ?_, exec_result_of_ready ht⟩
  · rw [if_neg hc]
  · rw [if_pos hc, if_neg hk]
  · rw [if_pos hc, if_pos hk, if_neg hs]
  · rw [if_pos hc, if_pos hk, if_pos hs, if_neg hb]
  · rw [if_pos hc, if_pos hk, if_pos hs, if_pos hb, if_neg ho]
  · rw [if_pos hc, if_pos hk, if_pos hs, if_pos hb, if_pos ho, if_neg ha]

/-! ### The illegal word (R206) -/

theorem State.engineTurn_of_illegal {s : State} (hp : s.phase = .busy) (hill : ∀ i, decode s.latch.lcmd ≠ .ok i) :
    s.engineTurn = .next (s.complete .illegalCommand 0) := by
  cases hd : decode s.latch.lcmd with
  | ok i => exact absurd hd (hill i)
  | error e => simp only [State.engineTurn, hp, hd]

/-- Settles O5: the engine's turn on an illegal word is a bare completion. -/
theorem illegalWordCompletesWithIllegalCommand : Obligations.IllegalWordCompletesWithIllegalCommand := by
  intro s rest hg hp hill
  rw [step_engine hg, State.engineTurn_of_illegal (s := { s with agenda := rest }) hp hill]
  exact ⟨_, rfl, .of_complete .., rfl, rfl, rfl⟩

/-! ### Bad host accesses (R219) -/

theorem csrAccessOk_eq_false {w off : Nat} (h : w ≠ 4 ∨ off % 4 ≠ 0) : csrAccessOk w off = false := by
  rw [csrAccessOk, Bool.and_eq_false_iff, beq_eq_false_iff_ne, beq_eq_false_iff_ne]
  exact h

theorem bufAccessOk_eq_false {w a : Nat} (h : a % w ≠ 0 ∨ w ∉ [1, 2, 4]) : bufAccessOk w a = false := by
  rw [bufAccessOk, Bool.and_eq_false_iff, beq_eq_false_iff_ne]
  exact h.symm.imp_left fun hw => by simpa [and_assoc] using hw

/-- Settles O22: the port rejects the access in whichever window it starts. -/
theorem badAccessIsABusErrorWithoutEffect : Obligations.BadAccessIsABusErrorWithoutEffect := by
  intro s w off v h
  rw [State.hostWrite, State.hostRead]
  rcases h with ⟨hlt, hbad⟩ | ⟨hlo, hhi, hbad⟩
  · have ht : s.portTarget off.toNat = .csr off.toNat := if_pos hlt
    simp only [ht, csrAccessOk_eq_false hbad]
    exact ⟨rfl, rfl⟩
  · have ht : s.portTarget off.toNat = .buf (off.toNat - 0x10000) := by
      rw [State.portTarget, if_neg (by omega), if_pos ⟨hlo, hhi⟩]
    simp only [ht, bufAccessOk_eq_false hbad]
    exact ⟨rfl, rfl⟩

/-! ### Every step answers, in the same configuration (R220; 10_state.md R23) -/

@[simp] theorem State.softReset_cfg (s : State) : s.softReset.cfg = s.cfg := by
  obtain ⟨m, d, h⟩ := s.softReset_eq
  rw [h]
  rfl

@[simp] theorem State.writeBuf_cfg (s : State) (w a : Nat) (v : Word) : (s.writeBuf w a v).cfg = s.cfg := by
  obtain ⟨d, h⟩ := s.writeBuf_eq w a v
  rw [h]

theorem State.hostWrite_cfg (s : State) (w : Nat) (off v : Word) : (s.hostWrite w off v).cfg = s.cfg := by
  rcases s.hostWrite_cases w off v with ⟨-, -, -, he⟩ | he | he | ⟨-, he⟩ | he | ⟨p, he⟩ | ⟨a, -, -, -, he⟩
    | ⟨e, he⟩
  all_goals rw [he]; simp

theorem State.hostAccess_cfg (s : State) (a : HostAccess) : (s.hostAccess a).cfg = s.cfg := by
  cases a with
  | read w off =>
    obtain ⟨b, d, he⟩ := s.hostRead_eq w off
    rw [State.hostAccess, he]
  | write w off v => exact s.hostWrite_cfg w off v

theorem exec_cfg {i : Instr} {s t : State} (h : exec i s = .next t) : t.cfg = s.cfg := by
  obtain ⟨k, c, hc, -⟩ := exec_completed h
  exact hc.cfg

theorem State.runCommand_next_cfg (s : State) (i : Instr) : ∃ t, s.runCommand i = .next t ∧ t.cfg = s.cfg := by
  obtain ⟨u, hu⟩ := exec_next i s
  cases hr : s.latch.raced with
  | false => exact ⟨u, (State.runCommand_of_not_raced i hr).trans hu, exec_cfg hu⟩
  | true => exact ⟨_, State.runCommand_of_raced hr hu, (u.afterRace_cfg i _).trans (exec_cfg hu)⟩

theorem State.engineTurn_next_cfg (s : State) : ∃ t, s.engineTurn = .next t ∧ t.cfg = s.cfg := by
  cases hp : s.phase with
  | idle => exact ⟨s, State.engineTurn_of_idle hp, rfl⟩
  | busy =>
    by_cases hd : ∃ i, decode s.latch.lcmd = .ok i
    · obtain ⟨i, hd⟩ := hd
      rw [State.engineTurn_of_decode hp hd]
      exact s.runCommand_next_cfg i
    · exact ⟨_, State.engineTurn_of_illegal hp (not_exists.mp hd), rfl⟩

theorem State.happen_next_cfg (s : State) (e : Event) : ∃ t, s.happen e = .next t ∧ t.cfg = s.cfg := by
  cases e with
  | host a => exact ⟨_, rfl, s.hostAccess_cfg a⟩
  | engine => exact s.engineTurn_next_cfg
  | hardReset => exact ⟨_, rfl, rfl⟩

/-- Settles O6: whichever event the agenda lists, and the engine's turn where it lists none. -/
theorem everyStepAnswersInTheSameConfiguration : Obligations.EveryStepAnswersInTheSameConfiguration := by
  intro s
  rw [step, State.advance]
  split
  case h_1 => exact s.engineTurn_next_cfg
  case h_2 e es _ => exact State.happen_next_cfg { s with agenda := es } e

end Sys2Proof.Machine
end

section
/-! PROOF. The two resets, and the regions a command may write (70_reset_and_hazards.md R230, R231, R247). -/

namespace Sys2Proof.Machine

/-! ### The output regions (R247) -/

/-- Settles O10: the frame that the race's trace (20_memory.md R63) rests on, for every command. -/
theorem onlyOutputRegionsAreWritten : Obligations.OnlyOutputRegionsAreWritten := fun _ _ _ => exec_bufKeptOutside

/-! ### The regions a soft reset aborts (R231) -/

theorem Params.get_zero (r : ParamReg) : Params.zero.get r = 0 := by
  cases r <;> rfl

theorem State.runningOutputs_of_idle {s : State} (h : s.phase = .idle) : s.runningOutputs = [] := by
  rw [State.runningOutputs, h]

theorem State.runningOutputs_of_illegal {s : State} (h : ∀ i, decode s.latch.lcmd ≠ .ok i) :
    s.runningOutputs = [] := by
  rw [State.runningOutputs]
  split
  case h_1 i _ hd => exact absurd hd (h i)
  case h_2 => rfl

theorem State.runningOutputs_of_busy {s : State} {i : Instr} (h : s.phase = .busy)
    (hd : decode s.latch.lcmd = .ok i) : s.runningOutputs = s.latch.x.outputs i := by
  rw [State.runningOutputs, h, hd]

theorem State.softReset_bufFree (s : State) {o : Region} (ho : o ∈ s.runningOutputs) : s.softReset.BufFree o := by
  intro a ha hlt
  rw [State.softReset_cfg] at hlt
  exact s.freeRegions_inside _ a hlt (.inl ⟨o, ho, ha⟩)

theorem State.softReset_bufKeptOutside (s : State) : BufKeptOutside s s.softReset s.runningOutputs :=
  s.freeRegions_outside _

theorem State.bufByte_softReset_of_no_outputs {s : State} (h : s.runningOutputs = []) (a : Nat) :
    s.softReset.bufByte a = s.bufByte a :=
  s.softReset_bufKeptOutside a (by rw [h]; nofun)

theorem State.hostWrite_srst (s : State) {v : Word} (h : v.getLsbD 1 = true) :
    s.hostWrite 4 0x008 v = s.softReset.respond false 0 := by
  rw [State.hostWrite_ctrl, if_pos h]

/-! ### Soft reset and hardware reset (R231, R230) -/

/-- Settles O27: BUF follows from the regions the reset frees, which are the outputs of a running legal word and none
otherwise; the rest is `clearAll`. -/
theorem softResetAbortsAndClears : Obligations.SoftResetAbortsAndClears := by
  intro s v hv
  rw [State.hostWrite_srst s hv]
  refine ⟨_, rfl, rfl, rfl, rfl, rfl, rfl, Params.get_zero, State.slot_of_replicate (State.clearAll_slots _), ?slots,
    rfl, rfl, rfl, fun hp => ?idle, fun _ hill => ?illegal, fun i hp hd => ?legal⟩
  case slots => simp [State.softReset]
  case idle => exact State.bufByte_softReset_of_no_outputs (State.runningOutputs_of_idle hp)
  case illegal => exact State.bufByte_softReset_of_no_outputs (State.runningOutputs_of_illegal hill)
  case legal =>
    rw [← State.runningOutputs_of_busy hp hd]
    exact ⟨fun o ho => s.softReset_bufFree ho, s.softReset_bufKeptOutside⟩

theorem step_hardReset {s : State} {rest : List Event} (h : s.agenda = .hardReset :: rest) :
    step s = .next (State.hardReset { s with agenda := rest }) := by
  rw [step, State.advance, h]
  rfl

theorem State.bufByte_hardReset (s : State) (a : Nat) :
    s.hardReset.bufByte a = Config.powerOnByte (s.epoch + 1) a := rfl

/-- Settles O28: `clearAll`, and a BUF that lists no byte, under the number of the next reset. -/
theorem hardwareResetClearsEverything : Obligations.HardwareResetClearsEverything := by
  intro s rest h
  exact ⟨_, step_hardReset h, rfl, rfl, rfl, rfl, rfl, rfl, Params.get_zero,
    State.slot_of_replicate (State.hardReset_slots _), List.length_replicate, rfl, rfl, rfl,
    s.epoch + 1, Nat.succ_ne_self _, State.bufByte_hardReset _⟩

end Sys2Proof.Machine
end
